-- ==== Sys2Proof/Word.lean ====
section
/-! DEFINITION. The words of the block: 32-bit FIFO words and registers (00_scope.md R7 WORD_BITS, decision D3), buffer
bytes, and request handles. -/

namespace Sys2Proof

/-- A FIFO word or a core register: 32 bits, bit 0 the least significant (00_scope.md R7, R9). -/
abbrev Word := BitVec 32

/-- One byte of buffer memory (20_memory.md R60). -/
abbrev Byte := BitVec 8

/-- A request handle: a number below 2^HANDLE_BITS, a parameter (00_scope.md R7; log 13); the value 0 means "empty" or "none"
(10_state.md R30, R32, R33). -/
abbrev Handle := Nat

end Sys2Proof
end

