-- ==== Sys2Proof/Config.lean ====
section
/-! DEFINITION. What an implementation of SPI-XFER fixes (00_scope.md R7, R8), and the free values: the answers of an
unknown SPI core and memory port, which no rule gives (93_implementation_defined.md U6, U7).

The parameters the spec leaves OPEN are one plain structure, `Params`. The spec says a model takes them as an argument; the
machine carries them in the field `State.params`, which no step changes, so a statement over every state is a statement
for every value of the parameters. `Params.ri` is the reference instance RI (log 1). -/

namespace Sys2Proof

/-- REG_LAYOUT: the lowest bit of each field of CNTL0 and CNTL1 and of the STAT flags the block reads (30_encoding.md R100,
R101, R103). -/
structure RegLayout where
  shiftLen   : Nat
  msbOut     : Nat
  invertClk  : Nat
  outRising  : Nat
  clearFifo  : Nat
  inRising   : Nat
  enable     : Nat
  varWidth   : Nat
  cs         : Nat
  speed      : Nat
  msbIn      : Nat
  doneIe     : Nat
  txEmptyIe  : Nat
  busy       : Nat
  rxEmpty    : Nat
  deriving DecidableEq, Repr

/-- REG_LAYOUT RI (30_encoding.md R100, R101, R103). The spec takes these positions from general knowledge (93 G6 to G8). -/
def RegLayout.ri : RegLayout :=
  { shiftLen := 0, msbOut := 6, invertClk := 7, outRising := 8, clearFifo := 9, inRising := 10, enable := 11,
    varWidth := 14, cs := 17, speed := 20, msbIn := 1, doneIe := 6, txEmptyIe := 7, busy := 6, rxEmpty := 7 }

/-- The fields of CNTL0 with their widths (10_state.md R35, 30_encoding.md R100). -/
def RegLayout.cntl0Fields (l : RegLayout) : List (Nat × Nat) :=
  [(l.shiftLen, 6), (l.msbOut, 1), (l.invertClk, 1), (l.outRising, 1), (l.clearFifo, 1), (l.inRising, 1), (l.enable, 1),
   (l.varWidth, 1), (l.cs, 3), (l.speed, 12)]

/-- The fields of CNTL1 with their widths (10_state.md R35, 30_encoding.md R101). -/
def RegLayout.cntl1Fields (l : RegLayout) : List (Nat × Nat) :=
  [(l.msbIn, 1), (l.doneIe, 1), (l.txEmptyIe, 1)]

/-- Two fields (low bit, width) share no bit. -/
def fieldsApart (a b : Nat × Nat) : Bool :=
  decide (a.1 + a.2 ≤ b.1) || decide (b.1 + b.2 ≤ a.1)

/-- Every field of a register lies inside 32 bits and no two share a bit. -/
def fieldsFit : List (Nat × Nat) → Bool
  | [] => true
  | f :: fs => decide (f.1 + f.2 ≤ 32) && fs.all (fieldsApart f) && fieldsFit fs

/-- A layout lays every field of a register apart from the others and inside the word. -/
def RegLayout.valid (l : RegLayout) : Bool :=
  fieldsFit l.cntl0Fields && fieldsFit l.cntl1Fields && fieldsFit [(l.busy, 1), (l.rxEmpty, 1)]

/-- Where a bit of a TX word comes from, in a layout given bit by bit. -/
inductive BitSource where
  | zero
  | one
  /-- Bit i of the slot's value. -/
  | slot (i : Nat)
  deriving DecidableEq, Repr

/-- The words of one packing mode and group size, bit by bit: entry j of `tx` is the source of bit j of the TX word, entry i of
`rx` is the bit of the RX word that is bit i of the received slot value. -/
structure WordMap where
  tx : List BitSource
  rx : List Nat
  deriving DecidableEq, Repr

/-- WORD_LAYOUT, the map from a FIFO slot to a physical TX word, and from an RX word back to a slot (00_scope.md R7, decision
D9): the reference layout RI of 40_codecs.md R136 and R137, or any other placement of the slot's bits, one `WordMap` for each
packing mode and group size in the order FIXED_4 4; VARIABLE_3 1, 2, 3; FIXED_3_SHIFTED 3; VARIABLE_2_SHIFTED 1, 2 (log 14). -/
inductive WordLayout where
  | ri
  | placed (maps : List WordMap)
  deriving DecidableEq, Repr

/-- The slot lengths of the seven packing modes and group sizes, in the order of `WordLayout` (40_codecs.md R133). -/
def slotLengths : List Nat := [32, 8, 16, 24, 25, 9, 17]

/-- A map has a source for each bit of the TX word and a place for each of the n bits of the slot, all inside their words. -/
def WordMap.fits (m : WordMap) (n : Nat) : Bool :=
  decide (m.tx.length = 32) && decide (m.rx.length = n) && m.rx.all (fun j => decide (j < 32)) &&
  m.tx.all fun b =>
    match b with
    | .zero => true
    | .one => true
    | .slot i => decide (i < n)

/-- A word layout has one fitting map for each packing mode and group size. -/
def WordLayout.valid : WordLayout → Bool
  | .ri => true
  | .placed maps => decide (maps.length = slotLengths.length) && (maps.zip slotLengths).all fun x => x.1.fits x.2

/-- The three data-mode bits of one data mode (41_control_compiler.md R163). -/
structure ModeBits where
  invertClk : Bool
  outRising : Bool
  inRising  : Bool
  deriving DecidableEq, Repr

/-- The implementation parameters that 00_scope.md R7 leaves OPEN. -/
structure Params where
  /-- SYS_CLK_HZ. -/
  sysClkHz : Nat
  /-- CS_POLL_RETRIES. -/
  pollRetries : Nat
  /-- SHIFTED_DATA_MODES, the two data modes that need the shifted codecs. -/
  shiftedModes : List Nat
  /-- DATA_MODE_BITS, one row for each data mode 0 to 3. -/
  modeBits : List ModeBits
  /-- REG_LAYOUT. -/
  layout : RegLayout
  /-- WORD_LAYOUT. -/
  wordLayout : WordLayout
  /-- IRQ_MINE_BIT. -/
  irqMineBit : Nat
  /-- NUM_TARGET_SLOTS. -/
  numTargetSlots : Nat
  /-- ADDR_BITS. -/
  addrBits : Nat
  /-- HANDLE_BITS. -/
  handleBits : Nat
  deriving DecidableEq, Repr

/-- The reference instance RI of the open parameters (00_scope.md R7; DATA_MODE_BITS from 41_control_compiler.md R163). -/
def Params.ri : Params :=
  { sysClkHz := 250000000
    pollRetries := 10
    shiftedModes := [1, 3]
    modeBits := [⟨false, false, true⟩, ⟨false, true, false⟩, ⟨true, true, false⟩, ⟨true, false, true⟩]
    layout := RegLayout.ri
    wordLayout := WordLayout.ri
    irqMineBit := 1
    numTargetSlots := 4
    addrBits := 32
    handleBits := 32 }

/-- What 00_scope.md R7 asks of any choice of the open parameters: at least one poll (42_chip_select.md R191), two
different data modes out of four, one row of mode bits for each mode, bits inside the word, a slot count that TGT can name, and a handle that is not 0. -/
def Params.valid (p : Params) : Bool :=
  decide (0 < p.sysClkHz) && decide (1 ≤ p.pollRetries) && decide (p.shiftedModes.length = 2) && decide p.shiftedModes.Nodup &&
  p.shiftedModes.all (fun m => decide (m < 4)) && decide (p.modeBits.length = 4) && p.layout.valid && p.wordLayout.valid &&
  decide (p.irqMineBit < 32) && decide (1 ≤ p.numTargetSlots) && decide (p.numTargetSlots ≤ 16) && decide (1 ≤ p.handleBits)

namespace Config

/-- FIFO_DEPTH: word slots in each FIFO (00_scope.md R7). -/
def fifoDepth : Nat := 16

/-- DIV_MAX, the largest value of the 12-bit divisor field (00_scope.md R7). -/
def divMax : Nat := 4095

/-- MAX_CLK_HZ (00_scope.md R7, 41_control_compiler.md R172). -/
def maxClkHz : Nat := 20000000

/-- NUM_CS, the chip-select lines (00_scope.md R7). -/
def numCs : Nat := 3

/-- DATA_BITS, the one supported data bit length (00_scope.md R3, R7). -/
def dataBits : Nat := 8

/-- PLACEHOLDER_BYTE (00_scope.md R7, 40_codecs.md R134). -/
def placeholderByte : Byte := 0x00

/-- The largest LEN_BITS-wide count, 2^32 - 1 (00_scope.md R7, 43_transfer_state_machine.md R221 check 5). -/
def lenMax : Nat := 4294967295

/-- The spec's identity string of the block (00_scope.md R1, decision D1). -/
def identity : String := "SPI-XFER/sub002-v7"

/-- FREE VALUE: the n-th answer of an unknown core to a read of STAT (20_memory.md R66, 93 U6; log 5). -/
opaque freeStat : Nat → Word

/-- FREE VALUE: the n-th answer to a read of IRQSTAT (20_memory.md R66, 93 U6; log 5). -/
opaque freeIrqStat : Nat → Word

/-- FREE VALUE: the n-th word an unknown core's RX FIFO gives (20_memory.md R66, 93 U6; log 5). -/
opaque freeRxWord : Nat → Word

/-- FREE VALUE: the n-th answer of the memory port to MapChain (20_memory.md R63, 93 U7; log 5). -/
opaque freeMap : Nat → Bool

end Config

/-- MIN_CLK_HZ = 1 + floor(SYS_CLK_HZ / (2 * (4096 + 1))) (00_scope.md R7, 41_control_compiler.md R172). -/
def Params.minClkHz (p : Params) : Nat := 1 + p.sysClkHz / (2 * (4096 + 1))

/-- The size of the buffer address space, 2^ADDR_BITS bytes (20_memory.md R60). -/
def Params.addrSpace (p : Params) : Nat := 2 ^ p.addrBits

end Sys2Proof
end

