-- ==== Sys2Proof/Syntax.lean ====
section
/-! DEFINITION. The syntax of the request port: operand records, the eight commands and the four events
(30_encoding.md R90 to R97), one constructor of `Instr` for each row of spec/opcode_table.json. -/

namespace Sys2Proof

/-- One link of a buffer chain: an address, below 2^ADDR_BITS, and a length of LEN_BITS = 32 bits (10_state.md R26, 00_scope.md
R7; log 13). -/
structure Link where
  addr : Nat
  len  : BitVec 32
  deriving DecidableEq, Repr

/-- A buffer chain, a finite list of links (10_state.md R26). -/
abbrev Chain := List Link

/-- The direction of a sequence phase (30_encoding.md R93). -/
inductive Dir where
  | w
  | r
  deriving DecidableEq, Repr

/-- One phase of a SEQUENCE (30_encoding.md R93). -/
structure Phase where
  dir     : Dir
  chain   : Chain
  delayUs : BitVec 32
  deriving DecidableEq, Repr

/-- The wiring of a target descriptor (30_encoding.md R93). -/
inductive Wiring where
  | fourWire
  | threeWire
  deriving DecidableEq, Repr

/-- The target descriptor of CONNECT (30_encoding.md R93). `cpol`, `cpha` and `csLine` are unsigned numbers without a
width, because the checks of 41_control_compiler.md R171 name values outside their legal ranges (log 20). -/
structure Descriptor where
  clkHz        : BitVec 32
  bits         : BitVec 32
  cpol         : Nat
  cpha         : Nat
  csLine       : Nat
  slave        : Bool
  wiring       : Wiring
  csActiveHigh : Bool
  deriving DecidableEq, Repr

/-- The descriptor with every field zero, four-wire. -/
def Descriptor.zero : Descriptor :=
  { clkHz := 0, bits := 0, cpol := 0, cpha := 0, csLine := 0, slave := false, wiring := .fourWire, csActiveHigh := false }

/-- The operand record delivered beside a command word: one field for each operand a command can take (30_encoding.md R93);
a command reads only its own fields (log 11). -/
structure Operands where
  h      : Handle
  desc   : Descriptor
  wchain : Chain
  rchain : Chain
  phases : List Phase
  deriving DecidableEq, Repr

/-- The record of a command that takes a handle and nothing else. -/
def Operands.only (h : Handle) : Operands :=
  { h := h, desc := Descriptor.zero, wchain := [], rchain := [], phases := [] }

/-- What the outside world can offer to the block: a command word with its operand record, or an internal event under its
8-bit event code (30_encoding.md R90, R97). -/
inductive Input where
  | command (cmd : Word) (ops : Operands)
  | event (code : BitVec 8)
  deriving DecidableEq, Repr

/-- The commands and events of spec/opcode_table.json. `t` is the target slot index TGT, zero-extended (30_encoding.md
R105); `h` is the caller's handle; CANCEL carries the handle to cancel and a TGT that it ignores (R94 item 3). -/
inductive Instr where
  /-- CONNECT (41_control_compiler.md R170). -/
  | connect (t : Nat) (h : Handle) (d : Descriptor)
  /-- WRITE (43_transfer_state_machine.md R222). -/
  | write (t : Nat) (h : Handle) (w : Chain)
  /-- READ (43_transfer_state_machine.md R223). -/
  | read (t : Nat) (h : Handle) (r : Chain)
  /-- SEQUENCE (43_transfer_state_machine.md R224). -/
  | sequence (t : Nat) (h : Handle) (ps : List Phase)
  /-- FULL_DUPLEX (43_transfer_state_machine.md R225). -/
  | fullDuplex (t : Nat) (h : Handle) (w r : Chain)
  /-- LOCK (42_chip_select.md R200). -/
  | lock (t : Nat) (h : Handle)
  /-- UNLOCK (42_chip_select.md R201). -/
  | unlock (t : Nat) (h : Handle)
  /-- CANCEL (44_completion_cancel.md R280). -/
  | cancel (t : Nat) (hc : Handle)
  /-- RESET (70_reset_and_hazards.md R340). -/
  | reset
  /-- IRQ, the interrupt top half (43_transfer_state_machine.md R230). -/
  | irq
  /-- BH, the bottom half (44_completion_cancel.md R270). -/
  | bh
  /-- CANCEL_FINISH (44_completion_cancel.md R283). -/
  | cancelFinish
  deriving DecidableEq, Repr

/-- WRITEB t, a, n (30_encoding.md R99). -/
def Instr.writeB (t : Nat) (h : Handle) (a : Nat) (n : BitVec 32) : Instr := .write t h [⟨a, n⟩]

/-- READB t, a, n (30_encoding.md R99). -/
def Instr.readB (t : Nat) (h : Handle) (a : Nat) (n : BitVec 32) : Instr := .read t h [⟨a, n⟩]

/-- SEQ t, wchain, rchain (30_encoding.md R99). -/
def Instr.seq (t : Nat) (h : Handle) (w r : Chain) : Instr := .sequence t h [⟨.w, w, 0⟩, ⟨.r, r, 0⟩]

/-- FDX t, a, b, n (30_encoding.md R99). -/
def Instr.fdx (t : Nat) (h : Handle) (a b : Nat) (n : BitVec 32) : Instr := .fullDuplex t h [⟨a, n⟩] [⟨b, n⟩]

end Sys2Proof
end

