-- ==== Sys2Proof/WellFormed.lean ====
section
/-! DEFINITION. Which terms of `Instr` a command word can carry: TGT is the four-bit field CMD[7:4] (30_encoding.md R91). Every
other operand is taken whole from its record, whose types bound it. A TGT at or above NUM_TARGET_SLOTS is well formed: the
block answers it with INVALID_PARAMETER (R94 item 2). -/

namespace Sys2Proof

/-- The target index fits the field TGT (30_encoding.md R91). -/
abbrev targetFits (t : Nat) : Prop := t < 16

/-- The TGT a constructor carries; an event has no command word, so it puts nothing there. -/
def Instr.target : Instr → Nat
  | .connect t _ _ => t
  | .write t _ _ => t
  | .read t _ _ => t
  | .sequence t _ _ => t
  | .fullDuplex t _ _ _ => t
  | .lock t _ => t
  | .unlock t _ => t
  | .cancel t _ => t
  | .reset => 0
  | .irq => 0
  | .bh => 0
  | .cancelFinish => 0

/-- An instruction the encoder can lay out. -/
abbrev Instr.WellFormed (i : Instr) : Prop := targetFits i.target

end Sys2Proof
end

