-- ==== Sys2Proof/Decode.lean ====
section
/-! DEFINITION. Decoding of command words and event codes, total and rejecting by name, then the encoder
(30_encoding.md R91 to R97, R105). -/

namespace Sys2Proof

/-- OP, CMD[3:0] (30_encoding.md R91). -/
def opField (cmd : Word) : Nat := (cmd.extractLsb' 0 4).toNat

/-- TGT, CMD[7:4], zero-extended (30_encoding.md R91, R105). -/
def tgtField (cmd : Word) : Nat := (cmd.extractLsb' 4 4).toNat

/-- RSV, CMD[31:8] (30_encoding.md R91). -/
def rsvField (cmd : Word) : Nat := (cmd.extractLsb' 8 24).toNat

/-- The operation code of CANCEL (30_encoding.md R92). -/
def opCancel : Nat := 8

/-- Why a command word has no instruction (30_encoding.md R94 item 1). -/
inductive DecodeError where
  /-- OP is 0x0 or 0x9 .. 0xF. -/
  | reservedOp (op : Nat)
  /-- RSV is not 0. -/
  | reservedBits (rsv : Nat)
  deriving DecidableEq, Repr

/-- The instruction of an operation code, by the table of 30_encoding.md R92. -/
def decodeOp (op t : Nat) (o : Operands) : Except DecodeError Instr :=
  match op with
  | 1 => .ok (.connect t o.h o.desc)
  | 2 => .ok (.write t o.h o.wchain)
  | 3 => .ok (.read t o.h o.rchain)
  | 4 => .ok (.sequence t o.h o.phases)
  | 5 => .ok (.fullDuplex t o.h o.wchain o.rchain)
  | 6 => .ok (.lock t o.h)
  | 7 => .ok (.unlock t o.h)
  | 8 => .ok (.cancel t o.h)
  | n => .error (.reservedOp n)

/-- Decoding of a command word with its operand record (30_encoding.md R94). The range check of TGT (item 2) depends on
NUM_TARGET_SLOTS and is made when the command issues. -/
def decodeCommand (cmd : Word) (o : Operands) : Except DecodeError Instr :=
  if rsvField cmd ≠ 0 then .error (.reservedBits (rsvField cmd))
  else decodeOp (opField cmd) (tgtField cmd) o

/-- The event of an event code (30_encoding.md R97); no other code names an event. -/
def decodeEvent (code : BitVec 8) : Option Instr :=
  match code.toNat with
  | 0xF0 => some .reset
  | 0xF1 => some .irq
  | 0xF2 => some .bh
  | 0xF3 => some .cancelFinish
  | _ => none

/-- The instruction of an input, where it has one. -/
def decodeInput : Input → Option Instr
  | .command cmd o =>
    match decodeCommand cmd o with
    | .ok i => some i
    | .error _ => none
  | .event code => decodeEvent code

/-- The command word `OP | (TGT << 4)` (30_encoding.md R91, R98). -/
def commandWord (op t : Nat) : Word := BitVec.ofNat 32 op ||| (BitVec.ofNat 32 t <<< 4)

/-- The encoder: the port input of an instruction. -/
def encode : Instr → Input
  | .connect t h d => .command (commandWord 1 t) { Operands.only h with desc := d }
  | .write t h w => .command (commandWord 2 t) { Operands.only h with wchain := w }
  | .read t h r => .command (commandWord 3 t) { Operands.only h with rchain := r }
  | .sequence t h ps => .command (commandWord 4 t) { Operands.only h with phases := ps }
  | .fullDuplex t h w r => .command (commandWord 5 t) { Operands.only h with wchain := w, rchain := r }
  | .lock t h => .command (commandWord 6 t) (Operands.only h)
  | .unlock t h => .command (commandWord 7 t) (Operands.only h)
  | .cancel t hc => .command (commandWord 8 t) (Operands.only hc)
  | .reset => .event 0xF0
  | .irq => .event 0xF1
  | .bh => .event 0xF2
  | .cancelFinish => .event 0xF3

/-- The port input of a word numbered as spec/opcode_table.json numbers it: a 32-bit command word beside an operand record
of handle 1 and nothing else (log 12), or an 8-bit event code. -/
def tableInput (nbits w : Nat) : Option Input :=
  if nbits = 32 ∧ w < 4294967296 then some (.command (BitVec.ofNat 32 w) (Operands.only 1))
  else if nbits = 8 ∧ w < 256 then some (.event (BitVec.ofNat 8 w))
  else none

/-- The instruction the decoder reads from a table word. -/
def decodeTableWord (nbits w : Nat) : Option Instr :=
  match tableInput nbits w with
  | some x => decodeInput x
  | none => none

end Sys2Proof
end

