-- ==== Sys2Proof/Machine/State.lean ====
section
/-! DEFINITION. The state: the block state S of 10_state.md R20 (`Block`), and around it buffer memory, the port, the trace
and the core that answers the draws (`State`). All of it is plain data. -/

namespace Sys2Proof.Machine

/-- The transfer-state tag (10_state.md R22). -/
inductive XState where
  | invalid
  | write
  | read
  | sequenceWrite
  | sequenceReadInit
  | sequenceRead
  | fullDuplex
  deriving DecidableEq, Repr

/-- The numeric codes of the tag (10_state.md R22, decision D18). -/
def XState.code : XState → Nat
  | .invalid => 0
  | .write => 1
  | .read => 2
  | .sequenceWrite => 3
  | .sequenceReadInit => 4
  | .sequenceRead => 5
  | .fullDuplex => 6

/-- The packing mode (10_state.md R23). -/
inductive PMode where
  | fixed4
  | variable3
  | fixed3Shifted
  | variable2Shifted
  deriving DecidableEq, Repr

/-- The numeric codes of the packing mode (10_state.md R23, decision D18). -/
def PMode.code : PMode → Nat
  | .fixed4 => 0
  | .variable3 => 1
  | .fixed3Shifted => 2
  | .variable2Shifted => 3

/-- The block's record of the chip-select line (10_state.md R36). -/
inductive CsState where
  | released
  | asserted
  | releasing
  deriving DecidableEq, Repr

/-- The numeric codes of the chip-select record (10_state.md R36). -/
def CsState.code : CsState → Nat
  | .released => 0
  | .asserted => 1
  | .releasing => 2

/-- A target configuration (10_state.md R21). -/
structure TargetConfig where
  clkHz  : BitVec 32
  mode   : Nat
  csLine : Nat
  bits   : Nat
  deriving DecidableEq, Repr

/-- A cursor: a chain, the index of the current link and the offset within it (10_state.md R26). -/
structure Cursor where
  chain : Chain
  link  : Nat
  off   : Nat
  deriving DecidableEq, Repr

/-- A fresh cursor (10_state.md R26). -/
def Cursor.fresh (c : Chain) : Cursor := { chain := c, link := 0, off := 0 }

/-- Status codes of a completion record (60_exceptions.md R300). -/
inductive Status where
  | success
  | invalidParameter
  | notSupported
  | invalidDeviceRequest
  | insufficientResources
  | cancelled
  | invalidDeviceState
  | invalidCommand
  deriving DecidableEq, Repr

/-- The numeric values of the status codes (60_exceptions.md R300). -/
def Status.code : Status → Nat
  | .success => 0
  | .invalidParameter => 1
  | .notSupported => 2
  | .invalidDeviceRequest => 3
  | .insufficientResources => 4
  | .cancelled => 5
  | .invalidDeviceState => 6
  | .invalidCommand => 7

/-- A completion record (10_state.md R41). `info` is the caller-visible byte count of 44_completion_cancel.md R272. -/
structure Completion where
  h      : Handle
  status : Status
  info   : Nat
  wr     : Nat
  rd     : Nat
  deriving DecidableEq, Repr

/-- The registers of the core port (20_memory.md R66). -/
inductive CoreReg where
  | cntl0
  | cntl1
  | stat
  | fifoIo
  | fifoHold
  | irqstat
  deriving DecidableEq, Repr

/-- The events of a trace (10_state.md R41, 00_scope.md R11). `claim true` is Claim(MINE). -/
inductive Event where
  | memRead (addr : Nat) (v : Byte)
  | memWrite (addr : Nat) (v : Byte)
  | regWrite (r : CoreReg) (v : Word)
  | regRead (r : CoreReg) (v : Word)
  | mapChain (c : Chain) (ok : Bool)
  | stall (n : Nat)
  | complete (c : Completion)
  | claim (mine : Bool)
  deriving DecidableEq, Repr

/-- The reasons the block records in S.fault, with the information each records (60_exceptions.md R305). -/
inductive FaultReason where
  /-- HostProtocol(ZERO_HANDLE): a command other than CANCEL with h = 0 (30_encoding.md R95). -/
  | zeroHandle (cmd : Word)
  /-- HostProtocol(BUSY): a transfer, LOCK or UNLOCK while a request is live (30_encoding.md R96). -/
  | busy (cmd : Word) (h : Handle)
  /-- CountMismatch: the bottom half's counts differ from the totals (44_completion_cancel.md R273). -/
  | countMismatch (x : XState) (wrDone wrTotal rdDone rdTotal : Nat)
  deriving DecidableEq, Repr

/-- Why the machine stops. A raised fault of the block is not one of these: it is a next state with `fault` set. -/
inductive Fault where
  /-- Raised by `exec` of anything but RESET, and by `step` when no RESET is offered, in a block whose `fault` is set: no step
  but RESET is enabled, the block is stuck (10_state.md R38, 60_exceptions.md R305, R306). Safe: the machine has no step there. -/
  | stuck (why : FaultReason)
  /-- Raised by a cursor walk that leaves the buffer address space of 2^ADDR_BITS bytes (20_memory.md R60, R64; ADDR_BITS is a parameter). Safe: a mapped
  link lies inside the space, so no run reaches it (log 8, log 9). -/
  | noSuchAddress (addr : Nat)
  deriving DecidableEq, Repr

/-- Why `exec` has no meaning for an input in a state. -/
inductive Refusal where
  /-- Raised by an arm of `exec` that has no meaning yet. Safe. -/
  | notModelled (mnemonic : String)
  /-- Raised by `exec` of a transfer, LOCK or UNLOCK while a stale bottom half is pending: the command is held, it has no step
  (30_encoding.md R96). `step` never runs a held command, it leaves it on the port. Safe. -/
  | held
  /-- Raised by `exec` of a BH or CANCEL_FINISH that is not enabled (30_encoding.md R97). `step` never runs one. Safe. -/
  | notEnabled
  /-- Raised by a cursor walk past the end of its chain: "A model refuses a call that breaks this; the block never makes one"
  (20_memory.md R64). Safe. -/
  | chainOverrun
  /-- Raised by a BH whose take succeeds in a tag that 44_completion_cancel.md R272 gives no counts for; no run reaches it. Safe
  (log 9). -/
  | noCounts
  /-- Raised by ReadInit when the target slot of the live request is EMPTY; an entry is never cleared (10_state.md R21), so no
  run reaches it. Safe (log 9). -/
  | emptyTarget
  deriving DecidableEq, Repr

/-- The block state S, with exactly the fields of 10_state.md R20. -/
structure Block where
  /-- R21: the target slot table; `none` is EMPTY. -/
  targets    : List (Option TargetConfig)
  /-- R22. -/
  xstate     : XState
  /-- R23. -/
  pmode      : PMode
  /-- R28. -/
  tgt        : Nat
  /-- R24, R26. -/
  wr         : Cursor
  /-- R27. -/
  wrTotal    : Nat
  /-- R27. -/
  wrDone     : Nat
  /-- R24, R26. -/
  rd         : Cursor
  /-- R27. -/
  rdTotal    : Nat
  /-- R27. -/
  rdDone     : Nat
  /-- R29. -/
  inflight   : List Nat
  /-- R30. -/
  slot       : Handle
  /-- R31. -/
  cancelable : Bool
  /-- R32. -/
  cancelFor  : Handle
  /-- R33. -/
  bhFor      : Handle
  /-- R34, R35: the transfer-shape word. -/
  shadow0    : Word
  /-- R34, R35: the interrupt-enable word. -/
  shadow1    : Word
  /-- R36. -/
  cs         : CsState
  /-- R37. -/
  locked     : Bool
  /-- R37. -/
  lockTgt    : Nat
  /-- R38. -/
  fault      : Option FaultReason
  deriving DecidableEq, Repr

/-- The reset table of 10_state.md R43 for a table of `slots` targets; `w0` is the word with CLEAR_FIFO = 1 and every other
field 0. -/
def Block.reset (slots : Nat) (w0 : Word) : Block :=
  { targets := List.replicate slots none
    xstate := .invalid
    pmode := .fixed4
    tgt := 0
    wr := Cursor.fresh []
    wrTotal := 0
    wrDone := 0
    rd := Cursor.fresh []
    rdTotal := 0
    rdDone := 0
    inflight := []
    slot := 0
    cancelable := false
    cancelFor := 0
    bhFor := 0
    shadow0 := w0
    shadow1 := 0
    cs := .released
    locked := false
    lockTgt := 0
    fault := none }

/-- Buffer memory: the bytes that differ from what an unlisted address reads as, by strictly rising address (20_memory.md
R60). -/
abbrev Memory := List Host.Cell

/-- The reference core of 95_test_vectors.md section 0.2 (RE), a deterministic core that keeps the contract of 20_memory.md R67:
the control words last written, the RX FIFO, the MISO bytes still to come, for how many more STAT reads the core is busy,
the IRQSTAT bits of other sub-peripherals, whether the newest RX word is still hidden, and the next answers to MapChain (OK
once the list is empty). -/
structure RefCore where
  cntl0      : Word
  cntl1      : Word
  rx         : List Word
  miso       : List Byte
  busyReads  : Nat
  others     : Word
  hidden     : Bool
  mapAnswers : List Bool
  deriving DecidableEq, Repr

/-- The machine: the block and what it is connected to. -/
structure State where
  /-- The implementation parameters (00_scope.md R7); no step changes them (log 1). -/
  params : Params
  /-- The block state S (10_state.md R20). -/
  block  : Block
  /-- Buffer memory (20_memory.md R60). DESIGN CHOICE: along a run it changes only by the block's own MemWrite; the spec lets the
  host and memory change it beside a step and between steps (00_scope.md R12, 20_memory.md R61, 60_exceptions.md R330, 93 U17;
  log 21). -/
  mem    : Memory
  /-- Who answers the draws: an unknown core (`none`, free values) or the reference core (log 5, log 6). -/
  core   : Option RefCore
  /-- How many free answers have been drawn (log 5). -/
  draws  : Nat
  /-- The commands and events the host and the platform offer, in their order (log 2). -/
  port   : List Input
  /-- The events emitted so far, oldest first (10_state.md R41; log 10). -/
  trace  : List Event
  deriving DecidableEq, Repr

/-- The machine right after RESET, at the reference instance: the table of 10_state.md R43, the trace of RESET
(70_reset_and_hazards.md R340), nothing in memory and nothing offered. -/
def State.reset : State :=
  { params := Params.ri
    block := Block.reset 4 0x00000200
    mem := []
    core := none
    draws := 0
    port := []
    trace := [.regWrite .cntl1 0x00000000, .regWrite .cntl0 0x00000200] }

/-- What a part of a step answers: a value, or one of the two ways to stop. -/
abbrev Res (α : Type) := Host.Outcome α Fault Refusal

end Sys2Proof.Machine
end

