-- ==== Sys2Proof/Machine/Memory.lean ====
section
/-! DEFINITION. Buffer memory (20_memory.md R60): one byte read, one byte written, in the canonical form. -/

namespace Sys2Proof.Machine

/-- What an address with no entry reads as: 0x00 (log 7). -/
def unlistedByte : Byte := 0x00

namespace Memory

/-- The byte at an address. -/
def read (m : Memory) (a : Nat) : Byte :=
  match m with
  | [] => unlistedByte
  | c :: cs => if c.1 = a then c.2 else Memory.read cs a

/-- Puts a byte into rising order, before any entry of a higher address. -/
def insert (m : Memory) (a : Nat) (v : Byte) : Memory :=
  match m with
  | [] => [(a, v)]
  | c :: cs =>
    if a < c.1 then (a, v) :: c :: cs
    else if a = c.1 then (a, v) :: cs
    else c :: Memory.insert cs a v

/-- Takes the entry of an address out. -/
def erase (m : Memory) (a : Nat) : Memory :=
  match m with
  | [] => []
  | c :: cs => if c.1 = a then cs else c :: Memory.erase cs a

/-- Writes one byte: the value an unlisted address reads as removes the entry. -/
def write (m : Memory) (a : Nat) (v : Byte) : Memory :=
  if v = unlistedByte then Memory.erase m a else Memory.insert m a v

/-- Addresses strictly rise, and every one is at or above `lo`. -/
def risingFrom (lo : Nat) : Memory → Bool
  | [] => true
  | c :: cs => decide (lo ≤ c.1) && risingFrom (c.1 + 1) cs

/-- The canonical form: addresses strictly rising, no entry equal to what an unlisted address reads as. -/
def wf (m : Memory) : Bool :=
  risingFrom 0 m && m.all (fun c => decide (c.2 ≠ unlistedByte))

/-- Every entry lies inside an address space of `space` bytes (20_memory.md R60). -/
def within (space : Nat) (m : Memory) : Bool := m.all (fun c => decide (c.1 < space))

end Memory

end Sys2Proof.Machine
end

