-- ==== Sys2Proof/Machine/Flags.lean ====
section
/-! DEFINITION. The control words and the status bits: the control-register compiler (41_control_compiler.md R160 to R166),
packing into CNTL0 and CNTL1 (30_encoding.md R100, R101), and the bits read from STAT and IRQSTAT (R103). -/

namespace Sys2Proof.Machine

/-- A field of `width` bits at bit `lo` (00_scope.md R9). -/
def getField (w : Word) (lo width : Nat) : Nat := (w.toNat >>> lo) % 2 ^ width

/-- The mask with ones in `width` bits from bit `lo`. -/
def fieldMask (lo width : Nat) : Word := BitVec.ofNat 32 ((2 ^ width - 1) <<< lo)

/-- The word with a field set to 0 and the others kept. -/
def clearField (w : Word) (lo width : Nat) : Word := w &&& ~~~(fieldMask lo width)

/-- The word with a bit set to 1 and the others kept. -/
def setBit (w : Word) (i : Nat) : Word := w ||| fieldMask i 1

/-- A flag as a number. -/
def flag (b : Bool) : Nat := if b then 1 else 0

/-- The fields of the transfer-shape word (10_state.md R35). -/
structure Shape where
  shiftLen  : Nat
  msbOut    : Bool
  invertClk : Bool
  outRising : Bool
  clearFifo : Bool
  inRising  : Bool
  enable    : Bool
  varWidth  : Bool
  cs        : Nat
  speed     : Nat
  deriving DecidableEq, Repr

/-- The fields of the interrupt-enable word (10_state.md R35). -/
structure IntEnable where
  doneIe    : Bool
  txEmptyIe : Bool
  msbIn     : Bool
  deriving DecidableEq, Repr

/-- Pack0 (30_encoding.md R100). -/
def pack0 (l : RegLayout) (f : Shape) : Word :=
  BitVec.ofNat 32
    (f.shiftLen <<< l.shiftLen ||| flag f.msbOut <<< l.msbOut ||| flag f.invertClk <<< l.invertClk |||
      flag f.outRising <<< l.outRising ||| flag f.clearFifo <<< l.clearFifo ||| flag f.inRising <<< l.inRising |||
      flag f.enable <<< l.enable ||| flag f.varWidth <<< l.varWidth ||| f.cs <<< l.cs ||| f.speed <<< l.speed)

/-- Pack1 (30_encoding.md R101). -/
def pack1 (l : RegLayout) (f : IntEnable) : Word :=
  BitVec.ofNat 32 (flag f.msbIn <<< l.msbIn ||| flag f.doneIe <<< l.doneIe ||| flag f.txEmptyIe <<< l.txEmptyIe)

/-- The clock divisor Div(f) = clamp(ceil(SYS_CLK_HZ / (2 f)) - 1, 0, DIV_MAX) (41_control_compiler.md R162). -/
def clockDiv (sysClkHz f : Nat) : Nat :=
  min Config.divMax ((sysClkHz + (2 * f - 1)) / (2 * f) - 1)

/-- CSPAT(l) = 0b111 ^ (1 << l) (41_control_compiler.md R164). -/
def csPattern (line : Nat) : Nat := 0b111 ^^^ (1 <<< line)

/-- DATA_MODE_BITS(mode) (41_control_compiler.md R163); a mode without a row has all bits 0, which no target has. -/
def dataModeBits (p : Params) (mode : Nat) : ModeBits :=
  (p.modeBits[mode]?).getD ⟨false, false, false⟩

/-- VAR_WIDTH of a packing mode (41_control_compiler.md R161). -/
def pmodeVarWidth : PMode → Bool
  | .fixed4 => false
  | .variable3 => true
  | .fixed3Shifted => false
  | .variable2Shifted => true

/-- SHIFT_LEN of a packing mode (41_control_compiler.md R161). -/
def pmodeShiftLen : PMode → Nat
  | .fixed4 => 32
  | .variable3 => 0
  | .fixed3Shifted => 25
  | .variable2Shifted => 0

/-- The transfer-shape record of Compile(tc, pm) (41_control_compiler.md R160, R161). -/
def compileShape (p : Params) (tc : TargetConfig) (pm : PMode) : Shape :=
  { shiftLen := pmodeShiftLen pm
    msbOut := true
    invertClk := (dataModeBits p tc.mode).invertClk
    outRising := (dataModeBits p tc.mode).outRising
    clearFifo := false
    inRising := (dataModeBits p tc.mode).inRising
    enable := true
    varWidth := pmodeVarWidth pm
    cs := csPattern tc.csLine
    speed := clockDiv p.sysClkHz tc.clkHz.toNat }

/-- The interrupt-enable record of Compile(tc, pm), the same for every tc and pm (41_control_compiler.md R161). -/
def compileIe : IntEnable := { doneIe := false, txEmptyIe := false, msbIn := true }

/-- Compile(tc, pm) (41_control_compiler.md R160). -/
def compile (p : Params) (tc : TargetConfig) (pm : PMode) : Shape × IntEnable := (compileShape p tc pm, compileIe)

/-- Img0(tc, pm) (41_control_compiler.md R165). -/
def img0 (p : Params) (tc : TargetConfig) (pm : PMode) : Word := pack0 p.layout (compile p tc pm).1

/-- IE_OFF (41_control_compiler.md R165). -/
def ieOff (p : Params) : Word := pack1 p.layout compileIe

/-- IE_ON = IE_OFF | DONE_IE (41_control_compiler.md R165). -/
def ieOn (p : Params) : Word := setBit (ieOff p) p.layout.doneIe

/-- ZeroWidth(v): SHIFT_LEN and CLEAR_FIFO set to 0 (41_control_compiler.md R166). -/
def zeroWidth (l : RegLayout) (v : Word) : Word := clearField (clearField v l.shiftLen 6) l.clearFifo 1

/-- FifoReset(v): CLEAR_FIFO set to 1 (41_control_compiler.md R166). -/
def fifoReset (l : RegLayout) (v : Word) : Word := setBit v l.clearFifo

/-- The transfer-shape word of RESET: CLEAR_FIFO = 1, every other field 0 (70_reset_and_hazards.md R340). -/
def resetShape (l : RegLayout) : Word :=
  pack0 l { shiftLen := 0, msbOut := false, invertClk := false, outRising := false, clearFifo := true, inRising := false,
            enable := false, varWidth := false, cs := 0, speed := 0 }

/-- CLEAR_FIFO of a transfer-shape word. -/
def clearFifoOf (l : RegLayout) (w : Word) : Bool := w.getLsbD l.clearFifo

/-- DONE_IE of an interrupt-enable word. -/
def doneIeOf (l : RegLayout) (w : Word) : Bool := w.getLsbD l.doneIe

/-- VAR_WIDTH of a transfer-shape word. -/
def varWidthOf (l : RegLayout) (w : Word) : Bool := w.getLsbD l.varWidth

/-- SHIFT_LEN of a transfer-shape word. -/
def shiftLenOf (l : RegLayout) (w : Word) : Nat := getField w l.shiftLen 6

/-- STAT.BUSY (30_encoding.md R103). -/
def busyOf (l : RegLayout) (w : Word) : Bool := w.getLsbD l.busy

/-- STAT.RX_EMPTY (30_encoding.md R103). -/
def rxEmptyOf (l : RegLayout) (w : Word) : Bool := w.getLsbD l.rxEmpty

/-- IRQSTAT[IRQ_MINE_BIT] (30_encoding.md R103). -/
def mineOf (p : Params) (w : Word) : Bool := w.getLsbD p.irqMineBit

/-- The serial length of a FIFO word: SHIFT_LEN when VAR_WIDTH = 0, the word's WIDTH field 28:24 when VAR_WIDTH = 1
(30_encoding.md R104, R107), as a core of WORD_LAYOUT RI reads it. -/
def serialBits (l : RegLayout) (shape word : Word) : Nat :=
  if varWidthOf l shape then getField word 24 5 else shiftLenOf l shape

/-- The RI offset of a core register from the core's base; IRQSTAT is at offset 0x00 of the enclosing block (20_memory.md R68). -/
def CoreReg.riOffset : CoreReg → Nat
  | .cntl0 => 0x00
  | .cntl1 => 0x04
  | .stat => 0x08
  | .fifoIo => 0x20
  | .fifoHold => 0x30
  | .irqstat => 0x00

end Sys2Proof.Machine
end

