-- ==== Sys2Proof/Machine/Operands.lean ====
section
/-! DEFINITION. The operand forms: buffer chains and cursors (20_memory.md R64, 43_transfer_state_machine.md R227), the
packing-mode selector and the codecs at slot and word level (40_codecs.md R130 to R137), and the transfer operands with the
checks that read only them (43_transfer_state_machine.md R221). -/

namespace Sys2Proof.Machine

/-- One part of a step after another: the second runs on what the first gives, and a stop stops both. -/
def andThen {α β : Type} (x : Res α) (f : α → Res β) : Res β :=
  match x with
  | .next a => f a
  | .fault r => .fault r
  | .refused r => .refused r

/-! ### Chains and cursors -/

/-- Total(chain), an unbounded natural number (43_transfer_state_machine.md R227). -/
def total (c : Chain) : Nat := (c.map (fun l => l.len.toNat)).sum

/-- Every link lies inside a buffer address space of `space` bytes (20_memory.md R64; log 8). -/
def chainFits (space : Nat) (c : Chain) : Bool := c.all (fun l => decide (l.addr + l.len.toNat ≤ space))

/-- Skips exhausted and zero-length links (20_memory.md R64): the link the next byte lies in and the cursor moved to it. The
first argument is the part of the chain from the cursor's link on. -/
def seekFrom : List Link → Cursor → Option (Link × Cursor)
  | [], _ => none
  | l :: ls, cur =>
    if cur.off = l.len.toNat then seekFrom ls { cur with link := cur.link + 1, off := 0 } else some (l, cur)

/-- The link the next byte lies in, if the chain holds one more byte. -/
def Cursor.seek (cur : Cursor) : Option (Link × Cursor) := seekFrom (cur.chain.drop cur.link) cur

/-- The walk that CopyOut and CopyIn share (20_memory.md R64): the addresses of the next n bytes, in order, and the cursor
after them, in an address space of `space` bytes. -/
def Cursor.walk (space : Nat) : Nat → Cursor → Res (List Nat × Cursor)
  | 0, cur => .next ([], cur)
  | n + 1, cur =>
    match cur.seek with
    | none => .refused .chainOverrun
    | some (l, cur') =>
      if space ≤ l.addr + cur'.off then .fault (.noSuchAddress (l.addr + cur'.off))
      else andThen (Cursor.walk space n { cur' with off := cur'.off + 1 }) fun r =>
        .next ((l.addr + cur'.off) :: r.1, r.2)

/-- The bytes from a cursor to the end of its chain. -/
def Cursor.remaining (cur : Cursor) : Nat := total (cur.chain.drop cur.link) - cur.off

/-! ### Packing modes and groups -/

/-- BPW, bytes per FIFO word (00_scope.md R8, 40_codecs.md R131). -/
def bpw : PMode → Nat
  | .fixed4 => 4
  | .variable3 => 3
  | .fixed3Shifted => 3
  | .variable2Shifted => 2

/-- CAP, bytes per chunk (00_scope.md R8, 40_codecs.md R131). -/
def cap (pm : PMode) : Nat := bpw pm * Config.fifoDepth

/-- FIXED(pm) (40_codecs.md R131). -/
def isFixed : PMode → Bool
  | .fixed4 => true
  | .variable3 => false
  | .fixed3Shifted => true
  | .variable2Shifted => false

/-- SHIFTED(pm) (40_codecs.md R131). -/
def isShifted : PMode → Bool
  | .fixed4 => false
  | .variable3 => false
  | .fixed3Shifted => true
  | .variable2Shifted => true

/-- SelectMode(mode, len) (40_codecs.md R130). -/
def selectMode (p : Params) (mode len : Nat) : PMode :=
  if mode ∈ p.shiftedModes then
    if len % 3 = 0 then .fixed3Shifted else .variable2Shifted
  else
    if len % 4 = 0 then .fixed4 else .variable3

/-- Groups(pm, n) (40_codecs.md R132). -/
def groups (pm : PMode) (n : Nat) : List Nat :=
  List.replicate (n / bpw pm) (bpw pm) ++ (if n % bpw pm = 0 then [] else [n % bpw pm])

/-! ### Slots and words -/

/-- The payload of one FIFO word at the serial level (40_codecs.md R133). -/
structure Slot where
  nbits : Nat
  value : Word
  deriving DecidableEq, Repr

/-- V, the bytes as one big-endian number (40_codecs.md R133). -/
def bigEndian (bs : List Byte) : Word := bs.foldl (fun v b => v <<< 8 ||| b.setWidth 32) 0

/-- NBITS(pm, k) (40_codecs.md R133, R135). -/
def nbitsOf (pm : PMode) (k : Nat) : Nat :=
  match pm with
  | .fixed4 => 32
  | .variable3 => 8 * k
  | .fixed3Shifted => 25
  | .variable2Shifted => 8 * k + 1

/-- The group sizes that may be formed in a packing mode, the column "k allowed" of 40_codecs.md R133. -/
def groupAllowed (pm : PMode) (k : Nat) : Bool :=
  match pm with
  | .fixed4 => k == 4
  | .variable3 => decide (1 ≤ k) && decide (k ≤ 3)
  | .fixed3Shifted => k == 3
  | .variable2Shifted => decide (1 ≤ k) && decide (k ≤ 2)

/-- Slot(pm, b) (40_codecs.md R133). -/
def slotOf (pm : PMode) (bs : List Byte) : Slot :=
  { nbits := nbitsOf pm bs.length
    value := if isShifted pm then bigEndian bs <<< 1 else bigEndian bs }

/-- Placeholder(pm, k) (40_codecs.md R134). -/
def placeholder (pm : PMode) (k : Nat) : Slot := slotOf pm (List.replicate k Config.placeholderByte)

/-- Unslot(pm, k, value) (40_codecs.md R135): byte j is U[8(k-j)-1 : 8(k-1-j)]. -/
def unslot (pm : PMode) (k : Nat) (value : Word) : List Byte :=
  (List.range k).map fun j => ((if isShifted pm then value >>> 1 else value) >>> (8 * (k - 1 - j))).setWidth 8

/-- The number whose bits, from bit 0 up, are those of a list. -/
def bitsValue : List Bool → Nat
  | [] => 0
  | b :: bs => b.toNat + 2 * bitsValue bs

/-- The place of a packing mode and group size in the order of `WordLayout`. -/
def wordMapIndex (pm : PMode) (k : Nat) : Nat :=
  match pm with
  | .fixed4 => 0
  | .variable3 => k
  | .fixed3Shifted => 4
  | .variable2Shifted => 4 + k

/-- The map of a packing mode and group size. -/
def wordMapOf (maps : List WordMap) (pm : PMode) (k : Nat) : WordMap := maps.getD (wordMapIndex pm k) ⟨[], []⟩

/-- A bit of a TX word, from its source. -/
def sourceBit (value : Word) : BitSource → Bool
  | .zero => false
  | .one => true
  | .slot i => value.getLsbD i

/-- TxWord(pm, slot) (40_codecs.md R136, 30_encoding.md R104): the formula of WORD_LAYOUT RI, or the placement of another layout.
The group of a slot has nbits / 8 bytes (R133). -/
def txWord (l : WordLayout) (pm : PMode) (s : Slot) : Word :=
  match l with
  | .ri => if isFixed pm then s.value else (BitVec.ofNat 32 s.nbits <<< 24) ||| (s.value <<< (24 - s.nbits))
  | .placed maps => BitVec.ofNat 32 (bitsValue ((wordMapOf maps pm (s.nbits / 8)).tx.map (sourceBit s.value)))

/-- RxSlot(pm, k, w) (40_codecs.md R137): w[NBITS-1 : 0] under WORD_LAYOUT RI, or the placement of another layout. -/
def rxSlot (l : WordLayout) (pm : PMode) (k : Nat) (w : Word) : Word :=
  match l with
  | .ri => w &&& BitVec.ofNat 32 (2 ^ nbitsOf pm k - 1)
  | .placed maps => BitVec.ofNat 32 (bitsValue ((wordMapOf maps pm k).rx.map w.getLsbD))

/-! ### Transfer operands -/

/-- What a transfer command asks for. -/
inductive Transfer where
  | write (w : Chain)
  | read (r : Chain)
  | sequence (ps : List Phase)
  | fullDuplex (w r : Chain)
  deriving DecidableEq, Repr

/-- The write chain, the read chain and the inter-phase delay of a phase list of the one admitted shape, W then R
(43_transfer_state_machine.md R221 check 3, R224). -/
def sequenceParts : List Phase → Option (Chain × Chain × BitVec 32)
  | [⟨.w, wc, d⟩, ⟨.r, rc, _⟩] => some (wc, rc, d)
  | _ => none

/-- The chains of a command, write chain first (43_transfer_state_machine.md R221 checks 5, 7, 8). -/
def Transfer.chains : Transfer → List Chain
  | .write w => [w]
  | .read r => [r]
  | .sequence ps =>
    match sequenceParts ps with
    | some (w, r, _) => [w, r]
    | none => []
  | .fullDuplex w r => [w, r]

/-- The write chain; a direction the command does not have gets the empty chain (43_transfer_state_machine.md R226). -/
def Transfer.wchain : Transfer → Chain
  | .write w => w
  | .read _ => []
  | .sequence ps =>
    match sequenceParts ps with
    | some (w, _, _) => w
    | none => []
  | .fullDuplex w _ => w

/-- The read chain; a direction the command does not have gets the empty chain (43_transfer_state_machine.md R226). -/
def Transfer.rchain : Transfer → Chain
  | .write _ => []
  | .read r => r
  | .sequence ps =>
    match sequenceParts ps with
    | some (_, r, _) => r
    | none => []
  | .fullDuplex _ r => r

/-- L1, the length of the first phase (43_transfer_state_machine.md R226). -/
def Transfer.firstLength : Transfer → Nat
  | .write w => total w
  | .read r => total r
  | .sequence ps => total (Transfer.sequence ps).wchain
  | .fullDuplex w _ => total w

/-- The first state of the request (43_transfer_state_machine.md R220, R239). -/
def Transfer.firstState : Transfer → XState
  | .write _ => .write
  | .read _ => .read
  | .sequence ps => if total (Transfer.sequence ps).wchain = 1 then .sequenceReadInit else .sequenceWrite
  | .fullDuplex _ _ => .fullDuplex

/-- Check 3 of 43_transfer_state_machine.md R221 fails: not exactly one W phase and then one R phase. -/
def Transfer.malformed : Transfer → Bool
  | .sequence ps => (sequenceParts ps).isNone
  | _ => false

/-- Check 4 of 43_transfer_state_machine.md R221 fails: the first phase has a delay. -/
def Transfer.delayed : Transfer → Bool
  | .sequence ps =>
    match sequenceParts ps with
    | some (_, _, d) => decide (d ≠ 0)
    | none => false
  | _ => false

/-- Check 6 of 43_transfer_state_machine.md R221 fails: full-duplex chains of unequal totals. -/
def Transfer.unequal : Transfer → Bool
  | .fullDuplex w r => decide (total w ≠ total r)
  | _ => false

/-- The code of the first failing check of a list in order. -/
def firstFailing : List (Bool × Status) → Option Status
  | [] => none
  | c :: cs => if c.1 then some c.2 else firstFailing cs

/-- ConnectCheck(d): the checks of 41_control_compiler.md R171 in their order. -/
def connectChecks (p : Params) (d : Descriptor) : List (Bool × Status) :=
  [(d.slave, .notSupported),
   (decide (d.wiring ≠ .fourWire), .notSupported),
   (d.csActiveHigh, .notSupported),
   (decide (Config.numCs ≤ d.csLine), .notSupported),
   (decide (1 < d.cpol) || decide (1 < d.cpha), .invalidParameter),
   (decide (d.bits.toNat ≠ Config.dataBits), .notSupported),
   (decide (d.clkHz.toNat < p.minClkHz) || decide (Config.maxClkHz < d.clkHz.toNat), .notSupported)]

/-- ConnectCheck(d) (41_control_compiler.md R171): `none` is SUCCESS. -/
def connectCheck (p : Params) (d : Descriptor) : Option Status := firstFailing (connectChecks p d)

/-- The configuration CONNECT installs: mode = 2 cpol + cpha (10_state.md R25, 41_control_compiler.md R170). -/
def targetOf (d : Descriptor) : TargetConfig :=
  { clkHz := d.clkHz, mode := 2 * d.cpol + d.cpha, csLine := d.csLine, bits := Config.dataBits }

end Sys2Proof.Machine
end

