-- ==== Sys2Proof/Machine/RefCore.lean ====
section
/-! DEFINITION. The reference core RE of 95_test_vectors.md section 0.2, a deterministic core that keeps the contract of
20_memory.md R67, under WORD_LAYOUT RI (log 6). It is an environment for test vectors, not a claim about hardware. -/

namespace Sys2Proof.Machine

/-- RE before anything is written to it: disabled, FIFOs held in reset, not busy, every MapChain answered OK. -/
def RefCore.start (miso : List Byte) : RefCore :=
  { cntl0 := 0x00000200, cntl1 := 0, rx := [], miso := miso, busyReads := 0, others := 0, hidden := false, mapAnswers := [] }

/-- The next k bytes of the MISO queue, 0x00 once it is empty. -/
def misoBytes (miso : List Byte) (k : Nat) : List Byte := (List.range k).map fun j => (miso[j]?).getD 0

/-- The RX word RE gives for a word of serial width `width`: 0 for width 0, else the right-aligned slot value of
floor(width / 8) MISO bytes, with the pad bit of the shifted formats when the width is 8k + 1. -/
def misoWord (miso : List Byte) (width : Nat) : Word :=
  if width % 8 = 0 then bigEndian (misoBytes miso (width / 8)) else bigEndian (misoBytes miso (width / 8)) <<< 1

/-- A push through FIFO_HOLD or FIFO_IO: discarded while CLEAR_FIFO = 1, else one RX word in push order. -/
def RefCore.push (l : RegLayout) (word : Word) (c : RefCore) : RefCore :=
  if clearFifoOf l c.cntl0 then c
  else
    { c with rx := c.rx ++ [misoWord c.miso (serialBits l c.cntl0 word)]
             miso := c.miso.drop (serialBits l c.cntl0 word / 8) }

/-- What a register write does to RE. The block never writes STAT or IRQSTAT. -/
def RefCore.write (l : RegLayout) (r : CoreReg) (v : Word) (c : RefCore) : RefCore :=
  match r with
  | .cntl0 => { c with cntl0 := v, rx := if clearFifoOf l v then [] else c.rx }
  | .cntl1 => { c with cntl1 := v }
  | .fifoIo => c.push l v
  | .fifoHold => c.push l v
  | .stat => c
  | .irqstat => c

/-- No RX word is visible; in the hidden variant the newest one is not. -/
def RefCore.rxEmpty (c : RefCore) : Bool :=
  if c.hidden then decide (c.rx.length ≤ 1) else c.rx.isEmpty

/-- RE's answer to RegRead(STAT): BUSY for the stated number of reads, and RX_EMPTY. -/
def RefCore.statWord (l : RegLayout) (c : RefCore) : Word :=
  (if 0 < c.busyReads then fieldMask l.busy 1 else 0) ||| (if c.rxEmpty then fieldMask l.rxEmpty 1 else 0)

/-- RE's answer to a register read. The block never reads CNTL0, CNTL1 or FIFO_HOLD. -/
def RefCore.value (p : Params) (r : CoreReg) (c : RefCore) : Word :=
  match r with
  | .stat => c.statWord p.layout
  | .irqstat => (if doneIeOf p.layout c.cntl1 then fieldMask p.irqMineBit 1 else 0) ||| c.others
  | .fifoIo => c.rx.headD 0
  | .cntl0 => c.cntl0
  | .cntl1 => c.cntl1
  | .fifoHold => 0

/-- What a register read does to RE: a STAT read counts the busy reads down and ends the hidden variant once it has shown
RX_EMPTY; a FIFO_IO read pops the oldest RX word. -/
def RefCore.afterRead (r : CoreReg) (c : RefCore) : RefCore :=
  match r with
  | .stat => { c with busyReads := c.busyReads - 1, hidden := c.hidden && !c.rxEmpty }
  | .fifoIo => { c with rx := c.rx.tail }
  | .irqstat => c
  | .cntl0 => c
  | .cntl1 => c
  | .fifoHold => c

end Sys2Proof.Machine
end

