-- ==== Sys2Proof/Machine/Ops.lean ====
section
/-! DEFINITION. The named operations of a step: the port primitives of 00_scope.md R11, the writes of the block's fields, Take
(20_memory.md R72), raising a fault (60_exceptions.md R305), inline completion (R301), and the tests every command passes
before its own checks (R302). -/

namespace Sys2Proof.Machine

/-- Appends one event to the trace (00_scope.md R11, 10_state.md R41). -/
def emit (e : Event) (s : State) : State := { s with trace := s.trace ++ [e] }

/-- Changes fields of the block state S. -/
def onBlock (f : Block → Block) (s : State) : State := { s with block := f s.block }

/-! ### The core register port -/

/-- The answer an unknown core gives to its n-th draw (20_memory.md R66; log 5). The block never reads CNTL0, CNTL1 or
FIFO_HOLD (R70). -/
def freeAnswer (r : CoreReg) (n : Nat) : Word :=
  match r with
  | .stat => Config.freeStat n
  | .irqstat => Config.freeIrqStat n
  | .fifoIo => Config.freeRxWord n
  | .cntl0 => Config.freeStat n
  | .cntl1 => Config.freeStat n
  | .fifoHold => Config.freeRxWord n

/-- The value RegRead(r) returns in this state (00_scope.md R11, 20_memory.md R66). -/
def regValue (r : CoreReg) (s : State) : Word :=
  match s.core with
  | some c => c.value s.params r
  | none => freeAnswer r s.draws

/-- The core after a read of r, and the count of free draws. -/
def coreAfterRead (r : CoreReg) (s : State) : State :=
  match s.core with
  | some c => { s with core := some (c.afterRead r) }
  | none => { s with draws := s.draws + 1 }

/-- RegRead(r): the state after it; its value is `regValue r s`. -/
def regRead (r : CoreReg) (s : State) : State := emit (.regRead r (regValue r s)) (coreAfterRead r s)

/-- RegWrite(r, v) (00_scope.md R11). -/
def regWrite (r : CoreReg) (v : Word) (s : State) : State :=
  emit (.regWrite r v) { s with core := s.core.map (RefCore.write s.params.layout r v) }

/-- Shape(v) = S.shadow0 <- v; RegWrite(CNTL0, v) (10_state.md R34). -/
def shape (v : Word) (s : State) : State := regWrite .cntl0 v (onBlock (fun b => { b with shadow0 := v }) s)

/-- IEn(v) = S.shadow1 <- v; RegWrite(CNTL1, v) (10_state.md R34). -/
def ien (v : Word) (s : State) : State := regWrite .cntl1 v (onBlock (fun b => { b with shadow1 := v }) s)

/-- Stall(n) (00_scope.md R11, 42_chip_select.md R192; log 17). -/
def stall (n : Nat) (s : State) : State := emit (.stall n) s

/-- Claim(c) (00_scope.md R11). -/
def claim (mine : Bool) (s : State) : State := emit (.claim mine) s

/-- Complete(h, status, info, wr, rd) (00_scope.md R11). -/
def complete (h : Handle) (st : Status) (info wr rd : Nat) (s : State) : State :=
  emit (.complete { h := h, status := st, info := info, wr := wr, rd := rd }) s

/-- An inline completion: a record with counts of 0 and no other effect (60_exceptions.md R301). -/
def completeInline (h : Handle) (st : Status) (s : State) : State := complete h st 0 0 0 s

/-! ### The memory port -/

/-- MemRead(addr, 1) of each address in turn: the bytes. -/
def readBytes (as : List Nat) (s : State) : List Byte := as.map (Memory.read s.mem)

/-- MemRead(addr, 1) of each address in turn: the state after. -/
def memReads (as : List Nat) (s : State) : State :=
  match as with
  | [] => s
  | a :: as => memReads as (emit (.memRead a (Memory.read s.mem a)) s)

/-- MemWrite(addr, 1, v) (20_memory.md R60). -/
def memWrite (a : Nat) (v : Byte) (s : State) : State :=
  emit (.memWrite a v) { s with mem := Memory.write s.mem a v }

/-- MemWrite of one byte at each address in turn. -/
def memWrites : List (Nat × Byte) → State → State
  | [], s => s
  | c :: cs, s => memWrites cs (memWrite c.1 c.2 s)

/-- The memory port's own answer to the next MapChain (20_memory.md R63): RE's list, or a free value (log 5). -/
def mapDraw (s : State) : Bool :=
  match s.core with
  | some c => c.mapAnswers.headD true
  | none => Config.freeMap s.draws

/-- The answer of MapChain(c): the port's, and FAIL for a chain with a link outside the address space, because a mapped link
lies inside it (20_memory.md R63, R64; log 8). -/
def mapAnswer (c : Chain) (s : State) : Bool := chainFits s.params.addrSpace c && mapDraw s

/-- The port after one MapChain. -/
def coreAfterMap (s : State) : State :=
  match s.core with
  | some c => { s with core := some { c with mapAnswers := c.mapAnswers.tail } }
  | none => { s with draws := s.draws + 1 }

/-- MapChain(c): the state after it; its answer is `mapAnswer c s` (00_scope.md R11). -/
def mapChain (c : Chain) (s : State) : State := emit (.mapChain c (mapAnswer c s)) (coreAfterMap s)

/-- MapChain of each chain in order, none asked after a FAIL (43_transfer_state_machine.md R221 check 8): whether every
answer was OK, and the state after. -/
def mapChains : List Chain → State → Bool × State
  | [], s => (true, s)
  | c :: cs, s => if mapAnswer c s then mapChains cs (mapChain c s) else (false, mapChain c s)

/-- CopyOut(cur, n) (20_memory.md R64): the bytes, the moved cursor and the state after. -/
def copyOut (cur : Cursor) (n : Nat) (s : State) : Res (List Byte × Cursor × State) :=
  andThen (Cursor.walk s.params.addrSpace n cur) fun r => .next (readBytes r.1 s, r.2, memReads r.1 s)

/-- CopyIn(cur, bytes) (20_memory.md R64): the moved cursor and the state after. -/
def copyIn (cur : Cursor) (bs : List Byte) (s : State) : Res (Cursor × State) :=
  andThen (Cursor.walk s.params.addrSpace bs.length cur) fun r => .next (r.2, memWrites (r.1.zip bs) s)

/-! ### Faults and ownership -/

/-- raise F(info): S.fault <- F(info), and the step ends with no further event (60_exceptions.md R305). -/
def raise (f : FaultReason) (s : State) : State := onBlock (fun b => { b with fault := some f }) s

/-- QueueBH() = S.bh_for <- S.slot (00_scope.md R11, 10_state.md R33). -/
def queueBh (s : State) : State := onBlock (fun b => { b with bhFor := b.slot }) s

/-- Take(h) succeeds (20_memory.md R72). -/
def takes (h : Handle) (s : State) : Bool := decide (h ≠ 0) && decide (s.block.slot = h)

/-- What a Take that succeeds writes (20_memory.md R72). -/
def taken (s : State) : State := onBlock (fun b => { b with slot := 0, cancelable := false }) s

/-- S.targets[t]; an index past the table is no target. -/
def targetAt (b : Block) (t : Nat) : Option TargetConfig := b.targets.getD t none

/-! ### The tests before a command's own (60_exceptions.md R302 items 1 to 4) -/

/-- A block with a raised fault is stuck: no step but RESET (10_state.md R38, 60_exceptions.md R305). -/
def unlessStuck (s : State) (body : State → Res State) : Res State :=
  match s.block.fault with
  | some f => .fault (.stuck f)
  | none => body s

/-- Tests 1 to 3 of 60_exceptions.md R302 for a command that is not CANCEL: a zero handle faults (30_encoding.md R95); a
command that needs the idle block faults while a request is live and is held while a stale bottom half is pending (R96). -/
def issueGate (needsIdle : Bool) (cmd : Word) (h : Handle) (s : State) (body : State → Res State) : Res State :=
  unlessStuck s fun s =>
    if h = 0 then .next (raise (.zeroHandle cmd) s)
    else if needsIdle && decide (s.block.xstate ≠ .invalid) then .next (raise (.busy cmd h) s)
    else if needsIdle && decide (s.block.bhFor ≠ 0) then .refused .held
    else body s

/-- Test 4 for TGT: an index at or above NUM_TARGET_SLOTS completes with INVALID_PARAMETER (30_encoding.md R94 item 2). -/
def targetGate (t : Nat) (h : Handle) (s : State) (body : State → Res State) : Res State :=
  if s.params.numTargetSlots ≤ t then .next (completeInline h .invalidParameter s) else body s

end Sys2Proof.Machine
end

