-- ==== Sys2Proof/Machine/ChipSelect.lean ====
section
/-! DEFINITION. The chip-select sequencer, and LOCK and UNLOCK (42_chip_select.md R190 to R203). -/

namespace Sys2Proof.Machine

/-- The result of the busy poll (42_chip_select.md R191). -/
inductive PollResult where
  | done
  | exhausted
  deriving DecidableEq, Repr

/-- The busy poll with n reads left (42_chip_select.md R191). -/
def pollLoop : Nat → State → PollResult × State
  | 0, s => (.exhausted, s)
  | n + 1, s =>
    if busyOf s.params.layout (regValue .stat s) then pollLoop n (stall 3 (regRead .stat s))
    else (.done, regRead .stat s)

/-- PollBusy() (42_chip_select.md R191). -/
def pollBusy (s : State) : PollResult × State := pollLoop s.params.pollRetries s

/-- S.cs <- c. -/
def setCs (c : CsState) (s : State) : State := onBlock (fun b => { b with cs := c }) s

/-- AssertCsBegin(img) (42_chip_select.md R190). -/
def assertCsBegin (img : Word) (s : State) : State :=
  regWrite .fifoHold 0x00000000 (shape (zeroWidth s.params.layout img) (ien (ieOff s.params) s))

/-- AssertCsComplete(img): the poll's result is ignored (42_chip_select.md R193, R194). -/
def assertCsComplete (img : Word) (s : State) : State :=
  setCs .asserted (regRead .fifoIo (shape img (pollBusy s).2))

/-- AssertCs(img) (42_chip_select.md R193). -/
def assertCs (img : Word) (s : State) : State := assertCsComplete img (assertCsBegin img s)

/-- DeassertBegin() (42_chip_select.md R195). -/
def deassertBegin (s : State) : State :=
  setCs .releasing (regWrite .fifoIo 0x00000000 (shape (zeroWidth s.params.layout s.block.shadow0) s))

/-- FifoRearm() (42_chip_select.md R196). -/
def fifoRearm (s : State) : State := shape (fifoReset s.params.layout s.block.shadow0) s

/-- DeassertComplete() (42_chip_select.md R197). -/
def deassertComplete (s : State) : State := setCs .released (fifoRearm (pollBusy s).2)

/-- DeassertCs() (42_chip_select.md R197). -/
def deassertCs (s : State) : State := deassertComplete (deassertBegin s)

/-- S.locked <- 1; S.lock_tgt <- t. -/
def setLock (t : Nat) (s : State) : State := onBlock (fun b => { b with locked := true, lockTgt := t }) s

/-- S.locked <- 0. -/
def clearLock (s : State) : State := onBlock (fun b => { b with locked := false }) s

/-- What LOCK does for a connected target while not locked (42_chip_select.md R200). -/
def lockTarget (t : Nat) (h : Handle) (tc : TargetConfig) (s : State) : State :=
  completeInline h .success
    (setLock t
      (fifoRearm (assertCs (img0 s.params tc (selectMode s.params tc.mode 1)) s)))

/-- LOCK (42_chip_select.md R200). -/
def execLock (t : Nat) (h : Handle) (s : State) : Res State :=
  issueGate true (commandWord 6 t) h s fun s => targetGate t h s fun s =>
    match targetAt s.block t with
    | none => .next (completeInline h .invalidParameter s)
    | some tc =>
      if s.block.locked then .next (completeInline h .invalidDeviceState s)
      else .next (lockTarget t h tc s)

/-- What UNLOCK of the locked target does (42_chip_select.md R201). -/
def unlockTarget (h : Handle) (s : State) : State :=
  completeInline h .success (clearLock (deassertCs s))

/-- UNLOCK (42_chip_select.md R201). -/
def execUnlock (t : Nat) (h : Handle) (s : State) : Res State :=
  issueGate true (commandWord 7 t) h s fun s => targetGate t h s fun s =>
    if s.block.locked = false then .next (completeInline h .success s)
    else if s.block.lockTgt ≠ t then .next (completeInline h .invalidDeviceState s)
    else .next (unlockTarget h s)

end Sys2Proof.Machine
end

