-- ==== Sys2Proof/Machine/Codec.lean ====
section
/-! DEFINITION. The port-touching codec operations (40_codecs.md R138 to R140). -/

namespace Sys2Proof.Machine

/-- CodecWrite over a list of groups: for each, CopyOut and one push through FIFO_HOLD (40_codecs.md R138). -/
def codecWriteGroups (pm : PMode) : List Nat → Cursor → State → Res (Cursor × State)
  | [], cur, s => .next (cur, s)
  | k :: ks, cur, s =>
    andThen (copyOut cur k s) fun r =>
      codecWriteGroups pm ks r.2.1 (regWrite .fifoHold (txWord s.params.wordLayout pm (slotOf pm r.1)) r.2.2)

/-- CodecWrite(pm, cur, n) (40_codecs.md R138); its groups are `groups pm n`. -/
def codecWrite (pm : PMode) (cur : Cursor) (n : Nat) (s : State) : Res (Cursor × State) :=
  codecWriteGroups pm (groups pm n) cur s

/-- PlaceholderWrite over a list of groups: one push through FIFO_HOLD each (40_codecs.md R139). -/
def placeholderGroups (pm : PMode) : List Nat → State → State
  | [], s => s
  | k :: ks, s => placeholderGroups pm ks (regWrite .fifoHold (txWord s.params.wordLayout pm (placeholder pm k)) s)

/-- PlaceholderWrite(pm, n) (40_codecs.md R139); its groups are `groups pm n`. -/
def placeholderWrite (pm : PMode) (n : Nat) (s : State) : State := placeholderGroups pm (groups pm n) s

/-- CodecExtract(pm, k, w, cur) (40_codecs.md R140). -/
def codecExtract (pm : PMode) (k : Nat) (w : Word) (cur : Cursor) (s : State) : Res (Cursor × State) :=
  copyIn cur (unslot pm k (rxSlot s.params.wordLayout pm k w)) s

end Sys2Proof.Machine
end

