-- ==== Sys2Proof/Machine/Transfer.lean ====
section
/-! DEFINITION. The transfer commands: validation, issue and the chunks (43_transfer_state_machine.md R220 to R232). -/

namespace Sys2Proof.Machine

/-- Checks 2 to 7 of CheckIssue, in their order (43_transfer_state_machine.md R221). -/
def issueChecks (t : Nat) (x : Transfer) (b : Block) : List (Bool × Status) :=
  [(b.locked && decide (b.lockTgt ≠ t), .invalidDeviceState),
   (x.malformed, .invalidDeviceRequest),
   (x.delayed, .invalidDeviceRequest),
   (x.chains.any (fun c => decide (Config.lenMax < total c)), .invalidParameter),
   (x.unequal, .invalidDeviceRequest),
   (x.chains.any (fun c => decide (total c = 0)), .invalidParameter)]

/-- CheckIssue (43_transfer_state_machine.md R221): the first failing check completes the command inline; else the command
goes on with its target configuration. -/
def checkIssue (t : Nat) (h : Handle) (x : Transfer) (s : State) (go : TargetConfig → State → Res State) : Res State :=
  match targetAt s.block t with
  | none => .next (completeInline h .invalidParameter s)
  | some tc =>
    match firstFailing (issueChecks t x s.block) with
    | some st => .next (completeInline h st s)
    | none =>
      if (mapChains x.chains s).1 then go tc (mapChains x.chains s).2
      else .next (completeInline h .insufficientResources (mapChains x.chains s).2)

/-- The request record IssueStart writes (43_transfer_state_machine.md R226). -/
def requestRecord (p : Params) (h : Handle) (t : Nat) (tc : TargetConfig) (x : Transfer) (b : Block) : Block :=
  { b with
    tgt := t
    wr := Cursor.fresh x.wchain
    wrTotal := total x.wchain
    wrDone := 0
    rd := Cursor.fresh x.rchain
    rdTotal := total x.rchain
    rdDone := 0
    pmode := selectMode p tc.mode x.firstLength
    inflight := []
    slot := h }

/-- The last lines of IssueStart: a locked line is already asserted and only the shape is written
(43_transfer_state_machine.md R226, 42_chip_select.md R203). -/
def reshapeOrAssert (img : Word) (s : State) : State :=
  if s.block.cs = .asserted then shape img s else assertCs img s

/-- IssueStart (43_transfer_state_machine.md R226). -/
def issueStart (h : Handle) (t : Nat) (tc : TargetConfig) (x : Transfer) (s : State) : State :=
  reshapeOrAssert (img0 s.params tc (selectMode s.params tc.mode x.firstLength))
    (onBlock (requestRecord s.params h t tc x) s)

/-- S.xstate <- X (00_scope.md R10). -/
def setX (x : XState) (s : State) : State := onBlock (fun b => { b with xstate := x }) s

/-- PumpWrite() (43_transfer_state_machine.md R229). -/
def pumpWrite (s : State) : Res State :=
  andThen (codecWrite s.block.pmode s.block.wr (min (s.block.wrTotal - s.block.wrDone) (cap s.block.pmode)) s) fun r =>
    .next (onBlock (fun b =>
      { b with
        wr := r.1
        wrDone := s.block.wrDone + min (s.block.wrTotal - s.block.wrDone) (cap s.block.pmode)
        inflight := groups s.block.pmode (min (s.block.wrTotal - s.block.wrDone) (cap s.block.pmode)) }) r.2)

/-- PumpRead() (43_transfer_state_machine.md R232). -/
def pumpRead (s : State) : State :=
  onBlock (fun b =>
      { b with inflight := groups s.block.pmode (min (s.block.rdTotal - s.block.rdDone) (cap s.block.pmode)) })
    (placeholderWrite s.block.pmode (min (s.block.rdTotal - s.block.rdDone) (cap s.block.pmode)) s)

/-- S.cancelable <- 1. -/
def markCancelable (s : State) : State := onBlock (fun b => { b with cancelable := true }) s

/-- IssueEnd() (43_transfer_state_machine.md R228). -/
def issueEnd (s : State) : State := markCancelable (ien (ieOn s.params) s)

/-- WRITE (43_transfer_state_machine.md R222). -/
def execWrite (t : Nat) (h : Handle) (w : Chain) (s : State) : Res State :=
  issueGate true (commandWord 2 t) h s fun s => targetGate t h s fun s =>
    checkIssue t h (.write w) s fun tc s =>
      andThen (pumpWrite (setX .write (issueStart h t tc (.write w) s))) fun s => .next (issueEnd s)

/-- READ (43_transfer_state_machine.md R223). -/
def execRead (t : Nat) (h : Handle) (r : Chain) (s : State) : Res State :=
  issueGate true (commandWord 3 t) h s fun s => targetGate t h s fun s =>
    checkIssue t h (.read r) s fun tc s =>
      .next (issueEnd (pumpRead (setX .read (issueStart h t tc (.read r) s))))

/-- SEQUENCE, with the one-byte fast path (43_transfer_state_machine.md R224, R239). -/
def execSequence (t : Nat) (h : Handle) (ps : List Phase) (s : State) : Res State :=
  issueGate true (commandWord 4 t) h s fun s => targetGate t h s fun s =>
    checkIssue t h (.sequence ps) s fun tc s =>
      andThen (pumpWrite (setX (Transfer.sequence ps).firstState (issueStart h t tc (.sequence ps) s))) fun s =>
        .next (issueEnd s)

/-- FULL_DUPLEX (43_transfer_state_machine.md R225). -/
def execFullDuplex (t : Nat) (h : Handle) (w r : Chain) (s : State) : Res State :=
  issueGate true (commandWord 5 t) h s fun s => targetGate t h s fun s =>
    checkIssue t h (.fullDuplex w r) s fun tc s =>
      andThen (pumpWrite (setX .fullDuplex (issueStart h t tc (.fullDuplex w r) s))) fun s => .next (issueEnd s)

end Sys2Proof.Machine
end

