-- ==== Sys2Proof/Machine/Interrupt.lean ====
section
/-! DEFINITION. The interrupt top half: drain, advance, done, and the IRQ step (43_transfer_state_machine.md R230 to R246). -/

namespace Sys2Proof.Machine

/-- ReadPhase(x) (43_transfer_state_machine.md R233). -/
def readPhase : XState → Bool
  | .invalid => false
  | .write => false
  | .read => true
  | .sequenceWrite => false
  | .sequenceReadInit => false
  | .sequenceRead => true
  | .fullDuplex => true

/-- What Drain answers (43_transfer_state_machine.md R231). -/
inductive DrainResult where
  | full
  | part
  deriving DecidableEq, Repr

/-- S.inflight <- ks. -/
def setInflight (ks : List Nat) (s : State) : State := onBlock (fun b => { b with inflight := ks }) s

/-- S.rd <- cur; S.rd_done <- S.rd_done + k. -/
def countRead (cur : Cursor) (k : Nat) (s : State) : State :=
  onBlock (fun b => { b with rd := cur, rdDone := b.rdDone + k }) s

/-- S.pmode <- pm. -/
def setPmode (pm : PMode) (s : State) : State := onBlock (fun b => { b with pmode := pm }) s

/-- One popped word of k bytes: stored through the read cursor in a read phase, dropped otherwise (43_transfer_state_machine.md
R231, R233). -/
def takeWord (k : Nat) (w : Word) (s : State) : Res State :=
  if readPhase s.block.xstate then
    andThen (codecExtract s.block.pmode k w s.block.rd s) fun r =>
      .next (countRead r.1 k r.2)
  else .next s

/-- The loop of Drain over the words still in flight (43_transfer_state_machine.md R231). -/
def drainLoop : List Nat → State → Res (DrainResult × State)
  | [], s => .next (.full, s)
  | k :: ks, s =>
    if rxEmptyOf s.params.layout (regValue .stat s) then .next (.part, regRead .stat s)
    else
      andThen (takeWord k (regValue .fifoIo (regRead .stat s))
        (setInflight ks (regRead .fifoIo (regRead .stat s)))) fun s => drainLoop ks s

/-- Drain() (43_transfer_state_machine.md R231). -/
def drain (s : State) : Res (DrainResult × State) := drainLoop s.block.inflight s

/-- Done() (43_transfer_state_machine.md R236). -/
def done (s : State) : State :=
  queueBh (if (ien (ieOff s.params) s).block.locked then ien (ieOff s.params) s else deassertBegin (ien (ieOff s.params) s))

/-- ReadInit() for the configuration of the live request's target (43_transfer_state_machine.md R246). -/
def readInitFor (tc : TargetConfig) (s : State) : State :=
  setX .sequenceRead
    (pumpRead
      (shape (img0 s.params tc (selectMode s.params tc.mode s.block.rdTotal))
        (setPmode (selectMode s.params tc.mode s.block.rdTotal) (fifoRearm s))))

/-- ReadInit() (43_transfer_state_machine.md R246). -/
def readInit (s : State) : Res State :=
  match targetAt s.block s.block.tgt with
  | none => .refused .emptyTarget
  | some tc => .next (readInitFor tc s)

/-- Advance() (43_transfer_state_machine.md R235). -/
def advance (s : State) : Res State :=
  match s.block.xstate with
  | .invalid => .next s
  | .write => if s.block.wrDone < s.block.wrTotal then pumpWrite s else .next (done s)
  | .read => if s.block.rdDone < s.block.rdTotal then .next (pumpRead s) else .next (done s)
  | .sequenceWrite =>
    if s.block.wrDone < s.block.wrTotal then pumpWrite s else readInit (setX .sequenceReadInit s)
  | .sequenceReadInit => readInit s
  | .sequenceRead => if s.block.rdDone < s.block.rdTotal then .next (pumpRead s) else .next (done s)
  | .fullDuplex => if s.block.rdDone < s.block.rdTotal then pumpWrite s else .next (done s)

/-- Nothing to advance: no live request, a cancel has taken it, or it already reached done (43_transfer_state_machine.md R230,
R237). -/
def standsAside (b : Block) : Bool :=
  decide (b.xstate = .invalid) || decide (b.slot = 0) || decide (b.bhFor ≠ 0)

/-- The interrupt is this engine's: the mine bit of the IRQSTAT value the step reads (43_transfer_state_machine.md R230). -/
def irqMine (s : State) : Bool := mineOf s.params (regValue .irqstat s)

/-- The IRQ step of a block with nothing to advance: decline, or quiet the core and claim (43_transfer_state_machine.md R230,
R237). -/
def irqAside (s : State) : State :=
  if irqMine s then claim true (ien (ieOff s.params) (regRead .irqstat s)) else claim false (regRead .irqstat s)

/-- Drain and advance, after IRQSTAT was read with the mine bit set (43_transfer_state_machine.md R230, R234). -/
def irqAdvance (s : State) : Res State :=
  andThen (drain s) fun r =>
    match r.1 with
    | .part => .next (claim true r.2)
    | .full => andThen (advance r.2) fun s => .next (claim true s)

/-- IRQ (43_transfer_state_machine.md R230). The test of R237 reads only the block, which the read of IRQSTAT leaves alone, so it
may stand first. -/
def execIrq (s : State) : Res State :=
  unlessStuck s fun s =>
    if standsAside s.block then .next (irqAside s)
    else if irqMine s then irqAdvance (regRead .irqstat s)
    else .next (claim false (regRead .irqstat s))

end Sys2Proof.Machine
end

