-- ==== Sys2Proof/Machine/Completion.lean ====
section
/-! DEFINITION. Deferred completion, ownership and cancellation (44_completion_cancel.md R270 to R286). -/

namespace Sys2Proof.Machine

/-- Counts(): info, wr and rd by the tag; a tag without a row has none (44_completion_cancel.md R272). -/
def counts (b : Block) : Option (Nat × Nat × Nat) :=
  match b.xstate with
  | .invalid => none
  | .write => some (b.wrDone, b.wrDone, 0)
  | .read => some (b.rdDone, 0, b.rdDone)
  | .sequenceWrite => none
  | .sequenceReadInit => none
  | .sequenceRead => some (b.wrDone + b.rdDone, b.wrDone, b.rdDone)
  | .fullDuplex => some (b.wrDone + b.rdDone, b.wrDone, b.rdDone)

/-- The tags whose write count is checked (44_completion_cancel.md R273). -/
def countsWrite : XState → Bool
  | .invalid => false
  | .write => true
  | .read => false
  | .sequenceWrite => false
  | .sequenceReadInit => false
  | .sequenceRead => true
  | .fullDuplex => true

/-- The tags whose read count is checked (44_completion_cancel.md R273). -/
def countsRead : XState → Bool
  | .invalid => false
  | .write => false
  | .read => true
  | .sequenceWrite => false
  | .sequenceReadInit => false
  | .sequenceRead => true
  | .fullDuplex => true

/-- CountsMatch() (44_completion_cancel.md R273). -/
def countsMatch (b : Block) : Bool :=
  (!countsWrite b.xstate || decide (b.wrDone = b.wrTotal)) && (!countsRead b.xstate || decide (b.rdDone = b.rdTotal))

/-- The record CountMismatch carries (44_completion_cancel.md R270, 60_exceptions.md R305). -/
def mismatchOf (b : Block) : FaultReason := .countMismatch b.xstate b.wrDone b.wrTotal b.rdDone b.rdTotal

/-- "releases chip-select", or in a locked session "reset FIFOs" only (44_completion_cancel.md R270). -/
def releaseOrRearm (s : State) : State := if s.block.cs = .releasing then deassertComplete s else fifoRearm s

/-- S.bh_for <- 0. -/
def clearBh (s : State) : State := onBlock (fun b => { b with bhFor := 0 }) s

/-- S.cancel_for <- hc. -/
def setCancelFor (hc : Handle) (s : State) : State := onBlock (fun b => { b with cancelFor := hc }) s

/-- S.xstate <- INVALID; S.inflight <- []; S.cancel_for <- 0. -/
def forgetRequest (s : State) : State :=
  onBlock (fun b => { b with xstate := .invalid, inflight := [], cancelFor := 0 }) s

/-- The end of a bottom half that took its request (44_completion_cancel.md R270). -/
def bhFinish (h : Handle) (c : Nat × Nat × Nat) (s : State) : State :=
  complete h .success c.1 c.2.1 c.2.2 (setX .invalid (releaseOrRearm s))

/-- The bottom half for handle h, after S.bh_for was cleared (44_completion_cancel.md R270). -/
def bhFor (h : Handle) (s : State) : Res State :=
  if takes h s then
    match counts s.block with
    | none => .refused .noCounts
    | some c =>
      if countsMatch s.block then .next (bhFinish h c (taken s)) else .next (raise (mismatchOf s.block) (taken s))
  else .next s

/-- BH (44_completion_cancel.md R270), enabled when S.bh_for is not 0 (30_encoding.md R97). -/
def execBh (s : State) : Res State :=
  unlessStuck s fun s =>
    if s.block.bhFor = 0 then .refused .notEnabled
    else bhFor s.block.bhFor (clearBh s)

/-- CANCEL (44_completion_cancel.md R280): only the take; TGT is ignored, and a handle that is not live is a no-op. -/
def execCancel (_t : Nat) (hc : Handle) (s : State) : Res State :=
  unlessStuck s fun s =>
    if takes hc s then .next (setCancelFor hc (taken s)) else .next s

/-- The three branches of the cancel cleanup (44_completion_cancel.md R283). -/
def cancelRelease (s : State) : State :=
  if s.block.cs = .releasing then deassertComplete s
  else if s.block.locked = false then deassertComplete (deassertBegin (fifoRearm s))
  else fifoRearm s

/-- CancelFinish() (44_completion_cancel.md R283). -/
def cancelCleanup (s : State) : State :=
  completeInline s.block.cancelFor .cancelled
    (forgetRequest
      (cancelRelease (ien (ieOff s.params) s)))

/-- CANCEL_FINISH (44_completion_cancel.md R283), enabled when S.cancel_for is not 0 (30_encoding.md R97). -/
def execCancelFinish (s : State) : Res State :=
  unlessStuck s fun s =>
    if s.block.cancelFor = 0 then .refused .notEnabled else .next (cancelCleanup s)

end Sys2Proof.Machine
end

