-- ==== Sys2Proof/Machine/Connect.lean ====
section
/-! DEFINITION. CONNECT (41_control_compiler.md R170, R171). -/

namespace Sys2Proof.Machine

/-- The slot is in use by the live request or by the lock (41_control_compiler.md R170). -/
def slotInUse (t : Nat) (b : Block) : Bool :=
  (decide (b.xstate ≠ .invalid) && decide (b.tgt = t)) || (b.locked && decide (b.lockTgt = t))

/-- S.targets[t] <- tc. -/
def setTarget (t : Nat) (tc : TargetConfig) (s : State) : State :=
  onBlock (fun b => { b with targets := b.targets.set t (some tc) }) s

/-- CONNECT (41_control_compiler.md R170). It may issue at any time (30_encoding.md R96). -/
def execConnect (t : Nat) (h : Handle) (d : Descriptor) (s : State) : Res State :=
  issueGate false (commandWord 1 t) h s fun s => targetGate t h s fun s =>
    if slotInUse t s.block then .next (completeInline h .invalidDeviceState s)
    else
      match connectCheck s.params d with
      | some st => .next (completeInline h st s)
      | none => .next (completeInline h .success (setTarget t (targetOf d) s))

end Sys2Proof.Machine
end

