-- ==== Sys2Proof/Machine/Reset.lean ====
section
/-! DEFINITION. RESET (70_reset_and_hazards.md R340). -/

namespace Sys2Proof.Machine

/-- Reset(): the table of 10_state.md R43, then the two writes that put the core into a known state. What is outside S stays
(log 16). -/
def resetStep (s : State) : State :=
  shape (resetShape s.params.layout)
    (ien 0x00000000
      (onBlock (fun _ => Block.reset s.params.numTargetSlots (resetShape s.params.layout)) s))

/-- RESET, enabled at any time, also in a faulted state (30_encoding.md R97, 70_reset_and_hazards.md R340). -/
def execReset (s : State) : Res State := .next (resetStep s)

end Sys2Proof.Machine
end

