-- ==== Sys2Proof/Machine/Dispatch.lean ====
section
/-! DEFINITION. The meaning of each command and event, one arm for each constructor of Instr. -/

namespace Sys2Proof.Machine

def exec (i : Instr) (s : State) : Host.Outcome State Fault Refusal :=
  match i with
  | .connect t h d => Sys2Proof.Machine.execConnect t h d s
  | .write t h w => Sys2Proof.Machine.execWrite t h w s
  | .read t h r => Sys2Proof.Machine.execRead t h r s
  | .sequence t h ps => Sys2Proof.Machine.execSequence t h ps s
  | .fullDuplex t h w r => Sys2Proof.Machine.execFullDuplex t h w r s
  | .lock t h => Sys2Proof.Machine.execLock t h s
  | .unlock t h => Sys2Proof.Machine.execUnlock t h s
  | .cancel t hc => Sys2Proof.Machine.execCancel t hc s
  | .reset => Sys2Proof.Machine.execReset s
  | .irq => Sys2Proof.Machine.execIrq s
  | .bh => Sys2Proof.Machine.execBh s
  | .cancelFinish => Sys2Proof.Machine.execCancelFinish s

end Sys2Proof.Machine
end

