-- ==== Sys2Proof/Machine/Port.lean ====
section
/-! DEFINITION. The request port and the delivery of events: which inputs are enabled, which one a step takes, and what an input
does (30_encoding.md R94 to R97, 60_exceptions.md R302, R305, R312). -/

namespace Sys2Proof.Machine

/-- The operation codes of WRITE, READ, SEQUENCE, FULL_DUPLEX, LOCK and UNLOCK (30_encoding.md R92, R96). -/
def opNeedsIdle (op : Nat) : Bool := decide (2 ≤ op) && decide (op ≤ 7)

/-- The command is held: it passed tests 1 and 2 of 60_exceptions.md R302 and waits for a stale bottom half (30_encoding.md
R96). The test reads OP alone. -/
def commandHeld (cmd : Word) (o : Operands) (b : Block) : Bool :=
  opNeedsIdle (opField cmd) && decide (o.h ≠ 0) && decide (b.xstate = .invalid) && decide (b.bhFor ≠ 0)

/-- An event is enabled in a block without a fault (30_encoding.md R97). -/
def eventEnabled (i : Instr) (b : Block) : Bool :=
  match i with
  | .reset => true
  | .irq => true
  | .bh => decide (b.bhFor ≠ 0)
  | .cancelFinish => decide (b.cancelFor ≠ 0)
  | _ => false

/-- A handle of HANDLE_BITS bits (00_scope.md R7, 30_encoding.md R93). -/
def handleFits (p : Params) (h : Handle) : Bool := decide (h < 2 ^ p.handleBits)

/-- A chain whose addresses have ADDR_BITS bits (00_scope.md R7, 10_state.md R26). -/
def addrsFit (p : Params) (c : Chain) : Bool := c.all fun l => decide (l.addr < p.addrSpace)

/-- The operands have the widths of the port: HANDLE_BITS for a handle, ADDR_BITS for an address (00_scope.md R7). -/
def operandsFit (p : Params) : Instr → Bool
  | .connect _ h _ => handleFits p h
  | .write _ h w => handleFits p h && addrsFit p w
  | .read _ h r => handleFits p h && addrsFit p r
  | .sequence _ h ps => handleFits p h && ps.all fun x => addrsFit p x.chain
  | .fullDuplex _ h w r => handleFits p h && addrsFit p w && addrsFit p r
  | .lock _ h => handleFits p h
  | .unlock _ h => handleFits p h
  | .cancel _ hc => handleFits p hc
  | .reset => true
  | .irq => true
  | .bh => true
  | .cancelFinish => true

/-- The command word and its record can be delivered over a port of these parameters (log 13). A word without an instruction
brings its handle alone. -/
def deliverable (p : Params) (cmd : Word) (o : Operands) : Bool :=
  match decodeCommand cmd o with
  | .ok i => operandsFit p i
  | .error _ => handleFits p o.h

/-- The input has a step in this block (30_encoding.md R96, R97; in a faulted state only RESET has, 10_state.md R38). -/
def inputEnabled (p : Params) (x : Input) (b : Block) : Bool :=
  match x with
  | .command cmd o => deliverable p cmd o && b.fault.isNone && !commandHeld cmd o b
  | .event code =>
    match decodeEvent code with
    | some i => decide (i = .reset) || (b.fault.isNone && eventEnabled i b)
    | none => false

/-- The first enabled input of the port and the port without it (60_exceptions.md R312; log 2). -/
def pick (p : Params) (b : Block) : List Input → Option (Input × List Input)
  | [] => none
  | x :: xs =>
    if inputEnabled p x b then some (x, xs)
    else (pick p b xs).map fun r => (r.1, x :: r.2)

/-- A command word without an instruction: INVALID_COMMAND after the tests that come first, or, with the operation code of
CANCEL, a no-op (30_encoding.md R94 item 1, 60_exceptions.md R302). -/
def rejectCommand (cmd : Word) (h : Handle) (s : State) : Res State :=
  if opField cmd = opCancel then unlessStuck s fun s => .next s
  else issueGate (opNeedsIdle (opField cmd)) cmd h s fun s => .next (completeInline h .invalidCommand s)

/-- What an input does, once it has been taken off the port. -/
def runInput (x : Input) (s : State) : Res State :=
  match x with
  | .command cmd o =>
    match decodeCommand cmd o with
    | .ok i => exec i s
    | .error _ => rejectCommand cmd o.h s
  | .event code =>
    match decodeEvent code with
    | some i => exec i s
    | none => .refused .notEnabled

/-- The block with no enabled input: it waits, unless it is stuck (log 2, log 4). -/
def idle (s : State) : Res State := unlessStuck s fun s => .next s

/-- One step of the machine (00_scope.md R12). -/
def stepPort (s : State) : Res State :=
  match pick s.params s.block s.port with
  | some (x, rest) => runInput x { s with port := rest }
  | none => idle s

end Sys2Proof.Machine
end

