-- ==== Sys2Proof/Machine/Step.lean ====
section
/-! DEFINITION. The step of the machine, and the placing of an input where the next step takes it. -/

namespace Sys2Proof.Machine

/-- One step: the first enabled input of the port runs (00_scope.md R12). -/
def step (s : State) : Host.Outcome State Fault Refusal := stepPort s

/-- What lets the platform deliver an event: BH and CANCEL_FINISH are enabled only with a handle recorded for them, so handle 1
is recorded where there is none (30_encoding.md R97; log 12). -/
def State.withEventDue (s : State) (x : Option Input) : State :=
  match x.bind decodeInput with
  | some .bh => if s.block.bhFor = 0 then { s with block := { s.block with bhFor := 1 } } else s
  | some .cancelFinish => if s.block.cancelFor = 0 then { s with block := { s.block with cancelFor := 1 } } else s
  | _ => s

/-- The state with the input of a table word offered first on the port, and enabled if it is an event (log 12). -/
def State.withFetchWord (s : State) (nbits w : Nat) : State :=
  { s.withEventDue (tableInput nbits w) with port := (tableInput nbits w).toList ++ s.port }

end Sys2Proof.Machine
end

