-- ==== Sys2Proof/Safety.lean ====
section
/-! DEFINITION. What a safe run is, in the terms the claims use: the invariants of the block (10_state.md R27, R29, R34, R44;
43_transfer_state_machine.md R238), and what may be read off a trace. -/

namespace Sys2Proof.Machine

/-! ### Reading a trace -/

/-- The last value a trace writes to a core register. -/
def lastWrite (r : CoreReg) : List Event → Option Word
  | [] => none
  | e :: es =>
    match lastWrite r es with
    | some v => some v
    | none =>
      match e with
      | .regWrite r' v => if r' = r then some v else none
      | _ => none

/-- The event completes handle h with SUCCESS or CANCELLED, the two ends of a started transfer (44_completion_cancel.md R282). -/
def endsRequest (h : Handle) (e : Event) : Bool :=
  match e with
  | .complete c => decide (c.h = h) && (decide (c.status = .success) || decide (c.status = .cancelled))
  | _ => false

/-- How many events of a trace end the request of handle h. -/
def requestEnds (h : Handle) (es : List Event) : Nat := es.countP (endsRequest h)

/-- The event is a register access of the core port. -/
def isRegAccess : Event → Bool
  | .regWrite _ _ => true
  | .regRead _ _ => true
  | _ => false

/-- The event is a question to the memory port. -/
def isMapQuery : Event → Bool
  | .mapChain _ _ => true
  | _ => false

/-- The event is a completion record. -/
def isCompletion : Event → Bool
  | .complete _ => true
  | _ => false

/-- The event is a stall. -/
def isStall : Event → Bool
  | .stall _ => true
  | _ => false

/-- The event is a claim. -/
def isClaim : Event → Bool
  | .claim _ => true
  | _ => false

/-- The event pushes a word onto the TX FIFO. -/
def isPush : Event → Bool
  | .regWrite .fifoIo _ => true
  | .regWrite .fifoHold _ => true
  | _ => false

/-- The event reads the status register. -/
def isStatRead : Event → Bool
  | .regRead .stat _ => true
  | _ => false

/-- The event pushes a data word or a chip-select assertion trigger (FIFO_HOLD). -/
def isHoldPush : Event → Bool
  | .regWrite .fifoHold _ => true
  | _ => false

/-! ### Invariants of the block -/

/-- A target configuration as 10_state.md R21 bounds it. -/
abbrev TargetConfig.Legal (p : Params) (tc : TargetConfig) : Prop :=
  p.minClkHz ≤ tc.clkHz.toNat ∧ tc.clkHz.toNat ≤ Config.maxClkHz ∧ tc.mode ≤ 3 ∧ tc.csLine ≤ 2 ∧ tc.bits = 8

/-- The target table has NUM_TARGET_SLOTS entries and every connected one is legal (10_state.md R21). -/
abbrev TargetsLegal (p : Params) (b : Block) : Prop :=
  b.targets.length = p.numTargetSlots ∧ ∀ e ∈ b.targets, ∀ tc ∈ e, tc.Legal p

/-- A live request and a lock refer to a connected target, and a live request inside a locked session is for the locked
target (42_chip_select.md R203, 43_transfer_state_machine.md R221 check 2). -/
abbrev TargetsInUse (b : Block) : Prop :=
  (b.xstate ≠ .invalid → (targetAt b b.tgt).isSome = true) ∧
  (b.locked = true → (targetAt b b.lockTgt).isSome = true) ∧
  (b.xstate ≠ .invalid → b.locked = true → b.lockTgt = b.tgt)

/-- 10_state.md R44 item 1: an idle block owns nothing. -/
abbrev IdleOwnsNothing (b : Block) : Prop :=
  b.xstate = .invalid → b.slot = 0 ∧ b.cancelable = false ∧ b.inflight = [] ∧ b.cancelFor = 0

/-- A live request is owned by its handle slot, or has been taken by a cancel whose cleanup is pending, never both; a pending
bottom half is for that request (10_state.md R30 to R33). -/
abbrev LiveHasOneOwner (b : Block) : Prop :=
  b.xstate ≠ .invalid →
    ((b.slot ≠ 0 ∧ b.cancelFor = 0 ∧ b.cancelable = true) ∨ (b.slot = 0 ∧ b.cancelFor ≠ 0 ∧ b.cancelable = false)) ∧
    (b.bhFor = 0 ∨ b.bhFor = b.slot ∨ b.bhFor = b.cancelFor)

/-- 10_state.md R44 item 2: an idle block holds the FIFOs in reset and the interrupt disabled. -/
abbrev IdleIsQuiet (p : Params) (b : Block) : Prop :=
  b.xstate = .invalid → clearFifoOf p.layout b.shadow0 = true ∧ doneIeOf p.layout b.shadow1 = false

/-- 10_state.md R44 item 3 and the live cases beside it: the chip-select record follows the lock and the request. -/
abbrev LineFollowsRequest (b : Block) : Prop :=
  (b.xstate = .invalid → b.locked = false → b.cs = .released) ∧
  (b.locked = true → b.cs = .asserted) ∧
  (b.xstate ≠ .invalid → b.cs ≠ .released) ∧
  (b.xstate ≠ .invalid → b.locked = false → b.bhFor ≠ 0 → b.cs = .releasing) ∧
  (b.slot ≠ 0 → b.bhFor = 0 → b.cs = .asserted)

/-- 10_state.md R44 item 4, and its converse after done: the done interrupt is enabled exactly while the request can advance. -/
abbrev InterruptFollowsRequest (p : Params) (b : Block) : Prop :=
  (b.xstate ≠ .invalid → b.bhFor = 0 → b.cancelFor = 0 → doneIeOf p.layout b.shadow1 = true) ∧
  (b.bhFor ≠ 0 → doneIeOf p.layout b.shadow1 = false)

/-- 10_state.md R29 and R44 item 5: the in-flight list fits the FIFO and the chunk. -/
abbrev InflightFits (b : Block) : Prop :=
  b.inflight.length ≤ Config.fifoDepth ∧ b.inflight.sum ≤ cap b.pmode ∧ ∀ k ∈ b.inflight, 1 ≤ k ∧ k ≤ bpw b.pmode

/-- 10_state.md R27: the counts of a live request stay within its totals, which fit LEN_BITS. -/
abbrev CountsBounded (b : Block) : Prop :=
  b.xstate ≠ .invalid →
    b.wrDone ≤ b.wrTotal ∧ b.rdDone ≤ b.rdTotal ∧ b.wrTotal ≤ Config.lenMax ∧ b.rdTotal ≤ Config.lenMax

/-- What the counts of each phase say about the words in flight (43_transfer_state_machine.md R231, R238, R246). -/
abbrev CountsFollowPhase (b : Block) : Prop :=
  (b.xstate = .read → b.rdDone + b.inflight.sum ≤ b.rdTotal) ∧
  (b.xstate = .sequenceWrite → b.rdDone = 0) ∧
  (b.xstate = .sequenceReadInit → b.rdDone = 0 ∧ b.wrDone = b.wrTotal) ∧
  (b.xstate = .sequenceRead → b.rdDone + b.inflight.sum ≤ b.rdTotal ∧ b.wrDone = b.wrTotal) ∧
  (b.xstate = .fullDuplex → b.wrDone = b.rdDone + b.inflight.sum ∧ b.wrTotal = b.rdTotal)

/-- A request that reached done has nothing in flight, and its counts match its totals (43_transfer_state_machine.md R236,
44_completion_cancel.md R273). -/
abbrev DoneIsComplete (b : Block) : Prop :=
  b.xstate ≠ .invalid → b.slot ≠ 0 → b.bhFor ≠ 0 →
    b.inflight = [] ∧ (counts b).isSome = true ∧ countsMatch b = true

/-- A cursor that has moved `moved` of `tot` bytes through a chain that fits an address space of `space` bytes (10_state.md R26,
20_memory.md R64). -/
abbrev Cursor.At (cur : Cursor) (space moved tot : Nat) : Prop :=
  chainFits space cur.chain = true ∧ total (cur.chain.drop cur.link) = cur.off + (tot - moved) ∧
  cur.off ≤ ((cur.chain.drop cur.link).head?.map fun l => l.len.toNat).getD 0

/-- The cursors of a live request have moved by its counts (10_state.md R24, 43_transfer_state_machine.md R238). -/
abbrev CursorsFollowCounts (p : Params) (b : Block) : Prop :=
  b.xstate ≠ .invalid → b.wr.At p.addrSpace b.wrDone b.wrTotal ∧ b.rd.At p.addrSpace b.rdDone b.rdTotal

/-- The fields that hold a handle have HANDLE_BITS bits (10_state.md R30, R32, R33). -/
abbrev HandlesFit (p : Params) (b : Block) : Prop :=
  b.slot < 2 ^ p.handleBits ∧ b.cancelFor < 2 ^ p.handleBits ∧ b.bhFor < 2 ^ p.handleBits

/-- The invariants of the block under the parameters p. -/
structure BlockInv (p : Params) (b : Block) : Prop where
  targetsLegal : TargetsLegal p b
  targetsInUse : TargetsInUse b
  idleOwns : IdleOwnsNothing b
  owner : LiveHasOneOwner b
  idleQuiet : IdleIsQuiet p b
  line : LineFollowsRequest b
  interrupt : InterruptFollowsRequest p b
  inflight : InflightFits b
  bounded : CountsBounded b
  phase : CountsFollowPhase b
  doneComplete : DoneIsComplete b
  cursors : CursorsFollowCounts p b
  handles : HandlesFit p b

/-- The invariant of the machine: legal parameters, canonical memory inside the address space, and the invariants of the block. -/
structure Inv (s : State) : Prop where
  params : s.params.valid = true
  memory : Memory.wf s.mem = true
  space : Memory.within s.params.addrSpace s.mem = true
  block : BlockInv s.params s.block

/-! ### What a step may emit -/

/-- The buffer addresses of a chain in its order (10_state.md R26). -/
def chainAddrs (c : Chain) : List Nat := c.flatMap fun l => (List.range l.len.toNat).map (l.addr + ·)

/-- The events of a busy poll under the bound of p: busy reads, each followed by Stall(3), and then either one read that finds
the core not busy or, once the bound is used up, nothing (42_chip_select.md R191). -/
def PollTrace (p : Params) (es : List Event) : Prop :=
  ∃ vs : List Word, (∀ v ∈ vs, busyOf p.layout v = true) ∧
    ((vs.length < p.pollRetries ∧ ∃ v, busyOf p.layout v = false ∧
        es = vs.flatMap (fun v => [.regRead .stat v, .stall 3]) ++ [.regRead .stat v]) ∨
     (vs.length = p.pollRetries ∧ es = vs.flatMap fun v => [.regRead .stat v, .stall 3]))

/-- The events of AssertCs(img) (42_chip_select.md R190, R193). -/
def AssertTrace (p : Params) (img : Word) (es : List Event) : Prop :=
  ∃ poll v, PollTrace p poll ∧
    es = [.regWrite .cntl1 (ieOff p), .regWrite .cntl0 (zeroWidth p.layout img), .regWrite .fifoHold 0] ++ poll ++
      [.regWrite .cntl0 img, .regRead .fifoIo v]

/-- The events by which an issue step shapes the core: a locked line is only reshaped, any other is asserted
(43_transfer_state_machine.md R226). -/
def ShapeTrace (p : Params) (cs : CsState) (img : Word) (es : List Event) : Prop :=
  (cs = .asserted ∧ es = [.regWrite .cntl0 img]) ∨ (cs ≠ .asserted ∧ AssertTrace p img es)

/-- The events of CodecWrite over a list of groups whose bytes lie at the addresses `as`: the bytes of a group are read, then its
word is pushed (40_codecs.md R138). -/
def pushEvents (l : WordLayout) (pm : PMode) (m : Memory) : List Nat → List Nat → List Event
  | [], _ => []
  | k :: ks, as =>
    (as.take k).map (fun a => .memRead a (Memory.read m a)) ++
      .regWrite .fifoHold (txWord l pm (slotOf pm ((as.take k).map (Memory.read m)))) :: pushEvents l pm m ks (as.drop k)

/-- The events of PlaceholderWrite over a list of groups (40_codecs.md R139). -/
def placeholderEvents (l : WordLayout) (pm : PMode) (ks : List Nat) : List Event :=
  ks.map fun k => .regWrite .fifoHold (txWord l pm { nbits := nbitsOf pm k, value := 0 })

/-- The events of a drain that popped a word for each group: STAT and FIFO_IO are read, and in a read phase the bytes of the word are
written to the next addresses (43_transfer_state_machine.md R231). `vs` holds the STAT value and the RX word of each group. -/
def drainEvents (l : WordLayout) (pm : PMode) (stores : Bool) : List Nat → List (Word × Word) → List Nat → List Event
  | k :: ks, v :: vs, as =>
    [.regRead .stat v.1, .regRead .fifoIo v.2] ++
      (if stores then ((as.take k).zip (unslot pm k (rxSlot l pm k v.2))).map (fun c => .memWrite c.1 c.2) else []) ++
      drainEvents l pm stores ks vs (if stores then as.drop k else as)
  | _, _, _ => []

/-- The bit map of WORD_LAYOUT RI for a packing mode and group size: a fixed word is the slot's value right-aligned, a variable
one has the slot's length in bits 28:24 and its value left-justified below (40_codecs.md R136), and a received value is
right-aligned (R137). -/
def riMap (pm : PMode) (k : Nat) : WordMap :=
  { tx := (List.range 32).map fun j =>
      if isFixed pm then (if j < nbitsOf pm k then .slot j else .zero)
      else if j < 24 then (if 24 ≤ j + nbitsOf pm k then .slot (j + nbitsOf pm k - 24) else .zero)
      else if (nbitsOf pm k).testBit (j - 24) then .one else .zero
    rx := List.range (nbitsOf pm k) }

/-- WORD_LAYOUT RI bit by bit. -/
def riMaps : List WordMap :=
  [riMap .fixed4 4, riMap .variable3 1, riMap .variable3 2, riMap .variable3 3, riMap .fixed3Shifted 3,
   riMap .variable2Shifted 1, riMap .variable2Shifted 2]

/-- Buffer memory after the events of a trace, if every MemRead among them answers what memory holds at its time. -/
def replay : List Event → Memory → Option Memory
  | [], m => some m
  | .memRead a v :: es, m => if v = Memory.read m a then replay es m else none
  | .memWrite a v :: es, m => replay es (Memory.write m a v)
  | .regWrite _ _ :: es, m => replay es m
  | .regRead _ _ :: es, m => replay es m
  | .mapChain _ _ :: es, m => replay es m
  | .stall _ :: es, m => replay es m
  | .complete _ :: es, m => replay es m
  | .claim _ :: es, m => replay es m

/-- The shadows equal the last values written to CNTL0 and CNTL1 (10_state.md R34). -/
abbrev ShadowsFollowWrites (s : State) : Prop :=
  lastWrite .cntl0 s.trace = some s.block.shadow0 ∧ lastWrite .cntl1 s.trace = some s.block.shadow1

/-! ### What a command or an event finds -/

/-- The block can issue a command that needs it idle: no fault, no live request, no stale bottom half (30_encoding.md R96). -/
abbrev CanIssue (s : State) : Prop := s.block.fault = none ∧ s.block.xstate = .invalid ∧ s.block.bhFor = 0

/-- The command of a transfer. -/
def Transfer.command (t : Nat) (h : Handle) : Transfer → Instr
  | .write w => .write t h w
  | .read r => .read t h r
  | .sequence ps => .sequence t h ps
  | .fullDuplex w r => .fullDuplex t h w r

/-- The phase list is one W phase and then one R phase (43_transfer_state_machine.md R221 check 3). -/
def wellShaped : List Phase → Bool
  | [p, q] => decide (p.dir = .w) && decide (q.dir = .r)
  | _ => false

/-- Checks 1 to 7 of 43_transfer_state_machine.md R221 as its table words them: the code of the first that fails. -/
def issueRefusal (b : Block) (t : Nat) : Transfer → Option Status
  | x =>
    if targetAt b t = none then some .invalidParameter
    else if b.locked = true ∧ b.lockTgt ≠ t then some .invalidDeviceState
    else
      match x with
      | .write c => lengthRefusal c
      | .read c => lengthRefusal c
      | .sequence ps =>
        if wellShaped ps = false then some .invalidDeviceRequest
        else if (ps.head?.map fun p => p.delayUs).getD 0 ≠ 0 then some .invalidDeviceRequest
        else if ∃ p ∈ ps, Config.lenMax < total p.chain then some .invalidParameter
        else if ∃ p ∈ ps, total p.chain = 0 then some .invalidParameter
        else none
      | .fullDuplex w r =>
        if Config.lenMax < total w ∨ Config.lenMax < total r then some .invalidParameter
        else if total w ≠ total r then some .invalidDeviceRequest
        else if total w = 0 ∨ total r = 0 then some .invalidParameter
        else none
where
  /-- Checks 5 and 7 of one chain. -/
  lengthRefusal (c : Chain) : Option Status :=
    if Config.lenMax < total c then some .invalidParameter
    else if total c = 0 then some .invalidParameter
    else none

/-- The chains a transfer maps, write chain first (43_transfer_state_machine.md R221 check 8). -/
def Transfer.asked : Transfer → List Chain
  | .write w => [w]
  | .read r => [r]
  | .sequence ps => ps.map fun p => p.chain
  | .fullDuplex w r => [w, r]

/-- The handle of the live request or of a cancelled one whose cleanup is pending: how many ends h still has to come. -/
def owed (h : Handle) (b : Block) : Nat := (if b.slot = h then 1 else 0) + (if b.cancelFor = h then 1 else 0)

/-- The instruction may complete h with SUCCESS inline, or start a request for h. -/
def namesHandle (h : Handle) : Instr → Bool
  | .connect _ h' _ => decide (h' = h)
  | .write _ h' _ => decide (h' = h)
  | .read _ h' _ => decide (h' = h)
  | .sequence _ h' _ => decide (h' = h)
  | .fullDuplex _ h' _ _ => decide (h' = h)
  | .lock _ h' => decide (h' = h)
  | .unlock _ h' => decide (h' = h)
  | .cancel _ _ => false
  | .reset => false
  | .irq => false
  | .bh => false
  | .cancelFinish => false

/-- The transfer commands. -/
def isTransfer : Instr → Bool
  | .connect _ _ _ => false
  | .write _ _ _ => true
  | .read _ _ _ => true
  | .sequence _ _ _ => true
  | .fullDuplex _ _ _ _ => true
  | .lock _ _ => false
  | .unlock _ _ => false
  | .cancel _ _ => false
  | .reset => false
  | .irq => false
  | .bh => false
  | .cancelFinish => false

/-- The tags a step of an instruction may lead to from a tag (43_transfer_state_machine.md R240). -/
def tagMoves (i : Instr) (x y : XState) : Bool :=
  decide (x = y) ||
  match i with
  | .write _ _ _ => decide (x = .invalid) && decide (y = .write)
  | .read _ _ _ => decide (x = .invalid) && decide (y = .read)
  | .sequence _ _ ps =>
    decide (x = .invalid) &&
      if (ps.head?.map fun p => total p.chain).getD 0 = 1 then decide (y = .sequenceReadInit) else decide (y = .sequenceWrite)
  | .fullDuplex _ _ _ _ => decide (x = .invalid) && decide (y = .fullDuplex)
  | .irq => (decide (x = .sequenceWrite) || decide (x = .sequenceReadInit)) && decide (y = .sequenceRead)
  | .bh => decide (y = .invalid)
  | .cancelFinish => decide (y = .invalid)
  | .reset => decide (y = .invalid)
  | .connect _ _ _ => false
  | .lock _ _ => false
  | .unlock _ _ => false
  | .cancel _ _ => false

/-- The block after PumpWrite, and its events, with the bytes of memory m (43_transfer_state_machine.md R229). -/
def PumpedWrite (p : Params) (m : Memory) (b c : Block) (es : List Event) : Prop :=
  ∃ as cur, Cursor.walk p.addrSpace (min (b.wrTotal - b.wrDone) (cap b.pmode)) b.wr = .next (as, cur) ∧
    c = { b with wr := cur, wrDone := b.wrDone + min (b.wrTotal - b.wrDone) (cap b.pmode),
                 inflight := groups b.pmode (min (b.wrTotal - b.wrDone) (cap b.pmode)) } ∧
    es = pushEvents p.wordLayout b.pmode m (groups b.pmode (min (b.wrTotal - b.wrDone) (cap b.pmode))) as

/-- The block after PumpRead (43_transfer_state_machine.md R232). -/
def pumpedRead (b : Block) : Block :=
  { b with inflight := groups b.pmode (min (b.rdTotal - b.rdDone) (cap b.pmode)) }

/-- The block after PumpRead, and its events: one placeholder word for each group (43_transfer_state_machine.md R232). -/
def PumpedRead (p : Params) (b c : Block) (es : List Event) : Prop :=
  c = pumpedRead b ∧ es = placeholderEvents p.wordLayout b.pmode (pumpedRead b).inflight

/-- The block after Done, and its events: in a locked session the line stays, else its release begins
(43_transfer_state_machine.md R236, 42_chip_select.md R195). -/
def DoneOf (p : Params) (b c : Block) (es : List Event) : Prop :=
  (b.locked = true ∧ c = { b with shadow1 := ieOff p, bhFor := b.slot } ∧ es = [.regWrite .cntl1 (ieOff p)]) ∨
  (b.locked = false ∧
    c = { b with shadow1 := ieOff p, bhFor := b.slot, shadow0 := zeroWidth p.layout b.shadow0, cs := .releasing } ∧
    es = [.regWrite .cntl1 (ieOff p), .regWrite .cntl0 (zeroWidth p.layout b.shadow0), .regWrite .fifoIo 0])

/-- The block after ReadInit, and its events: the FIFO reset, the read phase's shape, and its first placeholders
(43_transfer_state_machine.md R246). -/
def ReadInitOf (p : Params) (b c : Block) (es : List Event) : Prop :=
  ∃ tc front, targetAt b b.tgt = some tc ∧
    PumpedRead p { b with xstate := .sequenceRead, pmode := selectMode p tc.mode b.rdTotal,
                          shadow0 := img0 p tc (selectMode p tc.mode b.rdTotal) } c front ∧
    es = [.regWrite .cntl0 (fifoReset p.layout b.shadow0), .regWrite .cntl0 (img0 p tc (selectMode p tc.mode b.rdTotal))] ++
      front

/-- The block after Advance of a live block, and its events, with the bytes of memory m (43_transfer_state_machine.md R235). -/
def Advanced (p : Params) (m : Memory) (b c : Block) (es : List Event) : Prop :=
  match b.xstate with
  | .invalid => False
  | .write => (b.wrDone < b.wrTotal ∧ PumpedWrite p m b c es) ∨ (b.wrTotal ≤ b.wrDone ∧ DoneOf p b c es)
  | .read => (b.rdDone < b.rdTotal ∧ PumpedRead p b c es) ∨ (b.rdTotal ≤ b.rdDone ∧ DoneOf p b c es)
  | .sequenceWrite => (b.wrDone < b.wrTotal ∧ PumpedWrite p m b c es) ∨ (b.wrTotal ≤ b.wrDone ∧ ReadInitOf p b c es)
  | .sequenceReadInit => ReadInitOf p b c es
  | .sequenceRead => (b.rdDone < b.rdTotal ∧ PumpedRead p b c es) ∨ (b.rdTotal ≤ b.rdDone ∧ DoneOf p b c es)
  | .fullDuplex => (b.rdDone < b.rdTotal ∧ PumpedWrite p m b c es) ∨ (b.rdTotal ≤ b.rdDone ∧ DoneOf p b c es)

/-- The bytes a drain of some groups stores, by the tag: none outside a read phase (43_transfer_state_machine.md R233). -/
def storedBytes (x : XState) (popped : List Nat) : Nat := if readPhase x then popped.sum else 0

end Sys2Proof.Machine
end

