-- ==== Sys2Proof/Certificates/Slice0/Obligations.lean ====
section
/-! DEFINITION. The statements about the model. A statement of an instruction's result gives the whole block after it as a record
update of the block before, so every field it does not name is unchanged: that is its frame. Where a statement speaks of buffer
memory it speaks of State.mem, which in the model only the block's own MemWrite changes and which answers every MemRead (log 21). -/

open Sys2Proof Sys2Proof.Machine

/-! ### Encoding -/

/-- 30_encoding.md R91, R92, R97, R105: no operand and no bit of an encoding is dropped. -/
def Obligations.DecodeEncodeRoundTrip : Prop :=
  ∀ i : Instr, i.WellFormed → decodeInput (encode i) = some i

/-- 30_encoding.md R91, R92, R97: a word or code with a meaning is the one the encoder lays out for that meaning. -/
def Obligations.EncodeDecodeRoundTrip : Prop :=
  (∀ (cmd : Word) (o : Operands) (i : Instr), decodeCommand cmd o = .ok i →
    i.WellFormed ∧ ∃ o', encode i = .command cmd o' ∧ o'.h = o.h) ∧
  ∀ (code : BitVec 8) (i : Instr), decodeEvent code = some i → encode i = .event code

/-- 30_encoding.md R92, R94: exactly the words with RSV = 0 and OP from 1 to 8 have an instruction, and its target is TGT. -/
def Obligations.MeaningfulCommandWords : Prop :=
  ∀ (cmd : Word) (o : Operands),
    ((∃ i, decodeCommand cmd o = .ok i) ↔ cmd.toNat < 256 ∧ 1 ≤ cmd.toNat % 16 ∧ cmd.toNat % 16 ≤ 8) ∧
    ∀ i, decodeCommand cmd o = .ok i → i.target = cmd.toNat / 16 % 16

/-- 30_encoding.md R98 (its two worked words) and R92, R97: sample words written out from the tables. -/
def Obligations.SampleWordsDecode : Prop :=
  (∀ o : Operands, decodeCommand 0x00000012#32 o = .ok (.write 1 o.h o.wchain)) ∧
  (∀ o : Operands, decodeCommand 0x00000008#32 o = .ok (.cancel 0 o.h)) ∧
  (∀ o : Operands, decodeCommand 0x00000031#32 o = .ok (.connect 3 o.h o.desc)) ∧
  (∀ o : Operands, decodeCommand 0x00000026#32 o = .ok (.lock 2 o.h)) ∧
  decodeEvent 0xF0#8 = some .reset ∧ decodeEvent 0xF1#8 = some .irq ∧ decodeEvent 0xF2#8 = some .bh ∧
  decodeEvent 0xF3#8 = some .cancelFinish

/-! ### The step, the request port and faults -/

/-- 00_scope.md R12, 30_encoding.md R96, R97, and the model's choice of log 2 and log 3: the first enabled input runs, with every
input before it left on the port; when it decodes to i, the step is `exec` of i. -/
def Obligations.StepRunsDecodedInput : Prop :=
  ∀ (before after : List Input) (x : Input) (i : Instr) (s : State),
    s.port = before ++ x :: after → (∀ y ∈ before, inputEnabled s.params y s.block = false) →
    inputEnabled s.params x s.block = true → decodeInput x = some i → step s = exec i { s with port := before ++ after }

/-- 60_exceptions.md R302 items 1 to 4, 30_encoding.md R94 to R96: what a command word that is not CANCEL meets before its own
checks, in a block without a fault. -/
def Obligations.CommandPriority : Prop :=
  ∀ (cmd : Word) (o : Operands) (s : State), s.block.fault = none → opField cmd ≠ 8 →
    let needsIdle : Prop := 2 ≤ opField cmd ∧ opField cmd ≤ 7
    let completed (st : Status) : State := { s with trace := s.trace ++ [.complete ⟨o.h, st, 0, 0, 0⟩] }
    (o.h = 0 → runInput (.command cmd o) s = .next { s with block := { s.block with fault := some (.zeroHandle cmd) } }) ∧
    (o.h ≠ 0 → needsIdle → s.block.xstate ≠ .invalid →
      runInput (.command cmd o) s = .next { s with block := { s.block with fault := some (.busy cmd o.h) } }) ∧
    (o.h ≠ 0 → needsIdle → s.block.xstate = .invalid → s.block.bhFor ≠ 0 → inputEnabled s.params (.command cmd o) s.block = false) ∧
    (o.h ≠ 0 → (needsIdle → s.block.xstate = .invalid ∧ s.block.bhFor = 0) →
      (rsvField cmd ≠ 0 ∨ opField cmd = 0 ∨ 9 ≤ opField cmd →
        runInput (.command cmd o) s = .next (completed .invalidCommand)) ∧
      (rsvField cmd = 0 → opField cmd ≠ 0 → opField cmd ≤ 7 → s.params.numTargetSlots ≤ tgtField cmd →
        runInput (.command cmd o) s = .next (completed .invalidParameter)))

/-- 30_encoding.md R94 items 1 and 3, R95, 44_completion_cancel.md R280: in a block without a fault a word with the operation code
of CANCEL never faults and emits nothing, and is a no-op when RSV is not 0 or the handle is 0; a word whose handle has
HANDLE_BITS bits always has a step. -/
def Obligations.CancelWordsNeverFault : Prop :=
  ∀ (cmd : Word) (o : Operands) (s : State), s.block.fault = none → opField cmd = 8 →
    (o.h < 2 ^ s.params.handleBits → inputEnabled s.params (.command cmd o) s.block = true) ∧
    ∃ u, runInput (.command cmd o) s = .next u ∧ u.trace = s.trace ∧ u.block.fault = none ∧
      (rsvField cmd ≠ 0 ∨ o.h = 0 → u = s)

/-- 30_encoding.md R96: a command held by a stale bottom half has no step; that it stays on the port (log 3) and that a step which
finds nothing else answers the same state (log 2) is the model's choice. The BH step lifts the hold, and leaves the command enabled
if its operands have the widths of the port (log 13). -/
def Obligations.HeldCommandWaits : Prop :=
  ∀ (cmd : Word) (o : Operands) (s : State),
    s.block.fault = none → 2 ≤ opField cmd → opField cmd ≤ 7 → o.h ≠ 0 → s.block.xstate = .invalid → s.block.bhFor ≠ 0 →
    s.block.slot ≠ s.block.bhFor →
    step { s with port := [.command cmd o] } = .next { s with port := [.command cmd o] } ∧
    ∃ u, step { s with port := [.command cmd o, .event 0xF2] } = .next u ∧ u.port = [.command cmd o] ∧
      u.block = { s.block with bhFor := 0 } ∧ u.trace = s.trace ∧
      inputEnabled u.params (.command cmd o) u.block = deliverable s.params cmd o

/-- 10_state.md R38, 60_exceptions.md R305, R306: a faulted block is stuck, only RESET has a step, and it clears the fault. That the
block answers the outcome `stuck` (log 4), that the first RESET of the port runs (log 2) and that the other inputs stay on the
port (log 16) is the model's choice. -/
def Obligations.FaultedBlockIsStuck : Prop :=
  ∀ (s : State) (f : FaultReason), s.block.fault = some f →
    (∀ i : Instr, i ≠ .reset → exec i s = .fault (.stuck f)) ∧
    ((∀ x ∈ s.port, decodeInput x ≠ some .reset) → step s = .fault (.stuck f)) ∧
    (∀ (before after : List Input), s.port = before ++ .event 0xF0 :: after → (∀ x ∈ before, decodeInput x ≠ some .reset) →
      ∃ u, step s = .next u ∧ u.block.fault = none ∧ u.port = before ++ after)

/-! ### Reset -/

/-- 10_state.md R43: RESET completes in every state, and every field of S has the value of the table. -/
def Obligations.ResetEstablishesTable : Prop :=
  ∀ s : State, s.params.valid = true → ∃ u, exec .reset s = .next u ∧
    u.block.targets = List.replicate s.params.numTargetSlots none ∧ u.block.xstate = .invalid ∧ u.block.pmode = .fixed4 ∧
    u.block.tgt = 0 ∧ u.block.wr = ⟨[], 0, 0⟩ ∧ u.block.rd = ⟨[], 0, 0⟩ ∧ u.block.wrTotal = 0 ∧ u.block.wrDone = 0 ∧
    u.block.rdTotal = 0 ∧ u.block.rdDone = 0 ∧ u.block.inflight = [] ∧ u.block.slot = 0 ∧ u.block.cancelable = false ∧
    u.block.cancelFor = 0 ∧ u.block.bhFor = 0 ∧
    (∀ j < 32, u.block.shadow0.getLsbD j = decide (j = s.params.layout.clearFifo)) ∧ u.block.shadow1 = 0 ∧
    u.block.cs = .released ∧ u.block.locked = false ∧ u.block.lockTgt = 0 ∧ u.block.fault = none

/-- 70_reset_and_hazards.md R340, its example: under the reference instance RESET emits the two words of the rule, and the state
after reset of the model is what RESET leaves. -/
def Obligations.ResetUnderReferenceInstance : Prop :=
  ∀ s : State, s.params = Params.ri → ∃ u, exec .reset s = .next u ∧ u.block = State.reset.block ∧
    u.trace = s.trace ++ [.regWrite .cntl1 0x00000000, .regWrite .cntl0 0x00000200]

/-! ### CONNECT -/

/-- 41_control_compiler.md R170, R171: the slot in use, the first failing check, or the installed configuration. -/
def Obligations.ConnectInstallsTarget : Prop :=
  ∀ (t : Nat) (h : Handle) (d : Descriptor) (s : State),
    s.block.fault = none → h ≠ 0 → t < s.params.numTargetSlots →
    let completed (st : Status) : List Event := s.trace ++ [.complete ⟨h, st, 0, 0, 0⟩]
    let refusal : Option Status :=
      if d.slave = true then some .notSupported
      else if d.wiring ≠ .fourWire then some .notSupported
      else if d.csActiveHigh = true then some .notSupported
      else if 3 ≤ d.csLine then some .notSupported
      else if 1 < d.cpol ∨ 1 < d.cpha then some .invalidParameter
      else if d.bits.toNat ≠ 8 then some .notSupported
      else if d.clkHz.toNat < s.params.minClkHz ∨ 20000000 < d.clkHz.toNat then some .notSupported
      else none
    exec (.connect t h d) s = .next
      (if (s.block.xstate ≠ .invalid ∧ s.block.tgt = t) ∨ (s.block.locked = true ∧ s.block.lockTgt = t) then
        { s with trace := completed .invalidDeviceState }
      else
        match refusal with
        | some st => { s with trace := completed st }
        | none =>
          { s with
            block := { s.block with targets := s.block.targets.set t (some ⟨d.clkHz, 2 * d.cpol + d.cpha, d.csLine, 8⟩) }
            trace := completed .success })

/-! ### The chip-select sequencer, LOCK and UNLOCK -/

/-- 42_chip_select.md R191: at most CS_POLL_RETRIES reads of STAT, one Stall(3) after each busy read; nothing else changes. -/
def Obligations.PollIsBounded : Prop :=
  ∀ s : State,
    (pollBusy s).2.block = s.block ∧ (pollBusy s).2.mem = s.mem ∧ (pollBusy s).2.params = s.params ∧
    (pollBusy s).2.port = s.port ∧
    ∃ vs : List Word, (∀ v ∈ vs, busyOf s.params.layout v = true) ∧
      (((pollBusy s).1 = .done ∧ vs.length < s.params.pollRetries ∧ ∃ v, busyOf s.params.layout v = false ∧
          (pollBusy s).2.trace = s.trace ++ vs.flatMap (fun v => [.regRead .stat v, .stall 3]) ++ [.regRead .stat v]) ∨
       ((pollBusy s).1 = .exhausted ∧ vs.length = s.params.pollRetries ∧
          (pollBusy s).2.trace = s.trace ++ vs.flatMap fun v => [.regRead .stat v, .stall 3]))

/-- 42_chip_select.md R200: LOCK's two refusals, and its effect, whatever the busy poll answers. -/
def Obligations.LockAssertsLine : Prop :=
  ∀ (t : Nat) (h : Handle) (s : State), CanIssue s → h ≠ 0 → t < s.params.numTargetSlots →
    (targetAt s.block t = none →
      exec (.lock t h) s = .next { s with trace := s.trace ++ [.complete ⟨h, .invalidParameter, 0, 0, 0⟩] }) ∧
    ∀ tc, targetAt s.block t = some tc →
      (s.block.locked = true →
        exec (.lock t h) s = .next { s with trace := s.trace ++ [.complete ⟨h, .invalidDeviceState, 0, 0, 0⟩] }) ∧
      (s.block.locked = false →
        let img := img0 s.params tc (selectMode s.params tc.mode 1)
        ∃ u es, exec (.lock t h) s = .next u ∧
          u.block = { s.block with shadow0 := fifoReset s.params.layout img, shadow1 := ieOff s.params, cs := .asserted,
                                   locked := true, lockTgt := t } ∧
          u.mem = s.mem ∧ u.params = s.params ∧ u.port = s.port ∧ AssertTrace s.params img es ∧
          u.trace = s.trace ++ es ++
            [.regWrite .cntl0 (fifoReset s.params.layout img), .complete ⟨h, .success, 0, 0, 0⟩])

/-- 42_chip_select.md R201: UNLOCK with nothing held, UNLOCK of another target, and the release. -/
def Obligations.UnlockReleasesLine : Prop :=
  ∀ (t : Nat) (h : Handle) (s : State), CanIssue s → h ≠ 0 → t < s.params.numTargetSlots →
    (s.block.locked = false →
      exec (.unlock t h) s = .next { s with trace := s.trace ++ [.complete ⟨h, .success, 0, 0, 0⟩] }) ∧
    (s.block.locked = true → s.block.lockTgt ≠ t →
      exec (.unlock t h) s = .next { s with trace := s.trace ++ [.complete ⟨h, .invalidDeviceState, 0, 0, 0⟩] }) ∧
    (s.block.locked = true → s.block.lockTgt = t →
      let w := zeroWidth s.params.layout s.block.shadow0
      ∃ u poll, exec (.unlock t h) s = .next u ∧
        u.block = { s.block with shadow0 := fifoReset s.params.layout w, cs := .released, locked := false } ∧
        u.mem = s.mem ∧ u.params = s.params ∧ u.port = s.port ∧ PollTrace s.params poll ∧
        u.trace = s.trace ++ [.regWrite .cntl0 w, .regWrite .fifoIo 0] ++ poll ++
          [.regWrite .cntl0 (fifoReset s.params.layout w), .complete ⟨h, .success, 0, 0, 0⟩])

/-- 42_chip_select.md R202 (derived there): LOCK and at once UNLOCK of the same target complete both with SUCCESS, whatever the
polls answer, and leave the line recorded as released. -/
def Obligations.LockThenUnlock : Prop :=
  ∀ (t : Nat) (h h' : Handle) (tc : TargetConfig) (s : State), CanIssue s → h ≠ 0 → h' ≠ 0 → t < s.params.numTargetSlots →
    targetAt s.block t = some tc → s.block.locked = false →
    ∃ u v fs es, exec (.lock t h) s = .next u ∧ exec (.unlock t h') u = .next v ∧ v.block.fault = none ∧
      v.block.locked = false ∧ v.block.cs = .released ∧
      u.trace = s.trace ++ fs ++ [.complete ⟨h, .success, 0, 0, 0⟩] ∧ fs.all (fun e => !isCompletion e) = true ∧
      v.trace = u.trace ++ es ++ [.complete ⟨h', .success, 0, 0, 0⟩] ∧ es.all (fun e => !isCompletion e) = true

/-! ### The control-register compiler -/

/-- 41_control_compiler.md R161, R164, 30_encoding.md R100, R101: every field of a compiled word, under REG_LAYOUT RI. -/
def Obligations.CompiledWordFields : Prop :=
  ∀ (p : Params) (tc : TargetConfig) (pm : PMode), p.layout = RegLayout.ri → tc.csLine < 3 →
    let w := img0 p tc pm
    getField w 0 6 = (match pm with
      | .fixed4 => 32
      | .variable3 => 0
      | .fixed3Shifted => 25
      | .variable2Shifted => 0) ∧
    w.getLsbD 6 = true ∧ w.getLsbD 7 = (dataModeBits p tc.mode).invertClk ∧
    w.getLsbD 8 = (dataModeBits p tc.mode).outRising ∧ w.getLsbD 9 = false ∧
    w.getLsbD 10 = (dataModeBits p tc.mode).inRising ∧ w.getLsbD 11 = true ∧ getField w 12 2 = 0 ∧
    w.getLsbD 14 = (decide (pm = .variable3) || decide (pm = .variable2Shifted)) ∧ getField w 15 2 = 0 ∧
    (∀ l < 3, (getField w 17 3).testBit l = decide (l ≠ tc.csLine)) ∧
    getField w 20 12 = clockDiv p.sysClkHz tc.clkHz.toNat ∧ ieOff p = 0x00000002 ∧ ieOn p = 0x00000042

/-- 41_control_compiler.md R162: the divisor fits its 12-bit field; it is the least one whose clock is at most f, or 4095 where no
smaller one is. -/
def Obligations.ClockDivisorIsLeast : Prop :=
  ∀ sys f : Nat, 0 < f →
    clockDiv sys f ≤ 4095 ∧ (clockDiv sys f < 4095 → sys ≤ 2 * (clockDiv sys f + 1) * f) ∧
    ∀ d, d < clockDiv sys f → 2 * (d + 1) * f < sys

/-- 41_control_compiler.md R166: ZeroWidth clears SHIFT_LEN and CLEAR_FIFO, FifoReset sets CLEAR_FIFO, and each keeps every other
bit, under every legal layout. -/
def Obligations.WordModifiersKeepOtherBits : Prop :=
  ∀ (l : RegLayout) (v : Word) (j : Nat), l.valid = true → j < 32 →
    (zeroWidth l v).getLsbD j =
      (if l.shiftLen ≤ j ∧ j < l.shiftLen + 6 then false else if j = l.clearFifo then false else v.getLsbD j) ∧
    (fifoReset l v).getLsbD j = if j = l.clearFifo then true else v.getLsbD j

/-! ### The codecs -/

/-- 40_codecs.md R130. -/
def Obligations.SelectModeRule : Prop :=
  ∀ (p : Params) (mode len : Nat),
    (mode ∉ p.shiftedModes → len % 4 = 0 → selectMode p mode len = .fixed4) ∧
    (mode ∉ p.shiftedModes → len % 4 ≠ 0 → selectMode p mode len = .variable3) ∧
    (mode ∈ p.shiftedModes → len % 3 = 0 → selectMode p mode len = .fixed3Shifted) ∧
    (mode ∈ p.shiftedModes → len % 3 ≠ 0 → selectMode p mode len = .variable2Shifted)

/-- 40_codecs.md R132, R143, 43_transfer_state_machine.md R243, R353 (the counts are derived there): the groups of a chunk chosen by
SelectMode are allowed in the mode, add up to n, and fit the FIFO; chunk by chunk they are the groups of the whole. -/
def Obligations.ChunkGroups : Prop :=
  ∀ (p : Params) (mode len moved : Nat), moved < len →
    let pm := selectMode p mode len
    (∃ q, moved = q * cap pm) →
    let n := min (len - moved) (cap pm)
    (∀ k ∈ groups pm n, groupAllowed pm k = true) ∧ (groups pm n).sum = n ∧ 1 ≤ (groups pm n).length ∧
    (groups pm n).length ≤ 16 ∧ groups pm (len - moved) = groups pm n ++ groups pm (len - moved - n) ∧
    (groups pm (len - moved)).length = (len - moved) / bpw pm + (if (len - moved) % bpw pm = 0 then 0 else 1)

/-- 40_codecs.md R133: nbits and value of a slot, byte 0 the most significant. -/
def Obligations.SlotOfGroup : Prop :=
  ∀ (pm : PMode) (bs : List Byte), groupAllowed pm bs.length = true →
    (slotOf pm bs).nbits = (match pm with
      | .fixed4 => 32
      | .variable3 => 8 * bs.length
      | .fixed3Shifted => 25
      | .variable2Shifted => 8 * bs.length + 1) ∧
    (slotOf pm bs).value.toNat =
      (if pm = .fixed3Shifted ∨ pm = .variable2Shifted then 2 else 1) *
        ((List.range bs.length).map fun j => (bs.getD j 0).toNat * 2 ^ (8 * (bs.length - 1 - j))).sum

/-- 40_codecs.md R141 (derived there): the slot-level round trip; under WORD_LAYOUT RI, which is a parameter (log 14), also from a
received word with any bits above the slot, and from the sent word in the fixed modes; under any other layout a received bit
is the one its map names. -/
def Obligations.SlotRoundTrip : Prop :=
  ∀ (pm : PMode) (bs : List Byte) (w : Word), groupAllowed pm bs.length = true →
    unslot pm bs.length (slotOf pm bs).value = bs ∧
    ((∀ j < nbitsOf pm bs.length, w.getLsbD j = (slotOf pm bs).value.getLsbD j) →
      unslot pm bs.length (rxSlot .ri pm bs.length w) = bs) ∧
    (isFixed pm = true → rxSlot .ri pm bs.length (txWord .ri pm (slotOf pm bs)) = (slotOf pm bs).value) ∧
    ∀ maps, (WordLayout.placed maps).valid = true → ∀ j < nbitsOf pm bs.length,
      (rxSlot (.placed maps) pm bs.length w).getLsbD j = w.getLsbD ((wordMapOf maps pm bs.length).rx.getD j 0)

/-- 40_codecs.md R136, 30_encoding.md R104 and R106 (R106 is derived there): the bits of a TX word under WORD_LAYOUT RI, which is a
parameter (log 14), and under any other layout, where each bit comes from the source its map names. -/
def Obligations.TxWordBits : Prop :=
  ∀ (pm : PMode) (bs : List Byte), groupAllowed pm bs.length = true →
    let w := txWord .ri pm (slotOf pm bs)
    (isFixed pm = true → ∀ j < 32, w.getLsbD j = (decide (j < (slotOf pm bs).nbits) && (slotOf pm bs).value.getLsbD j)) ∧
    (isFixed pm = false → getField w 29 3 = 0 ∧ getField w 24 5 = (slotOf pm bs).nbits ∧ (slotOf pm bs).nbits ≤ 24 ∧
      ∀ j < 24, w.getLsbD j =
        (decide (24 ≤ j + (slotOf pm bs).nbits) && (slotOf pm bs).value.getLsbD (j + (slotOf pm bs).nbits - 24))) ∧
    ∀ maps, (WordLayout.placed maps).valid = true → ∀ j < 32,
      (txWord (.placed maps) pm (slotOf pm bs)).getLsbD j =
        sourceBit (slotOf pm bs).value ((wordMapOf maps pm bs.length).tx.getD j .zero)

/-- 40_codecs.md R136, R137: WORD_LAYOUT RI is one of the placements the parameter admits: given bit by bit it makes the same words
(the form of the parameter is the model's, log 14). -/
def Obligations.ReferenceLayoutIsAPlacement : Prop :=
  (WordLayout.placed riMaps).valid = true ∧
  ∀ (pm : PMode) (bs : List Byte) (w : Word), groupAllowed pm bs.length = true →
    txWord (.placed riMaps) pm (slotOf pm bs) = txWord .ri pm (slotOf pm bs) ∧
    rxSlot (.placed riMaps) pm bs.length w = rxSlot .ri pm bs.length w

/-- 40_codecs.md R138: CodecWrite reads the bytes of each group and pushes one word for it, in order; the bytes are
those of State.mem (log 21). -/
def Obligations.CodecWriteTrace : Prop :=
  ∀ (pm : PMode) (cur : Cursor) (n : Nat) (s : State) (as : List Nat) (cur' : Cursor),
    Cursor.walk s.params.addrSpace n cur = .next (as, cur') →
    ∃ u, codecWrite pm cur n s = .next (cur', u) ∧ u.trace = s.trace ++ pushEvents s.params.wordLayout pm s.mem (groups pm n) as ∧
      u.block = s.block ∧ u.mem = s.mem ∧ u.params = s.params ∧ u.port = s.port

/-- 40_codecs.md R134, R139: PlaceholderWrite pushes one word of value 0 for each group and touches no memory. -/
def Obligations.PlaceholderWriteTrace : Prop :=
  ∀ (pm : PMode) (n : Nat) (s : State),
    (placeholderWrite pm n s).trace = s.trace ++ placeholderEvents s.params.wordLayout pm (groups pm n) ∧
    (placeholderWrite pm n s).block = s.block ∧ (placeholderWrite pm n s).mem = s.mem ∧
    (placeholderWrite pm n s).params = s.params ∧ (placeholderWrite pm n s).port = s.port

/-- 40_codecs.md R135, R140: CodecExtract writes the k bytes of a word, most significant first, at the next k addresses of the
cursor, and no other byte of memory changes. Which bits of the word a byte is rests on WORD_LAYOUT, a parameter (log 14): under
RI the received slot is right-aligned. -/
def Obligations.CodecExtractStores : Prop :=
  ∀ (pm : PMode) (k : Nat) (w : Word) (cur : Cursor) (s : State) (as : List Nat) (cur' : Cursor),
    groupAllowed pm k = true → Cursor.walk s.params.addrSpace k cur = .next (as, cur') → Memory.wf s.mem = true →
    ∃ u bs, codecExtract pm k w cur s = .next (cur', u) ∧ bs = unslot pm k (rxSlot s.params.wordLayout pm k w) ∧
      bs.length = k ∧
      (s.params.wordLayout = .ri → ∀ j < k, (bs.getD j 0).toNat =
        w.toNat / 2 ^ (8 * (k - 1 - j) + (if pm = .fixed3Shifted ∨ pm = .variable2Shifted then 1 else 0)) % 256) ∧
      u.trace = s.trace ++ (as.zip bs).map (fun c => .memWrite c.1 c.2) ∧ u.block = s.block ∧ u.params = s.params ∧
      u.port = s.port ∧
      (∀ a, a ∉ as → Memory.read u.mem a = Memory.read s.mem a) ∧
      (as.Nodup → ∀ j < k, Memory.read u.mem (as.getD j 0) = bs.getD j 0)

/-! ### Cursors and memory -/

/-- 20_memory.md R61, R62, R64: a cursor visits the bytes of its chain once each, in order, across links and past links of length
0, and a walk inside the chain never stops, in an address space of any size that holds the chain. -/
def Obligations.WalkFollowsChain : Prop :=
  ∀ (space : Nat) (c : Chain) (m n : Nat), chainFits space c = true → m + n ≤ total c →
    ∃ cur cur', Cursor.walk space m (Cursor.fresh c) = .next ((chainAddrs c).take m, cur) ∧
      Cursor.walk space n cur = .next (((chainAddrs c).drop m).take n, cur')

/-- Canonical memories that read alike are equal data (the form of memory is the model's, log 7). -/
def Obligations.CanonicalMemoriesAreEqual : Prop :=
  ∀ m m' : Memory, Memory.wf m = true → Memory.wf m' = true → (∀ a, Memory.read m a = Memory.read m' a) → m = m'

/-! ### Issuing a transfer -/

/-- 43_transfer_state_machine.md R222, R226, R228, R229: WRITE that passes its checks; the bytes sent are those of State.mem
(log 21). -/
def Obligations.WriteIssues : Prop :=
  ∀ (t : Nat) (h : Handle) (w : Chain) (tc : TargetConfig) (s : State), CanIssue s → h ≠ 0 → t < s.params.numTargetSlots →
    targetAt s.block t = some tc → (s.block.locked = true → s.block.lockTgt = t) → 1 ≤ total w → total w ≤ Config.lenMax →
    mapAnswer w s = true →
    let pm := selectMode s.params tc.mode (total w)
    let n := min (total w) (cap pm)
    ∃ u as cur es, Cursor.walk s.params.addrSpace n (Cursor.fresh w) = .next (as, cur) ∧ exec (.write t h w) s = .next u ∧
      u.block = { s.block with xstate := .write, pmode := pm, tgt := t, wr := cur, wrTotal := total w, wrDone := n,
                               rd := Cursor.fresh [], rdTotal := 0, rdDone := 0, inflight := groups pm n, slot := h,
                               cancelable := true, shadow0 := img0 s.params tc pm, shadow1 := ieOn s.params,
                               cs := .asserted } ∧
      u.mem = s.mem ∧ u.params = s.params ∧ u.port = s.port ∧ ShapeTrace s.params s.block.cs (img0 s.params tc pm) es ∧
      u.trace = s.trace ++ [.mapChain w true] ++ es ++ pushEvents s.params.wordLayout pm s.mem (groups pm n) as ++
        [.regWrite .cntl1 (ieOn s.params)]

/-- 43_transfer_state_machine.md R223, R226, R228, R232: READ that passes its checks. -/
def Obligations.ReadIssues : Prop :=
  ∀ (t : Nat) (h : Handle) (r : Chain) (tc : TargetConfig) (s : State), CanIssue s → h ≠ 0 → t < s.params.numTargetSlots →
    targetAt s.block t = some tc → (s.block.locked = true → s.block.lockTgt = t) → 1 ≤ total r → total r ≤ Config.lenMax →
    mapAnswer r s = true →
    let pm := selectMode s.params tc.mode (total r)
    let n := min (total r) (cap pm)
    ∃ u es, exec (.read t h r) s = .next u ∧
      u.block = { s.block with xstate := .read, pmode := pm, tgt := t, wr := Cursor.fresh [], wrTotal := 0, wrDone := 0,
                               rd := Cursor.fresh r, rdTotal := total r, rdDone := 0, inflight := groups pm n, slot := h,
                               cancelable := true, shadow0 := img0 s.params tc pm, shadow1 := ieOn s.params,
                               cs := .asserted } ∧
      u.mem = s.mem ∧ u.params = s.params ∧ u.port = s.port ∧ ShapeTrace s.params s.block.cs (img0 s.params tc pm) es ∧
      u.trace = s.trace ++ [.mapChain r true] ++ es ++ placeholderEvents s.params.wordLayout pm (groups pm n) ++
        [.regWrite .cntl1 (ieOn s.params)]

/-- 43_transfer_state_machine.md R224, R226, R228, R229, R239: SEQUENCE that passes its checks; a write phase of one byte enters
SEQUENCE_READ_INIT; the delay of the second phase is ignored; the bytes sent are those of State.mem (log 21). -/
def Obligations.SequenceIssues : Prop :=
  ∀ (t : Nat) (h : Handle) (w r : Chain) (d : BitVec 32) (tc : TargetConfig) (s : State), CanIssue s → h ≠ 0 →
    t < s.params.numTargetSlots → targetAt s.block t = some tc → (s.block.locked = true → s.block.lockTgt = t) →
    1 ≤ total w → total w ≤ Config.lenMax → 1 ≤ total r → total r ≤ Config.lenMax →
    mapAnswer w s = true → mapAnswer r (mapChain w s) = true →
    let pm := selectMode s.params tc.mode (total w)
    let n := min (total w) (cap pm)
    ∃ u as cur es, Cursor.walk s.params.addrSpace n (Cursor.fresh w) = .next (as, cur) ∧
      exec (.sequence t h [⟨.w, w, 0⟩, ⟨.r, r, d⟩]) s = .next u ∧
      u.block = { s.block with xstate := if total w = 1 then .sequenceReadInit else .sequenceWrite, pmode := pm, tgt := t,
                               wr := cur, wrTotal := total w, wrDone := n, rd := Cursor.fresh r, rdTotal := total r,
                               rdDone := 0, inflight := groups pm n, slot := h, cancelable := true,
                               shadow0 := img0 s.params tc pm, shadow1 := ieOn s.params, cs := .asserted } ∧
      u.mem = s.mem ∧ u.params = s.params ∧ u.port = s.port ∧ ShapeTrace s.params s.block.cs (img0 s.params tc pm) es ∧
      u.trace = s.trace ++ [.mapChain w true, .mapChain r true] ++ es ++ pushEvents s.params.wordLayout pm s.mem (groups pm n) as ++
        [.regWrite .cntl1 (ieOn s.params)]

/-- 43_transfer_state_machine.md R225, R226, R228, R229: FULL_DUPLEX that passes its checks; the bytes sent are those of
State.mem (log 21). -/
def Obligations.FullDuplexIssues : Prop :=
  ∀ (t : Nat) (h : Handle) (w r : Chain) (tc : TargetConfig) (s : State), CanIssue s → h ≠ 0 → t < s.params.numTargetSlots →
    targetAt s.block t = some tc → (s.block.locked = true → s.block.lockTgt = t) → 1 ≤ total w → total w ≤ Config.lenMax →
    total w = total r → mapAnswer w s = true → mapAnswer r (mapChain w s) = true →
    let pm := selectMode s.params tc.mode (total w)
    let n := min (total w) (cap pm)
    ∃ u as cur es, Cursor.walk s.params.addrSpace n (Cursor.fresh w) = .next (as, cur) ∧ exec (.fullDuplex t h w r) s = .next u ∧
      u.block = { s.block with xstate := .fullDuplex, pmode := pm, tgt := t, wr := cur, wrTotal := total w, wrDone := n,
                               rd := Cursor.fresh r, rdTotal := total r, rdDone := 0, inflight := groups pm n, slot := h,
                               cancelable := true, shadow0 := img0 s.params tc pm, shadow1 := ieOn s.params,
                               cs := .asserted } ∧
      u.mem = s.mem ∧ u.params = s.params ∧ u.port = s.port ∧ ShapeTrace s.params s.block.cs (img0 s.params tc pm) es ∧
      u.trace = s.trace ++ [.mapChain w true, .mapChain r true] ++ es ++ pushEvents s.params.wordLayout pm s.mem (groups pm n) as ++
        [.regWrite .cntl1 (ieOn s.params)]

/-- 43_transfer_state_machine.md R221: a transfer that fails a check completes inline with the code of the first that fails and
changes nothing but the trace; checks 1 to 7 ask no mapping, and no chain is asked after a FAIL. -/
def Obligations.TransferRefusals : Prop :=
  ∀ (x : Transfer) (t : Nat) (h : Handle) (s : State), CanIssue s → h ≠ 0 → t < s.params.numTargetSlots →
    (∀ st, issueRefusal s.block t x = some st →
      exec (x.command t h) s = .next { s with trace := s.trace ++ [.complete ⟨h, st, 0, 0, 0⟩] }) ∧
    (issueRefusal s.block t x = none → ∀ (before after : List Chain) (c : Chain), x.asked = before ++ c :: after →
      (mapChains before s).1 = true → mapAnswer c (mapChains before s).2 = false →
      ∃ u, exec (x.command t h) s = .next u ∧ u.block = s.block ∧ u.mem = s.mem ∧ u.params = s.params ∧ u.port = s.port ∧
        u.trace = s.trace ++ before.map (fun c => .mapChain c true) ++
          [.mapChain c false, .complete ⟨h, .insufficientResources, 0, 0, 0⟩])

/-! ### The interrupt top half -/

/-- 43_transfer_state_machine.md R230 (the decline), R237: an interrupt that is not the engine's, or that finds nothing to
advance. -/
def Obligations.IrqWithNothingToAdvance : Prop :=
  ∀ s : State, s.block.fault = none →
    let q := regValue .irqstat s
    (q.getLsbD s.params.irqMineBit = false → ∃ u, exec .irq s = .next u ∧ u.block = s.block ∧ u.mem = s.mem ∧
      u.params = s.params ∧ u.port = s.port ∧ u.trace = s.trace ++ [.regRead .irqstat q, .claim false]) ∧
    (q.getLsbD s.params.irqMineBit = true →
      (s.block.xstate = .invalid ∨ s.block.slot = 0 ∨ s.block.bhFor ≠ 0) →
      ∃ u, exec .irq s = .next u ∧ u.block = { s.block with shadow1 := ieOff s.params } ∧ u.mem = s.mem ∧
        u.params = s.params ∧ u.port = s.port ∧
        u.trace = s.trace ++ [.regRead .irqstat q, .regWrite .cntl1 (ieOff s.params), .claim true])

/-- 43_transfer_state_machine.md R230 to R236, R246: an interrupt of the engine's with a request to advance pops words in order, and
stores the bytes of each in a read phase; if some stay in flight it stops there, else it advances. Under the invariant it always
completes; its block and its trace are given whole, and memory is what its events make of it (the model's account, log 21). -/
def Obligations.IrqDrainsAndAdvances : Prop :=
  ∀ s : State, Inv s → s.block.fault = none → s.block.xstate ≠ .invalid → s.block.slot ≠ 0 → s.block.bhFor = 0 →
    mineOf s.params (regValue .irqstat s) = true →
    ∃ u popped rest as cur vs es, exec .irq s = .next u ∧ u.params = s.params ∧ u.port = s.port ∧
      s.block.inflight = popped ++ rest ∧
      Cursor.walk s.params.addrSpace (storedBytes s.block.xstate popped) s.block.rd = .next (as, cur) ∧
      vs.length = popped.length ∧ (∀ v ∈ vs, rxEmptyOf s.params.layout v.1 = false) ∧
      u.trace = s.trace ++ [.regRead .irqstat (regValue .irqstat s)] ++
        drainEvents s.params.wordLayout s.block.pmode (readPhase s.block.xstate) popped vs as ++ es ++ [.claim true] ∧
      (let b : Block := { s.block with inflight := rest, rd := cur,
                                       rdDone := s.block.rdDone + storedBytes s.block.xstate popped }
       (rest ≠ [] ∧ u.block = b ∧ ∃ v, rxEmptyOf s.params.layout v = true ∧ es = [.regRead .stat v]) ∨
       (rest = [] ∧ Advanced s.params u.mem b u.block es)) ∧
      replay (u.trace.drop s.trace.length) s.mem = some u.mem ∧
      (∀ a, a ∉ as → Memory.read u.mem a = Memory.read s.mem a)

/-- 43_transfer_state_machine.md R231, R233: the events of a drain, word by word; it ends early exactly on a STAT read with
RX_EMPTY = 1. -/
def Obligations.DrainTrace : Prop :=
  ∀ (s t : State) (res : DrainResult), drain s = .next (res, t) →
    ∃ popped rest as cur vs, s.block.inflight = popped ++ rest ∧ t.block.inflight = rest ∧ vs.length = popped.length ∧
      Cursor.walk s.params.addrSpace (storedBytes s.block.xstate popped) s.block.rd = .next (as, cur) ∧ t.block.rd = cur ∧
      (∀ v ∈ vs, rxEmptyOf s.params.layout v.1 = false) ∧
      ((res = .full ∧ rest = [] ∧
          t.trace = s.trace ++ drainEvents s.params.wordLayout s.block.pmode (readPhase s.block.xstate) popped vs as) ∨
       (res = .part ∧ rest ≠ [] ∧ ∃ v, rxEmptyOf s.params.layout v = true ∧
          t.trace = s.trace ++ drainEvents s.params.wordLayout s.block.pmode (readPhase s.block.xstate) popped vs as ++
            [.regRead .stat v]))

/-- 43_transfer_state_machine.md R242 (derived there): the bound on one IRQ step. -/
def Obligations.IrqStepIsBounded : Prop :=
  ∀ s u : State, Inv s → exec .irq s = .next u →
    ∃ es, u.trace = s.trace ++ es ∧
      es.countP (fun e => match e with | .regRead _ _ => true | _ => false) ≤ 1 + 2 * 16 + 1 ∧
      es.countP isHoldPush ≤ 16 ∧
      es.countP (fun e => match e with | .regWrite .cntl0 _ => true | .regWrite .cntl1 _ => true | _ => false) ≤ 2 ∧
      es.countP (fun e => match e with | .regWrite .fifoIo _ => true | _ => false) ≤ 1 ∧
      es.countP (fun e => match e with | .memRead _ _ => true | _ => false) ≤ 4 * 16 ∧
      es.countP (fun e => match e with | .memWrite _ _ => true | _ => false) ≤ 4 * 16 ∧
      es.all (fun e => !isStall e && !isCompletion e && !isMapQuery e) = true

/-- 10_state.md R24: in tag WRITE the read fields hold no meaning, so an IRQ step does not depend on them. -/
def Obligations.WriteIgnoresReadFields : Prop :=
  ∀ (s u : State) (cur : Cursor) (tot dn : Nat), s.block.xstate = .write → exec .irq s = .next u →
    exec .irq { s with block := { s.block with rd := cur, rdTotal := tot, rdDone := dn } } =
      .next { u with block := { u.block with rd := cur, rdTotal := tot, rdDone := dn } }

/-! ### The bottom half and cancellation -/

/-- 44_completion_cancel.md R270, R272: a bottom half whose take succeeds and whose counts match. -/
def Obligations.BhCompletesRequest : Prop :=
  ∀ (s : State) (info w r : Nat), s.block.fault = none → s.block.bhFor ≠ 0 → s.block.slot = s.block.bhFor →
    ((s.block.xstate = .write ∧ s.block.wrDone = s.block.wrTotal ∧ info = s.block.wrDone ∧ w = s.block.wrDone ∧ r = 0) ∨
     (s.block.xstate = .read ∧ s.block.rdDone = s.block.rdTotal ∧ info = s.block.rdDone ∧ w = 0 ∧ r = s.block.rdDone) ∨
     ((s.block.xstate = .sequenceRead ∨ s.block.xstate = .fullDuplex) ∧ s.block.wrDone = s.block.wrTotal ∧
       s.block.rdDone = s.block.rdTotal ∧ info = s.block.wrDone + s.block.rdDone ∧ w = s.block.wrDone ∧
       r = s.block.rdDone)) →
    ∃ u es, exec .bh s = .next u ∧
      u.block = { s.block with bhFor := 0, slot := 0, cancelable := false, xstate := .invalid,
                               shadow0 := fifoReset s.params.layout s.block.shadow0,
                               cs := if s.block.cs = .releasing then .released else s.block.cs } ∧
      u.mem = s.mem ∧ u.params = s.params ∧ u.port = s.port ∧
      ((s.block.cs = .releasing ∧ PollTrace s.params es) ∨ (s.block.cs ≠ .releasing ∧ es = [])) ∧
      u.trace = s.trace ++ es ++
        [.regWrite .cntl0 (fifoReset s.params.layout s.block.shadow0), .complete ⟨s.block.bhFor, .success, info, w, r⟩]

/-- 44_completion_cancel.md R270, R273: a bottom half whose take fails only clears bh_for; one whose counts do not match takes the
request, records CountMismatch and emits nothing. -/
def Obligations.BhStaleOrMismatch : Prop :=
  ∀ s : State, s.block.fault = none → s.block.bhFor ≠ 0 →
    (s.block.slot ≠ s.block.bhFor → exec .bh s = .next { s with block := { s.block with bhFor := 0 } }) ∧
    (s.block.slot = s.block.bhFor →
      (s.block.xstate = .write ∧ s.block.wrDone ≠ s.block.wrTotal) ∨
      (s.block.xstate = .read ∧ s.block.rdDone ≠ s.block.rdTotal) ∨
      ((s.block.xstate = .sequenceRead ∨ s.block.xstate = .fullDuplex) ∧
        (s.block.wrDone ≠ s.block.wrTotal ∨ s.block.rdDone ≠ s.block.rdTotal)) →
      exec .bh s = .next { s with block := { s.block with
        bhFor := 0, slot := 0, cancelable := false,
        fault := some (.countMismatch s.block.xstate s.block.wrDone s.block.wrTotal s.block.rdDone s.block.rdTotal) } })

/-- 44_completion_cancel.md R273 and 60_exceptions.md R305 (derived there): no step from a state of the invariant ends in
CountMismatch. -/
def Obligations.CountMismatchIsUnreachable : Prop :=
  ∀ (i : Instr) (s u : State), Inv s → exec i s = .next u →
    ∀ x a b c d, u.block.fault ≠ some (.countMismatch x a b c d)

/-- 44_completion_cancel.md R280, 20_memory.md R72: CANCEL takes the live request, or is a no-op; TGT plays no part. -/
def Obligations.CancelTakesRequest : Prop :=
  ∀ (t : Nat) (hc : Handle) (s : State), s.block.fault = none →
    (hc ≠ 0 → s.block.slot = hc →
      exec (.cancel t hc) s =
        .next { s with block := { s.block with slot := 0, cancelable := false, cancelFor := hc } }) ∧
    (hc = 0 ∨ s.block.slot ≠ hc → exec (.cancel t hc) s = .next s)

/-- 44_completion_cancel.md R283: the three branches of the cancel cleanup. -/
def Obligations.CancelFinishCleansUp : Prop :=
  ∀ s : State, s.block.fault = none → s.block.cancelFor ≠ 0 →
    let l := s.params.layout
    let z := zeroWidth l (fifoReset l s.block.shadow0)
    ∃ u es poll w c, exec .cancelFinish s = .next u ∧ PollTrace s.params poll ∧
      ((s.block.cs = .releasing ∧ w = fifoReset l s.block.shadow0 ∧ c = .released ∧ es = poll ++ [.regWrite .cntl0 w]) ∨
       (s.block.cs ≠ .releasing ∧ s.block.locked = false ∧ w = fifoReset l z ∧ c = .released ∧
         es = [.regWrite .cntl0 (fifoReset l s.block.shadow0), .regWrite .cntl0 z, .regWrite .fifoIo 0] ++ poll ++
           [.regWrite .cntl0 w]) ∨
       (s.block.cs ≠ .releasing ∧ s.block.locked = true ∧ w = fifoReset l s.block.shadow0 ∧ c = s.block.cs ∧
         es = [.regWrite .cntl0 w])) ∧
      u.block = { s.block with shadow0 := w, shadow1 := ieOff s.params, cs := c, xstate := .invalid, inflight := [],
                               cancelFor := 0 } ∧
      u.mem = s.mem ∧ u.params = s.params ∧ u.port = s.port ∧
      u.trace = s.trace ++ [.regWrite .cntl1 (ieOff s.params)] ++ es ++
        [.complete ⟨s.block.cancelFor, .cancelled, 0, 0, 0⟩]

/-- 44_completion_cancel.md R281 (derived there): in the race between the bottom half and a CANCEL of its request, whichever runs
first decides, and exactly one end is reported. -/
def Obligations.CancelRaceEndsOnce : Prop :=
  ∀ (t : Nat) (h : Handle) (s : State), Inv s → s.block.fault = none → h ≠ 0 → s.block.slot = h → s.block.bhFor = h →
    (∃ u es, exec .bh s = .next u ∧ u.trace = s.trace ++ es ∧ requestEnds h es = 1 ∧
      (∃ info w r, u.trace.getLast? = some (.complete ⟨h, .success, info, w, r⟩)) ∧ exec (.cancel t h) u = .next u ∧
      u.block.cancelFor = 0) ∧
    (∃ u v w v' w' es, exec (.cancel t h) s = .next u ∧ exec .bh u = .next v ∧ exec .cancelFinish v = .next w ∧
      exec .cancelFinish u = .next v' ∧ exec .bh v' = .next w' ∧ w' = w ∧ w.block.bhFor = 0 ∧ w.block.cancelFor = 0 ∧
      w.trace = s.trace ++ es ∧ requestEnds h es = 1 ∧ w.trace.getLast? = some (.complete ⟨h, .cancelled, 0, 0, 0⟩))

/-- 44_completion_cancel.md R282, 20_memory.md R72 (derived there): at most one end for each request. Over every step that does not
name h itself, the ends reported for h plus the ends still owed for h never grow, RESET may only lose one, and at most one is ever
owed. -/
def Obligations.AtMostOneEndPerRequest : Prop :=
  ∀ (i : Instr) (h : Handle) (s u : State), Inv s → h ≠ 0 → exec i s = .next u →
    owed h s.block ≤ 1 ∧
    (namesHandle h i = false →
      requestEnds h u.trace + owed h u.block ≤ requestEnds h s.trace + owed h s.block ∧
      (i ≠ .reset → u.block.fault = none →
        requestEnds h u.trace + owed h u.block = requestEnds h s.trace + owed h s.block))

/-! ### Whole-machine rules -/

/-- The invariants of 10_state.md R27, R29, R30, R44 and 43_transfer_state_machine.md R238 (derived there), with canonical memory
(log 7) inside the address space, are kept by every step from every state that meets them. -/
def Obligations.StepKeepsInvariant : Prop :=
  ∀ s u : State, Inv s → step s = .next u → Inv u

/-- The state after reset meets the invariant. -/
def Obligations.ResetMeetsInvariant : Prop :=
  Inv State.reset

/-- 20_memory.md R60: every step keeps memory inside the address space of 2^ADDR_BITS bytes, and keeps its canonical form (the form
is the model's, log 7). -/
def Obligations.StepKeepsMemoryCanonical : Prop :=
  ∀ s u : State, step s = .next u →
    (Memory.wf s.mem = true → Memory.wf u.mem = true) ∧
    (Memory.within s.params.addrSpace s.mem = true → Memory.within u.params.addrSpace u.mem = true)

/-- 10_state.md R34: after every step S.shadow0 and S.shadow1 equal the last values written to CNTL0 and CNTL1. -/
def Obligations.StepKeepsShadows : Prop :=
  ∀ s u : State, ShadowsFollowWrites s → step s = .next u → ShadowsFollowWrites u

/-- 10_state.md R34, 70_reset_and_hazards.md R340: RESET writes the two control words it records, from every state, also a faulted
one; what is outside S stays (the model's reading, log 16). -/
def Obligations.ResetWritesShadows : Prop :=
  ∀ s : State, ∃ u, exec .reset s = .next u ∧
    u.trace = s.trace ++ [.regWrite .cntl1 u.block.shadow1, .regWrite .cntl0 u.block.shadow0] ∧ ShadowsFollowWrites u ∧
    u.mem = s.mem ∧ u.port = s.port ∧ u.params = s.params

/-- 00_scope.md R11, 20_memory.md R60, R73: a step's events, in their order. Two clauses are the model's choice and no rule of the
spec: the history kept in State.trace, to which a step appends (log 10), and the account of memory, in which each MemRead finds what
State.mem holds after the MemWrites before it and nothing else changes State.mem (log 21; by 00_scope.md R12 buffer memory runs
concurrently with a step). The parameters stay (log 1). -/
def Obligations.TraceAccountsForMemory : Prop :=
  ∀ s u : State, step s = .next u →
    u.params = s.params ∧ ∃ es, u.trace = s.trace ++ es ∧ replay es s.mem = some u.mem

/-- 43_transfer_state_machine.md R231, R233, 60_exceptions.md R320: a step changes buffer memory only as an IRQ step of a
read phase; that nobody but the block changes State.mem is the model's choice (log 21). -/
def Obligations.OnlyReadPhasesWriteMemory : Prop :=
  ∀ (i : Instr) (s u : State), exec i s = .next u → (i ≠ .irq ∨ readPhase s.block.xstate = false) → u.mem = s.mem

/-- 60_exceptions.md R310: DONE_IE is set to 1 only by the issue step of a transfer. -/
def Obligations.DoneIeSetOnlyAtIssue : Prop :=
  ∀ (i : Instr) (s u : State), s.params.valid = true → exec i s = .next u → doneIeOf s.params.layout s.block.shadow1 = false →
    doneIeOf s.params.layout u.block.shadow1 = true → isTransfer i = true ∧ s.block.xstate = .invalid ∧
      u.block.xstate ≠ .invalid ∧ u.block.slot ≠ 0

/-- 43_transfer_state_machine.md R240 (derived there): the transition table of the tag. -/
def Obligations.TagTransitions : Prop :=
  ∀ (i : Instr) (s u : State), exec i s = .next u → tagMoves i s.block.xstate u.block.xstate = true

/-- 00_scope.md R11, 60_exceptions.md R301, R320: what a step of each context may emit: only IRQ claims, once and last; IRQ, CANCEL
and RESET complete nothing; IRQ, CONNECT, CANCEL and RESET never wait; BH, CANCEL and CANCEL_FINISH push no data word; CONNECT and
CANCEL touch no register. -/
def Obligations.ContextsKeepTheirDuties : Prop :=
  ∀ (i : Instr) (s u : State), exec i s = .next u →
    ∃ es, u.trace = s.trace ++ es ∧
      (i = .irq → ∃ front c, es = front ++ [.claim c] ∧ front.all (fun e => !isClaim e) = true) ∧
      (i ≠ .irq → es.all (fun e => !isClaim e) = true) ∧
      (i = .irq ∨ i = .reset ∨ (∃ t h, i = .cancel t h) → es.all (fun e => !isCompletion e && !isStall e) = true) ∧
      (i = .bh ∨ i = .cancelFinish ∨ (∃ t h, i = .cancel t h) → es.all (fun e => !isHoldPush e) = true) ∧
      ((∃ t h d, i = .connect t h d) ∨ (∃ t h, i = .cancel t h) → es.all (fun e => !isRegAccess e && !isStall e) = true)

/-- 20_memory.md R72, 10_state.md R30: the handle slot is written only by the issue of a transfer (the caller's handle), by a take
that succeeds (empty), and by RESET (empty). -/
def Obligations.SlotChangesOnlyByTakeOrIssue : Prop :=
  ∀ (i : Instr) (s u : State), exec i s = .next u → u.block.slot ≠ s.block.slot →
    (u.block.slot ≠ 0 ∧ namesHandle u.block.slot i = true ∧ isTransfer i = true) ∨
    (u.block.slot = 0 ∧ u.block.cancelable = false ∧
      (i = .reset ∨ (i = .bh ∧ s.block.bhFor = s.block.slot) ∨ ∃ t, i = .cancel t s.block.slot))

/-- 30_encoding.md R94 to R97, 60_exceptions.md R305: from a state of the invariant, without a fault, every enabled input has a
next state; the model's own stops are never reached (log 9), and an input wider than the port is never enabled (log 13). That a step
has a next state where the port offers no enabled input is the model's choice: such a block waits by answering the same state
(log 2), and what is not enabled stays on the port (log 3); 00_scope.md R12 gives no step without an input. -/
def Obligations.EnabledInputsComplete : Prop :=
  ∀ s : State, Inv s → s.block.fault = none →
    (∀ x, inputEnabled s.params x s.block = true → ∃ u, runInput x s = .next u) ∧ ∃ u, step s = .next u

/-- 40_codecs.md R141, 44_completion_cancel.md R270 under the model's reference core (log 6), the reference
instance (log 1) and so WORD_LAYOUT RI (log 14), with nobody but the block writing buffer memory over the three steps (the model's
choice, log 21): outside a locked session a READ of at most one chunk, its interrupt and its bottom half complete with SUCCESS and
leave the next MISO bytes in the read chain. -/
def Obligations.ReadDeliversMisoBytes : Prop :=
  ∀ (t : Nat) (h : Handle) (r : Chain) (tc : TargetConfig) (s : State) (c : RefCore),
    Inv s → CanIssue s → s.params = Params.ri → s.core = some c → c.busyReads = 0 → c.hidden = false → c.rx = [] →
    c.mapAnswers = [] →
    s.block.locked = false → h ≠ 0 → t < 4 → targetAt s.block t = some tc → chainFits s.params.addrSpace r = true → 1 ≤ total r →
    total r ≤ cap (selectMode s.params tc.mode (total r)) → (chainAddrs r).Nodup →
    ∃ u v w, exec (.read t h r) s = .next u ∧ exec .irq u = .next v ∧ exec .bh v = .next w ∧
      w.trace.getLast? = some (.complete ⟨h, .success, total r, 0, total r⟩) ∧ w.block.xstate = .invalid ∧
      w.block.cs = .released ∧
      (∀ j < total r, Memory.read w.mem ((chainAddrs r).getD j 0) = c.miso.getD j 0) ∧
      (∀ a, a ∉ chainAddrs r → Memory.read w.mem a = Memory.read s.mem a)
end

