-- ==== Sys2Proof/Laws/Decode.lean ====
section
/-! SUPPORT. The fields of a command word as numbers, and the word put together from its fields. -/

namespace Sys2Proof

/-- The three fields of a command word (30_encoding.md R91) as numbers. -/
theorem fields_toNat (cmd : Word) :
    opField cmd = cmd.toNat % 16 ∧ tgtField cmd = cmd.toNat / 16 % 16 ∧ rsvField cmd = cmd.toNat / 256 := by
  refine ⟨?_, ?_, ?_⟩ <;> simp [opField, tgtField, rsvField, BitVec.extractLsb'_toNat, Nat.shiftRight_eq_div_pow]
  have := cmd.isLt
  omega

theorem commandWord_toNat {op t : Nat} (ho : op < 16) (ht : t < 16) : (commandWord op t).toNat = op + 16 * t := by
  have h : ∀ op < 16, ∀ t < 16, (commandWord op t).toNat = op + 16 * t := by decide
  exact h op ho t ht

@[simp] theorem opField_commandWord {op t : Nat} (ho : op < 16) (ht : t < 16) : opField (commandWord op t) = op := by
  rw [(fields_toNat _).1, commandWord_toNat ho ht]
  omega

@[simp] theorem tgtField_commandWord {op t : Nat} (ho : op < 16) (ht : t < 16) : tgtField (commandWord op t) = t := by
  rw [(fields_toNat _).2.1, commandWord_toNat ho ht]
  omega

@[simp] theorem rsvField_commandWord {op t : Nat} (ho : op < 16) (ht : t < 16) : rsvField (commandWord op t) = 0 := by
  rw [(fields_toNat _).2.2, commandWord_toNat ho ht]
  omega

/-- A word with RSV = 0 is the word of its own fields. -/
theorem commandWord_fields {cmd : Word} (h : rsvField cmd = 0) : commandWord (opField cmd) (tgtField cmd) = cmd := by
  obtain ⟨h1, h2, h3⟩ := fields_toNat cmd
  apply BitVec.eq_of_toNat_eq
  rw [commandWord_toNat (by omega) (by omega)]
  omega

end Sys2Proof
end

