-- ==== Sys2Proof/Laws/State.lean ====
section
/-! SUPPORT. One lemma for each field and each named update of the state, so that no later proof unfolds a record update. -/

namespace Sys2Proof.Machine

@[simp] theorem emit_params (e : Event) (s : State) : (emit e s).params = s.params := rfl
@[simp] theorem emit_block (e : Event) (s : State) : (emit e s).block = s.block := rfl
@[simp] theorem emit_mem (e : Event) (s : State) : (emit e s).mem = s.mem := rfl
@[simp] theorem emit_core (e : Event) (s : State) : (emit e s).core = s.core := rfl
@[simp] theorem emit_draws (e : Event) (s : State) : (emit e s).draws = s.draws := rfl
@[simp] theorem emit_port (e : Event) (s : State) : (emit e s).port = s.port := rfl
@[simp] theorem emit_trace (e : Event) (s : State) : (emit e s).trace = s.trace ++ [e] := rfl

@[simp] theorem onBlock_params (f : Block → Block) (s : State) : (onBlock f s).params = s.params := rfl
@[simp] theorem onBlock_mem (f : Block → Block) (s : State) : (onBlock f s).mem = s.mem := rfl
@[simp] theorem onBlock_core (f : Block → Block) (s : State) : (onBlock f s).core = s.core := rfl
@[simp] theorem onBlock_draws (f : Block → Block) (s : State) : (onBlock f s).draws = s.draws := rfl
@[simp] theorem onBlock_port (f : Block → Block) (s : State) : (onBlock f s).port = s.port := rfl
@[simp] theorem onBlock_trace (f : Block → Block) (s : State) : (onBlock f s).trace = s.trace := rfl
@[simp] theorem onBlock_block (f : Block → Block) (s : State) : (onBlock f s).block = f s.block := rfl

@[simp] theorem coreAfterRead_params (r : CoreReg) (s : State) : (coreAfterRead r s).params = s.params := by unfold coreAfterRead; split <;> rfl
@[simp] theorem coreAfterRead_block (r : CoreReg) (s : State) : (coreAfterRead r s).block = s.block := by unfold coreAfterRead; split <;> rfl
@[simp] theorem coreAfterRead_mem (r : CoreReg) (s : State) : (coreAfterRead r s).mem = s.mem := by unfold coreAfterRead; split <;> rfl
@[simp] theorem coreAfterRead_port (r : CoreReg) (s : State) : (coreAfterRead r s).port = s.port := by unfold coreAfterRead; split <;> rfl
@[simp] theorem coreAfterRead_trace (r : CoreReg) (s : State) : (coreAfterRead r s).trace = s.trace := by unfold coreAfterRead; split <;> rfl

@[simp] theorem regRead_params (r : CoreReg) (s : State) : (regRead r s).params = s.params := by simp [regRead]
@[simp] theorem regRead_block (r : CoreReg) (s : State) : (regRead r s).block = s.block := by simp [regRead]
@[simp] theorem regRead_mem (r : CoreReg) (s : State) : (regRead r s).mem = s.mem := by simp [regRead]
@[simp] theorem regRead_port (r : CoreReg) (s : State) : (regRead r s).port = s.port := by simp [regRead]
@[simp] theorem regRead_trace (r : CoreReg) (s : State) : (regRead r s).trace = s.trace ++ [.regRead r (regValue r s)] := by simp [regRead]

@[simp] theorem regWrite_params (r : CoreReg) (v : Word) (s : State) : (regWrite r v s).params = s.params := rfl
@[simp] theorem regWrite_block (r : CoreReg) (v : Word) (s : State) : (regWrite r v s).block = s.block := rfl
@[simp] theorem regWrite_mem (r : CoreReg) (v : Word) (s : State) : (regWrite r v s).mem = s.mem := rfl
@[simp] theorem regWrite_draws (r : CoreReg) (v : Word) (s : State) : (regWrite r v s).draws = s.draws := rfl
@[simp] theorem regWrite_port (r : CoreReg) (v : Word) (s : State) : (regWrite r v s).port = s.port := rfl
@[simp] theorem regWrite_core (r : CoreReg) (v : Word) (s : State) : (regWrite r v s).core = s.core.map (RefCore.write s.params.layout r v) := rfl
@[simp] theorem regWrite_trace (r : CoreReg) (v : Word) (s : State) : (regWrite r v s).trace = s.trace ++ [.regWrite r v] := rfl

@[simp] theorem shape_params (v : Word) (s : State) : (shape v s).params = s.params := rfl
@[simp] theorem shape_mem (v : Word) (s : State) : (shape v s).mem = s.mem := rfl
@[simp] theorem shape_draws (v : Word) (s : State) : (shape v s).draws = s.draws := rfl
@[simp] theorem shape_port (v : Word) (s : State) : (shape v s).port = s.port := rfl
@[simp] theorem shape_block (v : Word) (s : State) : (shape v s).block = { s.block with shadow0 := v } := rfl
@[simp] theorem shape_trace (v : Word) (s : State) : (shape v s).trace = s.trace ++ [.regWrite .cntl0 v] := rfl

@[simp] theorem ien_params (v : Word) (s : State) : (ien v s).params = s.params := rfl
@[simp] theorem ien_mem (v : Word) (s : State) : (ien v s).mem = s.mem := rfl
@[simp] theorem ien_draws (v : Word) (s : State) : (ien v s).draws = s.draws := rfl
@[simp] theorem ien_port (v : Word) (s : State) : (ien v s).port = s.port := rfl
@[simp] theorem ien_block (v : Word) (s : State) : (ien v s).block = { s.block with shadow1 := v } := rfl
@[simp] theorem ien_trace (v : Word) (s : State) : (ien v s).trace = s.trace ++ [.regWrite .cntl1 v] := rfl

@[simp] theorem stall_params (n : Nat) (s : State) : (stall n s).params = s.params := rfl
@[simp] theorem stall_block (n : Nat) (s : State) : (stall n s).block = s.block := rfl
@[simp] theorem stall_mem (n : Nat) (s : State) : (stall n s).mem = s.mem := rfl
@[simp] theorem stall_core (n : Nat) (s : State) : (stall n s).core = s.core := rfl
@[simp] theorem stall_draws (n : Nat) (s : State) : (stall n s).draws = s.draws := rfl
@[simp] theorem stall_port (n : Nat) (s : State) : (stall n s).port = s.port := rfl
@[simp] theorem stall_trace (n : Nat) (s : State) : (stall n s).trace = s.trace ++ [.stall n] := rfl

@[simp] theorem claim_params (m : Bool) (s : State) : (claim m s).params = s.params := rfl
@[simp] theorem claim_block (m : Bool) (s : State) : (claim m s).block = s.block := rfl
@[simp] theorem claim_mem (m : Bool) (s : State) : (claim m s).mem = s.mem := rfl
@[simp] theorem claim_core (m : Bool) (s : State) : (claim m s).core = s.core := rfl
@[simp] theorem claim_draws (m : Bool) (s : State) : (claim m s).draws = s.draws := rfl
@[simp] theorem claim_port (m : Bool) (s : State) : (claim m s).port = s.port := rfl
@[simp] theorem claim_trace (m : Bool) (s : State) : (claim m s).trace = s.trace ++ [.claim m] := rfl

@[simp] theorem complete_params (h : Handle) (st : Status) (i w r : Nat) (s : State) : (complete h st i w r s).params = s.params := rfl
@[simp] theorem complete_block (h : Handle) (st : Status) (i w r : Nat) (s : State) : (complete h st i w r s).block = s.block := rfl
@[simp] theorem complete_mem (h : Handle) (st : Status) (i w r : Nat) (s : State) : (complete h st i w r s).mem = s.mem := rfl
@[simp] theorem complete_core (h : Handle) (st : Status) (i w r : Nat) (s : State) : (complete h st i w r s).core = s.core := rfl
@[simp] theorem complete_draws (h : Handle) (st : Status) (i w r : Nat) (s : State) : (complete h st i w r s).draws = s.draws := rfl
@[simp] theorem complete_port (h : Handle) (st : Status) (i w r : Nat) (s : State) : (complete h st i w r s).port = s.port := rfl
@[simp] theorem complete_trace (h : Handle) (st : Status) (i w r : Nat) (s : State) : (complete h st i w r s).trace = s.trace ++ [.complete { h := h, status := st, info := i, wr := w, rd := r }] := rfl

@[simp] theorem completeInline_params (h : Handle) (st : Status) (s : State) : (completeInline h st s).params = s.params := rfl
@[simp] theorem completeInline_block (h : Handle) (st : Status) (s : State) : (completeInline h st s).block = s.block := rfl
@[simp] theorem completeInline_mem (h : Handle) (st : Status) (s : State) : (completeInline h st s).mem = s.mem := rfl
@[simp] theorem completeInline_core (h : Handle) (st : Status) (s : State) : (completeInline h st s).core = s.core := rfl
@[simp] theorem completeInline_draws (h : Handle) (st : Status) (s : State) : (completeInline h st s).draws = s.draws := rfl
@[simp] theorem completeInline_port (h : Handle) (st : Status) (s : State) : (completeInline h st s).port = s.port := rfl
@[simp] theorem completeInline_trace (h : Handle) (st : Status) (s : State) : (completeInline h st s).trace = s.trace ++ [.complete { h := h, status := st, info := 0, wr := 0, rd := 0 }] := rfl

@[simp] theorem memWrite_params (a : Nat) (v : Byte) (s : State) : (memWrite a v s).params = s.params := rfl
@[simp] theorem memWrite_block (a : Nat) (v : Byte) (s : State) : (memWrite a v s).block = s.block := rfl
@[simp] theorem memWrite_core (a : Nat) (v : Byte) (s : State) : (memWrite a v s).core = s.core := rfl
@[simp] theorem memWrite_draws (a : Nat) (v : Byte) (s : State) : (memWrite a v s).draws = s.draws := rfl
@[simp] theorem memWrite_port (a : Nat) (v : Byte) (s : State) : (memWrite a v s).port = s.port := rfl
@[simp] theorem memWrite_mem (a : Nat) (v : Byte) (s : State) : (memWrite a v s).mem = Memory.write s.mem a v := rfl
@[simp] theorem memWrite_trace (a : Nat) (v : Byte) (s : State) : (memWrite a v s).trace = s.trace ++ [.memWrite a v] := rfl

@[simp] theorem coreAfterMap_params (s : State) : (coreAfterMap s).params = s.params := by unfold coreAfterMap; split <;> rfl
@[simp] theorem coreAfterMap_block (s : State) : (coreAfterMap s).block = s.block := by unfold coreAfterMap; split <;> rfl
@[simp] theorem coreAfterMap_mem (s : State) : (coreAfterMap s).mem = s.mem := by unfold coreAfterMap; split <;> rfl
@[simp] theorem coreAfterMap_port (s : State) : (coreAfterMap s).port = s.port := by unfold coreAfterMap; split <;> rfl
@[simp] theorem coreAfterMap_trace (s : State) : (coreAfterMap s).trace = s.trace := by unfold coreAfterMap; split <;> rfl

@[simp] theorem mapChain_params (c : Chain) (s : State) : (mapChain c s).params = s.params := by simp [mapChain]
@[simp] theorem mapChain_block (c : Chain) (s : State) : (mapChain c s).block = s.block := by simp [mapChain]
@[simp] theorem mapChain_mem (c : Chain) (s : State) : (mapChain c s).mem = s.mem := by simp [mapChain]
@[simp] theorem mapChain_port (c : Chain) (s : State) : (mapChain c s).port = s.port := by simp [mapChain]
@[simp] theorem mapChain_trace (c : Chain) (s : State) : (mapChain c s).trace = s.trace ++ [.mapChain c (mapAnswer c s)] := by simp [mapChain]

@[simp] theorem raise_params (f : FaultReason) (s : State) : (raise f s).params = s.params := rfl
@[simp] theorem raise_mem (f : FaultReason) (s : State) : (raise f s).mem = s.mem := rfl
@[simp] theorem raise_core (f : FaultReason) (s : State) : (raise f s).core = s.core := rfl
@[simp] theorem raise_draws (f : FaultReason) (s : State) : (raise f s).draws = s.draws := rfl
@[simp] theorem raise_port (f : FaultReason) (s : State) : (raise f s).port = s.port := rfl
@[simp] theorem raise_trace (f : FaultReason) (s : State) : (raise f s).trace = s.trace := rfl
@[simp] theorem raise_block (f : FaultReason) (s : State) : (raise f s).block = { s.block with fault := some f } := rfl

@[simp] theorem queueBh_params (s : State) : (queueBh s).params = s.params := rfl
@[simp] theorem queueBh_mem (s : State) : (queueBh s).mem = s.mem := rfl
@[simp] theorem queueBh_core (s : State) : (queueBh s).core = s.core := rfl
@[simp] theorem queueBh_draws (s : State) : (queueBh s).draws = s.draws := rfl
@[simp] theorem queueBh_port (s : State) : (queueBh s).port = s.port := rfl
@[simp] theorem queueBh_trace (s : State) : (queueBh s).trace = s.trace := rfl
@[simp] theorem queueBh_block (s : State) : (queueBh s).block = { s.block with bhFor := s.block.slot } := rfl

@[simp] theorem taken_params (s : State) : (taken s).params = s.params := rfl
@[simp] theorem taken_mem (s : State) : (taken s).mem = s.mem := rfl
@[simp] theorem taken_core (s : State) : (taken s).core = s.core := rfl
@[simp] theorem taken_draws (s : State) : (taken s).draws = s.draws := rfl
@[simp] theorem taken_port (s : State) : (taken s).port = s.port := rfl
@[simp] theorem taken_trace (s : State) : (taken s).trace = s.trace := rfl
@[simp] theorem taken_block (s : State) : (taken s).block = { s.block with slot := 0, cancelable := false } := rfl

@[simp] theorem setCs_params (c : CsState) (s : State) : (setCs c s).params = s.params := rfl
@[simp] theorem setCs_mem (c : CsState) (s : State) : (setCs c s).mem = s.mem := rfl
@[simp] theorem setCs_core (c : CsState) (s : State) : (setCs c s).core = s.core := rfl
@[simp] theorem setCs_draws (c : CsState) (s : State) : (setCs c s).draws = s.draws := rfl
@[simp] theorem setCs_port (c : CsState) (s : State) : (setCs c s).port = s.port := rfl
@[simp] theorem setCs_trace (c : CsState) (s : State) : (setCs c s).trace = s.trace := rfl
@[simp] theorem setCs_block (c : CsState) (s : State) : (setCs c s).block = { s.block with cs := c } := rfl

@[simp] theorem setX_params (x : XState) (s : State) : (setX x s).params = s.params := rfl
@[simp] theorem setX_mem (x : XState) (s : State) : (setX x s).mem = s.mem := rfl
@[simp] theorem setX_core (x : XState) (s : State) : (setX x s).core = s.core := rfl
@[simp] theorem setX_draws (x : XState) (s : State) : (setX x s).draws = s.draws := rfl
@[simp] theorem setX_port (x : XState) (s : State) : (setX x s).port = s.port := rfl
@[simp] theorem setX_trace (x : XState) (s : State) : (setX x s).trace = s.trace := rfl
@[simp] theorem setX_block (x : XState) (s : State) : (setX x s).block = { s.block with xstate := x } := rfl

@[simp] theorem setTarget_params (t : Nat) (tc : TargetConfig) (s : State) : (setTarget t tc s).params = s.params := rfl
@[simp] theorem setTarget_mem (t : Nat) (tc : TargetConfig) (s : State) : (setTarget t tc s).mem = s.mem := rfl
@[simp] theorem setTarget_core (t : Nat) (tc : TargetConfig) (s : State) : (setTarget t tc s).core = s.core := rfl
@[simp] theorem setTarget_draws (t : Nat) (tc : TargetConfig) (s : State) : (setTarget t tc s).draws = s.draws := rfl
@[simp] theorem setTarget_port (t : Nat) (tc : TargetConfig) (s : State) : (setTarget t tc s).port = s.port := rfl
@[simp] theorem setTarget_trace (t : Nat) (tc : TargetConfig) (s : State) : (setTarget t tc s).trace = s.trace := rfl
@[simp] theorem setTarget_block (t : Nat) (tc : TargetConfig) (s : State) : (setTarget t tc s).block = { s.block with targets := s.block.targets.set t (some tc) } := rfl

@[simp] theorem setLock_params (t : Nat) (s : State) : (setLock t s).params = s.params := rfl
@[simp] theorem setLock_mem (t : Nat) (s : State) : (setLock t s).mem = s.mem := rfl
@[simp] theorem setLock_core (t : Nat) (s : State) : (setLock t s).core = s.core := rfl
@[simp] theorem setLock_draws (t : Nat) (s : State) : (setLock t s).draws = s.draws := rfl
@[simp] theorem setLock_port (t : Nat) (s : State) : (setLock t s).port = s.port := rfl
@[simp] theorem setLock_trace (t : Nat) (s : State) : (setLock t s).trace = s.trace := rfl
@[simp] theorem setLock_block (t : Nat) (s : State) : (setLock t s).block = { s.block with locked := true, lockTgt := t } := rfl

@[simp] theorem clearLock_params (s : State) : (clearLock s).params = s.params := rfl
@[simp] theorem clearLock_mem (s : State) : (clearLock s).mem = s.mem := rfl
@[simp] theorem clearLock_core (s : State) : (clearLock s).core = s.core := rfl
@[simp] theorem clearLock_draws (s : State) : (clearLock s).draws = s.draws := rfl
@[simp] theorem clearLock_port (s : State) : (clearLock s).port = s.port := rfl
@[simp] theorem clearLock_trace (s : State) : (clearLock s).trace = s.trace := rfl
@[simp] theorem clearLock_block (s : State) : (clearLock s).block = { s.block with locked := false } := rfl

@[simp] theorem markCancelable_params (s : State) : (markCancelable s).params = s.params := rfl
@[simp] theorem markCancelable_mem (s : State) : (markCancelable s).mem = s.mem := rfl
@[simp] theorem markCancelable_core (s : State) : (markCancelable s).core = s.core := rfl
@[simp] theorem markCancelable_draws (s : State) : (markCancelable s).draws = s.draws := rfl
@[simp] theorem markCancelable_port (s : State) : (markCancelable s).port = s.port := rfl
@[simp] theorem markCancelable_trace (s : State) : (markCancelable s).trace = s.trace := rfl
@[simp] theorem markCancelable_block (s : State) : (markCancelable s).block = { s.block with cancelable := true } := rfl

@[simp] theorem setInflight_params (ks : List Nat) (s : State) : (setInflight ks s).params = s.params := rfl
@[simp] theorem setInflight_mem (ks : List Nat) (s : State) : (setInflight ks s).mem = s.mem := rfl
@[simp] theorem setInflight_core (ks : List Nat) (s : State) : (setInflight ks s).core = s.core := rfl
@[simp] theorem setInflight_draws (ks : List Nat) (s : State) : (setInflight ks s).draws = s.draws := rfl
@[simp] theorem setInflight_port (ks : List Nat) (s : State) : (setInflight ks s).port = s.port := rfl
@[simp] theorem setInflight_trace (ks : List Nat) (s : State) : (setInflight ks s).trace = s.trace := rfl
@[simp] theorem setInflight_block (ks : List Nat) (s : State) : (setInflight ks s).block = { s.block with inflight := ks } := rfl

@[simp] theorem countRead_params (cur : Cursor) (k : Nat) (s : State) : (countRead cur k s).params = s.params := rfl
@[simp] theorem countRead_mem (cur : Cursor) (k : Nat) (s : State) : (countRead cur k s).mem = s.mem := rfl
@[simp] theorem countRead_core (cur : Cursor) (k : Nat) (s : State) : (countRead cur k s).core = s.core := rfl
@[simp] theorem countRead_draws (cur : Cursor) (k : Nat) (s : State) : (countRead cur k s).draws = s.draws := rfl
@[simp] theorem countRead_port (cur : Cursor) (k : Nat) (s : State) : (countRead cur k s).port = s.port := rfl
@[simp] theorem countRead_trace (cur : Cursor) (k : Nat) (s : State) : (countRead cur k s).trace = s.trace := rfl
@[simp] theorem countRead_block (cur : Cursor) (k : Nat) (s : State) : (countRead cur k s).block = { s.block with rd := cur, rdDone := s.block.rdDone + k } := rfl

@[simp] theorem setPmode_params (pm : PMode) (s : State) : (setPmode pm s).params = s.params := rfl
@[simp] theorem setPmode_mem (pm : PMode) (s : State) : (setPmode pm s).mem = s.mem := rfl
@[simp] theorem setPmode_core (pm : PMode) (s : State) : (setPmode pm s).core = s.core := rfl
@[simp] theorem setPmode_draws (pm : PMode) (s : State) : (setPmode pm s).draws = s.draws := rfl
@[simp] theorem setPmode_port (pm : PMode) (s : State) : (setPmode pm s).port = s.port := rfl
@[simp] theorem setPmode_trace (pm : PMode) (s : State) : (setPmode pm s).trace = s.trace := rfl
@[simp] theorem setPmode_block (pm : PMode) (s : State) : (setPmode pm s).block = { s.block with pmode := pm } := rfl

@[simp] theorem clearBh_params (s : State) : (clearBh s).params = s.params := rfl
@[simp] theorem clearBh_mem (s : State) : (clearBh s).mem = s.mem := rfl
@[simp] theorem clearBh_core (s : State) : (clearBh s).core = s.core := rfl
@[simp] theorem clearBh_draws (s : State) : (clearBh s).draws = s.draws := rfl
@[simp] theorem clearBh_port (s : State) : (clearBh s).port = s.port := rfl
@[simp] theorem clearBh_trace (s : State) : (clearBh s).trace = s.trace := rfl
@[simp] theorem clearBh_block (s : State) : (clearBh s).block = { s.block with bhFor := 0 } := rfl

@[simp] theorem setCancelFor_params (hc : Handle) (s : State) : (setCancelFor hc s).params = s.params := rfl
@[simp] theorem setCancelFor_mem (hc : Handle) (s : State) : (setCancelFor hc s).mem = s.mem := rfl
@[simp] theorem setCancelFor_core (hc : Handle) (s : State) : (setCancelFor hc s).core = s.core := rfl
@[simp] theorem setCancelFor_draws (hc : Handle) (s : State) : (setCancelFor hc s).draws = s.draws := rfl
@[simp] theorem setCancelFor_port (hc : Handle) (s : State) : (setCancelFor hc s).port = s.port := rfl
@[simp] theorem setCancelFor_trace (hc : Handle) (s : State) : (setCancelFor hc s).trace = s.trace := rfl
@[simp] theorem setCancelFor_block (hc : Handle) (s : State) : (setCancelFor hc s).block = { s.block with cancelFor := hc } := rfl

@[simp] theorem forgetRequest_params (s : State) : (forgetRequest s).params = s.params := rfl
@[simp] theorem forgetRequest_mem (s : State) : (forgetRequest s).mem = s.mem := rfl
@[simp] theorem forgetRequest_core (s : State) : (forgetRequest s).core = s.core := rfl
@[simp] theorem forgetRequest_draws (s : State) : (forgetRequest s).draws = s.draws := rfl
@[simp] theorem forgetRequest_port (s : State) : (forgetRequest s).port = s.port := rfl
@[simp] theorem forgetRequest_trace (s : State) : (forgetRequest s).trace = s.trace := rfl
@[simp] theorem forgetRequest_block (s : State) : (forgetRequest s).block = { s.block with xstate := .invalid, inflight := [], cancelFor := 0 } := rfl

end Sys2Proof.Machine
end

