-- ==== Sys2Proof/Laws/Memory.lean ====
section
/-! SUPPORT. Buffer memory: a write is read back at its address and nowhere else, and keeps the canonical form. -/

namespace Sys2Proof.Machine.Memory

theorem risingFrom_mono {lo lo' : Nat} (h : lo ≤ lo') : ∀ {m : Memory}, risingFrom lo' m = true → risingFrom lo m = true
  | [], _ => rfl
  | c :: cs, hm => by
    simp only [risingFrom, Bool.and_eq_true, decide_eq_true_eq] at hm ⊢
    exact ⟨by omega, hm.2⟩

/-- An address below every entry reads as an unlisted one. -/
theorem read_of_lt : ∀ {m : Memory} {lo a : Nat}, risingFrom lo m = true → a < lo → read m a = unlistedByte
  | [], _, _, _, _ => rfl
  | c :: cs, lo, a, hm, h => by
    simp only [risingFrom, Bool.and_eq_true, decide_eq_true_eq] at hm
    rw [read, if_neg (by omega)]
    exact read_of_lt hm.2 (by omega)

theorem read_insert : ∀ (m : Memory) (a b : Nat) (v : Byte),
    read (insert m a v) b = if a = b then v else read m b
  | [], a, b, v => by simp [insert, read]
  | c :: cs, a, b, v => by
    have ih := read_insert cs a b v
    unfold insert
    split
    · simp [read]
    · split
      · rename_i h1 h2
        subst h2
        by_cases hb : c.1 = b <;> simp [read, hb]
      · rename_i h1 h2
        simp only [read, ih]
        by_cases hc : c.1 = b
        · have : a ≠ b := by omega
          simp [hc, this]
        · simp [hc]

theorem read_erase : ∀ {m : Memory} {lo : Nat} (a b : Nat), risingFrom lo m = true →
    read (erase m a) b = if a = b then unlistedByte else read m b
  | [], _, a, b, _ => by simp [erase, read]
  | c :: cs, lo, a, b, hm => by
    simp only [risingFrom, Bool.and_eq_true, decide_eq_true_eq] at hm
    have ih := read_erase a b hm.2
    unfold erase
    split
    · rename_i h
      by_cases hb : a = b
      · simp only [hb, if_true]
        exact read_of_lt hm.2 (by omega)
      · simp [read, hb, h]
    · rename_i h
      simp only [read, ih]
      by_cases hc : c.1 = b
      · have : a ≠ b := by omega
        simp [hc, this]
      · simp [hc]

/-- A write is read back at its address, and every other address reads as before. -/
theorem read_write {m : Memory} (hm : wf m = true) (a b : Nat) (v : Byte) :
    read (write m a v) b = if a = b then v else read m b := by
  have hr : risingFrom 0 m = true := by
    simp only [wf, Bool.and_eq_true] at hm
    exact hm.1
  unfold write
  split
  · rename_i h
    rw [read_erase a b hr, h]
  · exact read_insert m a b v

theorem risingFrom_insert : ∀ {m : Memory} {lo a : Nat} (v : Byte), risingFrom lo m = true → lo ≤ a →
    risingFrom lo (insert m a v) = true
  | [], lo, a, v, _, h => by simp [insert, risingFrom, h]
  | c :: cs, lo, a, v, hm, h => by
    simp only [risingFrom, Bool.and_eq_true, decide_eq_true_eq] at hm
    unfold insert
    split
    · simp only [risingFrom, Bool.and_eq_true, decide_eq_true_eq]
      exact ⟨h, by omega, hm.2⟩
    · split
      · rename_i h1 h2
        simp only [risingFrom, Bool.and_eq_true, decide_eq_true_eq]
        exact ⟨h, h2 ▸ hm.2⟩
      · simp only [risingFrom, Bool.and_eq_true, decide_eq_true_eq]
        exact ⟨hm.1, risingFrom_insert v hm.2 (by omega)⟩

theorem risingFrom_erase : ∀ {m : Memory} {lo : Nat} (a : Nat), risingFrom lo m = true → risingFrom lo (erase m a) = true
  | [], _, _, _ => rfl
  | c :: cs, lo, a, hm => by
    simp only [risingFrom, Bool.and_eq_true, decide_eq_true_eq] at hm
    unfold erase
    split
    · exact risingFrom_mono (by omega) hm.2
    · simp only [risingFrom, Bool.and_eq_true, decide_eq_true_eq]
      exact ⟨hm.1, risingFrom_erase a hm.2⟩

theorem mem_insert {c : Host.Cell} : ∀ {m : Memory} {a : Nat} {v : Byte}, c ∈ insert m a v → c = (a, v) ∨ c ∈ m
  | [], a, v, h => by simpa [insert] using h
  | d :: ds, a, v, h => by
    unfold insert at h
    split at h
    · simpa using h
    · split at h
      · rcases List.mem_cons.mp h with h | h
        · exact .inl h
        · exact .inr (List.mem_cons_of_mem _ h)
      · rcases List.mem_cons.mp h with h | h
        · exact .inr (h ▸ List.mem_cons_self)
        · exact (mem_insert h).imp id (List.mem_cons_of_mem _)

theorem mem_of_mem_erase {c : Host.Cell} : ∀ {m : Memory} {a : Nat}, c ∈ erase m a → c ∈ m
  | [], _, h => h
  | d :: ds, a, h => by
    unfold erase at h
    split at h
    · exact List.mem_cons_of_mem _ h
    · rcases List.mem_cons.mp h with h | h
      · exact h ▸ List.mem_cons_self
      · exact List.mem_cons_of_mem _ (mem_of_mem_erase h)

/-- A write keeps the canonical form. -/
theorem wf_write {m : Memory} (hm : wf m = true) (a : Nat) (v : Byte) :
    wf (write m a v) = true := by
  simp only [wf, Bool.and_eq_true, List.all_eq_true, decide_eq_true_eq] at hm ⊢
  unfold write
  split
  · exact ⟨risingFrom_erase a hm.1, fun c hc => hm.2 c (mem_of_mem_erase hc)⟩
  · rename_i hv
    refine ⟨risingFrom_insert v hm.1 (Nat.zero_le _), fun c hc => ?_⟩
    rcases mem_insert hc with h | h
    · subst h
      exact hv
    · exact hm.2 c h

/-- A write inside the address space keeps memory inside it. -/
theorem within_write {space : Nat} {m : Memory} (hm : within space m = true) {a : Nat} (ha : a < space) (v : Byte) :
    within space (write m a v) = true := by
  simp only [within, List.all_eq_true, decide_eq_true_eq] at hm ⊢
  unfold write
  split
  · exact fun c hc => hm c (mem_of_mem_erase hc)
  · intro c hc
    rcases mem_insert hc with h | h
    · subst h
      exact ha
    · exact hm c h

theorem wf_nil : wf [] = true := rfl

end Sys2Proof.Machine.Memory
end

