-- ==== Sys2Proof/Laws/Operands.lean ====
section
/-! SUPPORT. Chains, cursors and groups: what a walk gives, that a cursor inside its chain never stops, and how the group sizes
of a chunk add up. -/

namespace Sys2Proof.Machine

/-! ### One part of a step after another -/

@[simp] theorem andThen_next {α β : Type} (a : α) (f : α → Res β) : andThen (.next a) f = f a := rfl

@[simp] theorem andThen_fault {α β : Type} (r : Fault) (f : α → Res β) : andThen (.fault r) f = .fault r := rfl

@[simp] theorem andThen_refused {α β : Type} (r : Refusal) (f : α → Res β) : andThen (.refused r) f = .refused r := rfl

theorem andThen_eq_next {α β : Type} {x : Res α} {f : α → Res β} {b : β} :
    andThen x f = .next b ↔ ∃ a, x = .next a ∧ f a = .next b := by
  cases x <;> simp

/-! ### Chains and cursors -/

@[simp] theorem total_nil : total [] = 0 := rfl

@[simp] theorem total_cons (l : Link) (c : Chain) : total (l :: c) = l.len.toNat + total c := by simp [total]

/-- What seeking gives: the cursor stands on a link of the chain with at least one byte left. -/
theorem seekFrom_spec : ∀ {ls : List Link} {cur cur' : Cursor} {l : Link}, ls = cur.chain.drop cur.link →
    seekFrom ls cur = some (l, cur') →
    cur'.chain = cur.chain ∧ ∃ ls', cur.chain.drop cur'.link = l :: ls' ∧ cur'.off ≠ l.len.toNat ∧
      (cur.off ≤ (ls.head?.map fun l => l.len.toNat).getD 0 →
        cur'.off < l.len.toNat ∧ total ls - cur.off = total (l :: ls') - cur'.off)
  | [], _, _, _, _, h => by simp [seekFrom] at h
  | l₀ :: ls, cur, cur', l, hd, h => by
    unfold seekFrom at h
    split at h
    · rename_i he
      have hd' : ls = cur.chain.drop (cur.link + 1) := by
        rw [← List.drop_drop, ← hd]
        rfl
      obtain ⟨h1, ls', h2, h3, h4⟩ := seekFrom_spec (cur := { cur with link := cur.link + 1, off := 0 }) hd' h
      refine ⟨h1, ls', h2, h3, fun _ => ?_⟩
      obtain ⟨h5, h6⟩ := h4 (Nat.zero_le _)
      refine ⟨h5, ?_⟩
      rw [← h6, he]
      simp
    · rename_i he
      obtain ⟨rfl, rfl⟩ : l₀ = l ∧ cur = cur' := by simpa using h
      exact ⟨rfl, ls, hd.symm, he, fun hle => ⟨by simp at hle; omega, rfl⟩⟩

/-- A chain with a byte left has a link to seek. -/
theorem seekFrom_isSome : ∀ {ls : List Link} {cur : Cursor},
    cur.off ≤ (ls.head?.map fun l => l.len.toNat).getD 0 → cur.off < total ls → ∃ r, seekFrom ls cur = some r
  | [], cur, _, h => by simp at h
  | l :: ls, cur, h, ht => by
    unfold seekFrom
    split
    · rename_i he
      exact seekFrom_isSome (Nat.zero_le _) (by simp at ht ⊢; omega)
    · exact ⟨_, rfl⟩

theorem walk_zero (sp : Nat) (cur : Cursor) : Cursor.walk sp 0 cur = .next ([], cur) := rfl

/-- One more byte of a walk. -/
theorem walk_succ_eq_next {sp n : Nat} {cur : Cursor} {r : List Nat × Cursor} :
    Cursor.walk sp (n + 1) cur = .next r ↔
      ∃ l cur' q, cur.seek = some (l, cur') ∧ l.addr + cur'.off < sp ∧
        Cursor.walk sp n { cur' with off := cur'.off + 1 } = .next q ∧ r = ((l.addr + cur'.off) :: q.1, q.2) := by
  rw [Cursor.walk]
  constructor
  · intro h
    split at h
    · simp at h
    · rename_i l cur' hs
      split at h
      · simp at h
      · rename_i hlt
        obtain ⟨q, hq, hr⟩ := andThen_eq_next.mp h
        exact ⟨l, cur', q, hs, by omega, hq, by simpa using hr.symm⟩
  · rintro ⟨l, cur', q, hs, hlt, hq, rfl⟩
    rw [hs]
    simp only []
    rw [if_neg (by omega), hq]
    rfl

/-- Every address of a walk lies inside the address space, there are as many as asked for, and the chain is the same. -/
theorem walk_spec {sp : Nat} : ∀ {n : Nat} {cur : Cursor} {r : List Nat × Cursor}, Cursor.walk sp n cur = .next r →
    r.1.length = n ∧ (∀ a ∈ r.1, a < sp) ∧ r.2.chain = cur.chain
  | 0, cur, r, h => by
    rw [walk_zero] at h
    cases h
    simp
  | n + 1, cur, r, h => by
    obtain ⟨l, cur', q, hs, hlt, hq, rfl⟩ := walk_succ_eq_next.mp h
    obtain ⟨h1, h2, h3⟩ := walk_spec hq
    have hc := (seekFrom_spec rfl hs).1
    refine ⟨by simp [h1], fun a ha => ?_, h3.trans hc⟩
    rcases List.mem_cons.mp ha with rfl | ha
    · exact hlt
    · exact h2 a ha

/-- A cursor inside its chain walks on without stopping, and stands where the counts say. -/
theorem walk_of_at {sp : Nat} : ∀ {n : Nat} {cur : Cursor} {moved tot : Nat}, cur.At sp moved tot → n ≤ tot - moved →
    ∃ as cur', Cursor.walk sp n cur = .next (as, cur') ∧ as.length = n ∧ cur'.At sp (moved + n) tot
  | 0, cur, moved, tot, hat, _ => ⟨[], cur, rfl, rfl, hat⟩
  | n + 1, cur, moved, tot, hat, hn => by
    obtain ⟨hf, ht, ho⟩ := hat
    obtain ⟨⟨l, c1⟩, hs⟩ := seekFrom_isSome (cur := cur) ho (by omega)
    obtain ⟨hc, ls', hd, hne, hx⟩ := seekFrom_spec rfl hs
    obtain ⟨hlt, htot⟩ := hx ho
    have hl : l ∈ cur.chain := List.mem_of_mem_drop (hd ▸ List.mem_cons_self)
    have hfit : l.addr + l.len.toNat ≤ sp := by
      simpa using List.all_eq_true.mp hf l hl
    have hat' : Cursor.At { c1 with off := c1.off + 1 } sp (moved + 1) tot := by
      refine ⟨by simpa [hc] using hf, ?_, ?_⟩
      · simp only [hc, hd]
        simp only [total_cons] at htot ⊢
        omega
      · simp only [hc, hd]
        simp
        omega
    obtain ⟨as, cur', hw, hlen, hat''⟩ := walk_of_at (n := n) hat' (by omega)
    refine ⟨(l.addr + c1.off) :: as, cur', ?_, by simp [hlen], by rwa [Nat.add_right_comm, Nat.add_assoc] at hat''⟩
    exact walk_succ_eq_next.mpr ⟨l, c1, (as, cur'), hs, by omega, hw, rfl⟩

/-- Two walks one after the other are one walk. -/
theorem walk_add {sp : Nat} : ∀ {m n : Nat} {cur : Cursor} {q r : List Nat × Cursor}, Cursor.walk sp m cur = .next q →
    Cursor.walk sp n q.2 = .next r → Cursor.walk sp (m + n) cur = .next (q.1 ++ r.1, r.2)
  | 0, n, cur, q, r, hq, hr => by
    rw [walk_zero] at hq
    cases hq
    simpa using hr
  | m + 1, n, cur, q, r, hq, hr => by
    obtain ⟨l, cur', q', hs, hlt, hq', rfl⟩ := walk_succ_eq_next.mp hq
    have h := walk_add hq' hr
    rw [Nat.add_right_comm]
    exact walk_succ_eq_next.mpr ⟨l, cur', _, hs, hlt, h, rfl⟩

/-- A fresh cursor has moved nothing. -/
theorem fresh_at {sp : Nat} {c : Chain} (h : chainFits sp c = true) : (Cursor.fresh c).At sp 0 (total c) :=
  ⟨h, by simp [Cursor.fresh], by simp [Cursor.fresh]⟩

/-! ### Groups -/

theorem bpw_pos (pm : PMode) : 1 ≤ bpw pm := by cases pm <;> decide

theorem groups_sum (pm : PMode) (n : Nat) : (groups pm n).sum = n := by
  unfold groups
  have h := Nat.div_add_mod' n (bpw pm)
  split <;> simp <;> omega

theorem groups_mem {pm : PMode} {n k : Nat} (h : k ∈ groups pm n) : 1 ≤ k ∧ k ≤ bpw pm := by
  have hp := bpw_pos pm
  have hm := Nat.mod_lt n hp
  unfold groups at h
  rcases List.mem_append.mp h with h | h
  · obtain ⟨_, rfl⟩ := List.mem_replicate.mp h
    omega
  · split at h
    · simp at h
    · simp at h
      omega

theorem groups_length {pm : PMode} {n : Nat} (h : n ≤ cap pm) : (groups pm n).length ≤ Config.fifoDepth := by
  have hp := bpw_pos pm
  unfold cap at h
  unfold groups
  have hd := Nat.div_add_mod' n (bpw pm)
  generalize n / bpw pm = q at *
  generalize hr : n % bpw pm = r at *
  have hle : q * bpw pm + r ≤ Config.fifoDepth * bpw pm := by rw [hd, Nat.mul_comm]; exact h
  split
  · have : q ≤ Config.fifoDepth := Nat.le_of_mul_le_mul_right (by omega : q * bpw pm ≤ Config.fifoDepth * bpw pm) hp
    simpa using this
  · have : q < Config.fifoDepth := Nat.lt_of_mul_lt_mul_right (by omega : q * bpw pm < Config.fifoDepth * bpw pm)
    simp
    omega

theorem unslot_length (pm : PMode) (k : Nat) (w : Word) : (unslot pm k w).length = k := by simp [unslot]

end Sys2Proof.Machine
end

