-- ==== Sys2Proof/Laws/Ops.lean ====
section
/-! SUPPORT. What each shared operation can do: the bytes it moves, the fields it writes, and what it leaves alone. -/

namespace Sys2Proof.Machine

/-- The trace of a later state extends the trace of an earlier one by events that all satisfy a test. -/
def Emits (p : Event → Bool) (s t : State) : Prop := ∃ es, t.trace = s.trace ++ es ∧ es.all p = true

theorem Emits.refl (p : Event → Bool) (s : State) : Emits p s s := ⟨[], by simp⟩

theorem Emits.of_eq {p : Event → Bool} {s t : State} (h : t.trace = s.trace) : Emits p s t := ⟨[], by simp [h]⟩

theorem Emits.trans {p : Event → Bool} {s t u : State} (h : Emits p s t) (h' : Emits p t u) : Emits p s u := by
  obtain ⟨es, he, hp⟩ := h
  obtain ⟨es', he', hp'⟩ := h'
  exact ⟨es ++ es', by rw [he', he, List.append_assoc], by simp [hp, hp']⟩

theorem Emits.one {p : Event → Bool} {s t : State} {e : Event} (h : t.trace = s.trace ++ [e]) (he : p e = true) :
    Emits p s t := ⟨[e], h, by simp [he]⟩

theorem Emits.mono {p q : Event → Bool} {s t : State} (h : Emits p s t) (hpq : ∀ e, p e = true → q e = true) :
    Emits q s t := by
  obtain ⟨es, he, hp⟩ := h
  exact ⟨es, he, List.all_eq_true.mpr fun e h => hpq e (List.all_eq_true.mp hp e h)⟩

/-! ### The memory port -/

theorem memReads_spec : ∀ (as : List Nat) (s : State),
    (memReads as s).params = s.params ∧ (memReads as s).block = s.block ∧ (memReads as s).mem = s.mem ∧
    (memReads as s).core = s.core ∧ (memReads as s).draws = s.draws ∧ (memReads as s).port = s.port ∧
    (memReads as s).trace = s.trace ++ as.map fun a => .memRead a (Memory.read s.mem a)
  | [], s => by simp [memReads]
  | a :: as, s => by
    obtain ⟨h1, h2, h3, h4, h5, h6, h7⟩ := memReads_spec as (emit (.memRead a (Memory.read s.mem a)) s)
    simp only [memReads]
    exact ⟨by simp [h1], by simp [h2], by simp [h3], by simp [h4], by simp [h5], by simp [h6], by simp [h7]⟩

@[simp] theorem memReads_params (as : List Nat) (s : State) : (memReads as s).params = s.params := (memReads_spec as s).1
@[simp] theorem memReads_block (as : List Nat) (s : State) : (memReads as s).block = s.block := (memReads_spec as s).2.1
@[simp] theorem memReads_mem (as : List Nat) (s : State) : (memReads as s).mem = s.mem := (memReads_spec as s).2.2.1
@[simp] theorem memReads_core (as : List Nat) (s : State) : (memReads as s).core = s.core := (memReads_spec as s).2.2.2.1
@[simp] theorem memReads_draws (as : List Nat) (s : State) : (memReads as s).draws = s.draws := (memReads_spec as s).2.2.2.2.1
@[simp] theorem memReads_port (as : List Nat) (s : State) : (memReads as s).port = s.port := (memReads_spec as s).2.2.2.2.2.1
@[simp] theorem memReads_trace (as : List Nat) (s : State) :
    (memReads as s).trace = s.trace ++ as.map fun a => .memRead a (Memory.read s.mem a) := (memReads_spec as s).2.2.2.2.2.2

theorem memWrites_spec : ∀ (cs : List (Nat × Byte)) (s : State),
    (memWrites cs s).params = s.params ∧ (memWrites cs s).block = s.block ∧
    (memWrites cs s).core = s.core ∧ (memWrites cs s).draws = s.draws ∧ (memWrites cs s).port = s.port ∧
    (memWrites cs s).trace = s.trace ++ cs.map (fun c => .memWrite c.1 c.2) ∧
    (memWrites cs s).mem = cs.foldl (fun m c => Memory.write m c.1 c.2) s.mem
  | [], s => by simp [memWrites]
  | c :: cs, s => by
    obtain ⟨h1, h2, h3, h4, h5, h6, h7⟩ := memWrites_spec cs (memWrite c.1 c.2 s)
    simp only [memWrites]
    exact ⟨by simp [h1], by simp [h2], by simp [h3], by simp [h4], by simp [h5], by simp [h6], by simp [h7]⟩

@[simp] theorem memWrites_params (cs : List (Nat × Byte)) (s : State) : (memWrites cs s).params = s.params :=
  (memWrites_spec cs s).1
@[simp] theorem memWrites_block (cs : List (Nat × Byte)) (s : State) : (memWrites cs s).block = s.block :=
  (memWrites_spec cs s).2.1
@[simp] theorem memWrites_core (cs : List (Nat × Byte)) (s : State) : (memWrites cs s).core = s.core :=
  (memWrites_spec cs s).2.2.1
@[simp] theorem memWrites_draws (cs : List (Nat × Byte)) (s : State) : (memWrites cs s).draws = s.draws :=
  (memWrites_spec cs s).2.2.2.1
@[simp] theorem memWrites_port (cs : List (Nat × Byte)) (s : State) : (memWrites cs s).port = s.port :=
  (memWrites_spec cs s).2.2.2.2.1

theorem memWrites_wf : ∀ {cs : List (Nat × Byte)} {s : State}, Memory.wf s.mem = true → Memory.wf (memWrites cs s).mem = true
  | [], _, h => h
  | c :: cs, s, h => by
    rw [memWrites]
    exact memWrites_wf (Memory.wf_write h _ _)

theorem memWrites_within {space : Nat} : ∀ {cs : List (Nat × Byte)} {s : State}, Memory.within space s.mem = true →
    (∀ c ∈ cs, c.1 < space) → Memory.within space (memWrites cs s).mem = true
  | [], _, h, _ => h
  | c :: cs, s, h, hc => by
    rw [memWrites]
    exact memWrites_within (Memory.within_write h (hc c List.mem_cons_self) _) fun d hd => hc d (List.mem_cons_of_mem _ hd)

/-- Writes leave every other address alone. -/
theorem memWrites_read_of_not_mem : ∀ {cs : List (Nat × Byte)} {s : State} {a : Nat}, Memory.wf s.mem = true →
    (∀ c ∈ cs, c.1 ≠ a) →
    Memory.read (memWrites cs s).mem a = Memory.read s.mem a
  | [], _, _, _, _ => rfl
  | c :: cs, s, a, h, ha => by
    rw [memWrites, memWrites_read_of_not_mem (Memory.wf_write h _ _) fun d hd => ha d (List.mem_cons_of_mem _ hd)]
    rw [memWrite_mem, Memory.read_write h, if_neg (ha c List.mem_cons_self)]

theorem mapChains_spec : ∀ (cs : List Chain) (s : State),
    (mapChains cs s).2.params = s.params ∧ (mapChains cs s).2.block = s.block ∧ (mapChains cs s).2.mem = s.mem ∧
    (mapChains cs s).2.port = s.port ∧ ((mapChains cs s).1 = true → ∀ c ∈ cs, chainFits s.params.addrSpace c = true) ∧
    Emits isMapQuery s (mapChains cs s).2
  | [], s => by simp [mapChains, Emits.refl]
  | c :: cs, s => by
    unfold mapChains
    split
    · rename_i h
      obtain ⟨h1, h2, h3, h4, h5, h6⟩ := mapChains_spec cs (mapChain c s)
      refine ⟨by simp [h1], by simp [h2], by simp [h3], by simp [h4], fun hok d hd => ?_, ?_⟩
      · rcases List.mem_cons.mp hd with rfl | hd
        · unfold mapAnswer at h
          simp only [Bool.and_eq_true] at h
          exact h.1
        · simpa using h5 hok d hd
      · exact (Emits.one (mapChain_trace c s) rfl).trans h6
    · exact ⟨by simp, by simp, by simp, by simp, by simp, Emits.one (mapChain_trace c s) rfl⟩

/-! ### Cursors over memory -/

theorem copyOut_eq_next {cur : Cursor} {n : Nat} {s : State} {r : List Byte × Cursor × State} :
    copyOut cur n s = .next r ↔ ∃ q, Cursor.walk s.params.addrSpace n cur = .next q ∧ r = (readBytes q.1 s, q.2, memReads q.1 s) := by
  unfold copyOut
  rw [andThen_eq_next]
  constructor
  · rintro ⟨q, hq, h⟩
    exact ⟨q, hq, by simpa using h.symm⟩
  · rintro ⟨q, hq, rfl⟩
    exact ⟨q, hq, rfl⟩

theorem copyIn_eq_next {cur : Cursor} {bs : List Byte} {s : State} {r : Cursor × State} :
    copyIn cur bs s = .next r ↔
      ∃ q, Cursor.walk s.params.addrSpace bs.length cur = .next q ∧ r = (q.2, memWrites (q.1.zip bs) s) := by
  unfold copyIn
  rw [andThen_eq_next]
  constructor
  · rintro ⟨q, hq, h⟩
    exact ⟨q, hq, by simpa using h.symm⟩
  · rintro ⟨q, hq, rfl⟩
    exact ⟨q, hq, rfl⟩

/-! ### Take -/

theorem takes_eq_true {h : Handle} {s : State} : takes h s = true ↔ h ≠ 0 ∧ s.block.slot = h := by
  simp [takes]

end Sys2Proof.Machine
end

