-- ==== Sys2Proof/Laws/Families.lean ====
section
/-! SUPPORT. What the codec operations, the chip-select sequencer, the chunks and the drain do: one lemma for each. -/

namespace Sys2Proof.Machine

/-- The events a pump may emit: buffer reads and pushes through FIFO_HOLD. -/
def isPump : Event → Bool
  | .memRead _ _ => true
  | .regWrite .fifoHold _ => true
  | _ => false

/-! ### Codec operations -/

/-- A codec write that completes: it touches no field but the core and the trace, and its cursor is the walk's. -/
theorem codecWriteGroups_spec {pm : PMode} : ∀ {ks : List Nat} {cur : Cursor} {s : State} {r : Cursor × State},
    codecWriteGroups pm ks cur s = .next r →
    r.2.params = s.params ∧ r.2.block = s.block ∧ r.2.mem = s.mem ∧ r.2.port = s.port ∧ r.1.chain = cur.chain ∧
    Emits isPump s r.2
  | [], cur, s, r, h => by
    cases h
    exact ⟨rfl, rfl, rfl, rfl, rfl, Emits.refl _ _⟩
  | k :: ks, cur, s, r, h => by
    obtain ⟨q, hq, h⟩ := andThen_eq_next.mp h
    obtain ⟨w, hw, rfl⟩ := copyOut_eq_next.mp hq
    obtain ⟨h1, h2, h3, h4, h5, h6⟩ := codecWriteGroups_spec h
    refine ⟨by simp [h1], by simp [h2], by simp [h3], by simp [h4], h5.trans (walk_spec hw).2.2, Emits.trans ?_ h6⟩
    exact ⟨w.1.map (fun a => .memRead a (Memory.read s.mem a)) ++
      [.regWrite .fifoHold (txWord s.params.wordLayout pm (slotOf pm (readBytes w.1 s)))], by simp, by simp [isPump]⟩

/-- A codec write inside its chain completes, and its cursor stands where the counts say. -/
theorem codecWriteGroups_of_at {pm : PMode} : ∀ {ks : List Nat} {cur : Cursor} {s : State} {moved tot : Nat},
    cur.At s.params.addrSpace moved tot → ks.sum ≤ tot - moved →
    ∃ r, codecWriteGroups pm ks cur s = .next r ∧ r.1.At s.params.addrSpace (moved + ks.sum) tot
  | [], cur, s, moved, tot, hat, _ => ⟨(cur, s), rfl, hat⟩
  | k :: ks, cur, s, moved, tot, hat, hk => by
    rw [List.sum_cons] at hk
    obtain ⟨as, cur', hw, -, hat'⟩ := walk_of_at (n := k) hat (by omega)
    have hc := copyOut_eq_next (s := s).mpr ⟨_, hw, rfl⟩
    obtain ⟨r, hr, har⟩ := codecWriteGroups_of_at (pm := pm) (ks := ks)
      (s := regWrite .fifoHold (txWord s.params.wordLayout pm (slotOf pm (readBytes as s))) (memReads as s)) (by simpa using hat') (by omega)
    refine ⟨r, ?_, by simpa [Nat.add_assoc] using har⟩
    unfold codecWriteGroups
    rw [hc]
    exact hr

theorem placeholderGroups_spec {pm : PMode} : ∀ (ks : List Nat) (s : State),
    (placeholderGroups pm ks s).params = s.params ∧ (placeholderGroups pm ks s).block = s.block ∧
    (placeholderGroups pm ks s).mem = s.mem ∧ (placeholderGroups pm ks s).port = s.port ∧
    Emits isPump s (placeholderGroups pm ks s)
  | [], s => ⟨rfl, rfl, rfl, rfl, Emits.refl _ _⟩
  | k :: ks, s => by
    obtain ⟨h1, h2, h3, h4, h5⟩ := placeholderGroups_spec (pm := pm) ks (regWrite .fifoHold (txWord s.params.wordLayout pm (placeholder pm k)) s)
    unfold placeholderGroups
    exact ⟨by simp [h1], by simp [h2], by simp [h3], by simp [h4], (Emits.one (regWrite_trace _ _ s) rfl).trans h5⟩

/-! ### The chip-select sequencer -/

/-- The poll reads STAT and stalls, and leaves everything but the core alone. -/
theorem pollLoop_spec : ∀ (n : Nat) (s : State),
    (pollLoop n s).2.params = s.params ∧ (pollLoop n s).2.block = s.block ∧ (pollLoop n s).2.mem = s.mem ∧
    (pollLoop n s).2.port = s.port ∧ Emits (fun e => isStatRead e || isStall e) s (pollLoop n s).2
  | 0, s => ⟨rfl, rfl, rfl, rfl, Emits.refl _ _⟩
  | n + 1, s => by
    unfold pollLoop
    split
    · obtain ⟨h1, h2, h3, h4, h5⟩ := pollLoop_spec n (stall 3 (regRead .stat s))
      refine ⟨by simp [h1], by simp [h2], by simp [h3], by simp [h4], Emits.trans ?_ h5⟩
      exact ⟨[.regRead .stat (regValue .stat s), .stall 3], by simp, rfl⟩
    · exact ⟨by simp, by simp, by simp, by simp, Emits.one (regRead_trace _ s) rfl⟩

@[simp] theorem pollBusy_params (s : State) : (pollBusy s).2.params = s.params := (pollLoop_spec _ s).1
@[simp] theorem pollBusy_block (s : State) : (pollBusy s).2.block = s.block := (pollLoop_spec _ s).2.1
@[simp] theorem pollBusy_mem (s : State) : (pollBusy s).2.mem = s.mem := (pollLoop_spec _ s).2.2.1
@[simp] theorem pollBusy_port (s : State) : (pollBusy s).2.port = s.port := (pollLoop_spec _ s).2.2.2.1

@[simp] theorem assertCs_params (img : Word) (s : State) : (assertCs img s).params = s.params := by
  simp [assertCs, assertCsComplete, assertCsBegin]
@[simp] theorem assertCs_block (img : Word) (s : State) :
    (assertCs img s).block = { s.block with shadow0 := img, shadow1 := ieOff s.params, cs := .asserted } := by
  simp [assertCs, assertCsComplete, assertCsBegin]
@[simp] theorem assertCs_mem (img : Word) (s : State) : (assertCs img s).mem = s.mem := by
  simp [assertCs, assertCsComplete, assertCsBegin]
@[simp] theorem assertCs_port (img : Word) (s : State) : (assertCs img s).port = s.port := by
  simp [assertCs, assertCsComplete, assertCsBegin]

@[simp] theorem deassertBegin_params (s : State) : (deassertBegin s).params = s.params := by simp [deassertBegin]
@[simp] theorem deassertBegin_block (s : State) :
    (deassertBegin s).block =
      { s.block with shadow0 := zeroWidth s.params.layout s.block.shadow0, cs := .releasing } := by simp [deassertBegin]
@[simp] theorem deassertBegin_mem (s : State) : (deassertBegin s).mem = s.mem := by simp [deassertBegin]
@[simp] theorem deassertBegin_port (s : State) : (deassertBegin s).port = s.port := by simp [deassertBegin]

@[simp] theorem fifoRearm_params (s : State) : (fifoRearm s).params = s.params := by simp [fifoRearm]
@[simp] theorem fifoRearm_block (s : State) :
    (fifoRearm s).block = { s.block with shadow0 := fifoReset s.params.layout s.block.shadow0 } := by simp [fifoRearm]
@[simp] theorem fifoRearm_mem (s : State) : (fifoRearm s).mem = s.mem := by simp [fifoRearm]
@[simp] theorem fifoRearm_port (s : State) : (fifoRearm s).port = s.port := by simp [fifoRearm]
@[simp] theorem fifoRearm_trace (s : State) :
    (fifoRearm s).trace = s.trace ++ [.regWrite .cntl0 (fifoReset s.params.layout s.block.shadow0)] := by simp [fifoRearm]

@[simp] theorem deassertComplete_params (s : State) : (deassertComplete s).params = s.params := by simp [deassertComplete]
@[simp] theorem deassertComplete_block (s : State) :
    (deassertComplete s).block =
      { s.block with shadow0 := fifoReset s.params.layout s.block.shadow0, cs := .released } := by simp [deassertComplete]
@[simp] theorem deassertComplete_mem (s : State) : (deassertComplete s).mem = s.mem := by simp [deassertComplete]
@[simp] theorem deassertComplete_port (s : State) : (deassertComplete s).port = s.port := by simp [deassertComplete]

/-! ### Chunks -/

/-- The bytes the next write chunk moves (43_transfer_state_machine.md R229). -/
abbrev writeChunk (b : Block) : Nat := min (b.wrTotal - b.wrDone) (cap b.pmode)

/-- The bytes the next read chunk clocks (43_transfer_state_machine.md R232). -/
abbrev readChunk (b : Block) : Nat := min (b.rdTotal - b.rdDone) (cap b.pmode)

/-- A write pump that completes. -/
theorem pumpWrite_spec {s t : State} (h : pumpWrite s = .next t) :
    t.params = s.params ∧ t.mem = s.mem ∧ t.port = s.port ∧ Emits isPump s t ∧
    ∃ cur, cur.chain = s.block.wr.chain ∧
      t.block = { s.block with wr := cur, wrDone := s.block.wrDone + writeChunk s.block,
                               inflight := groups s.block.pmode (writeChunk s.block) } := by
  obtain ⟨r, hr, ht⟩ := andThen_eq_next.mp h
  obtain ⟨h1, h2, h3, h4, h5, h6⟩ := codecWriteGroups_spec hr
  cases ht
  exact ⟨by simp [h1], by simp [h3], by simp [h4], h6, r.1, h5, by simp [h2]⟩

/-- A write pump with its cursor at its counts completes, and the cursor follows the counts. -/
theorem pumpWrite_of_at {s : State} (hat : s.block.wr.At s.params.addrSpace s.block.wrDone s.block.wrTotal) :
    ∃ t, pumpWrite s = .next t ∧ t.block.wr.At s.params.addrSpace t.block.wrDone t.block.wrTotal := by
  obtain ⟨r, hr, har⟩ := codecWriteGroups_of_at (pm := s.block.pmode) (s := s)
    (ks := groups s.block.pmode (writeChunk s.block)) hat (by rw [groups_sum]; exact Nat.min_le_left _ _)
  rw [groups_sum] at har
  obtain ⟨-, h2, -⟩ := codecWriteGroups_spec hr
  refine ⟨_, andThen_eq_next.mpr ⟨r, hr, rfl⟩, ?_⟩
  simpa [h2] using har

@[simp] theorem pumpRead_params (s : State) : (pumpRead s).params = s.params := (placeholderGroups_spec _ s).1
@[simp] theorem pumpRead_block (s : State) :
    (pumpRead s).block = { s.block with inflight := groups s.block.pmode (readChunk s.block) } := by
  simp [pumpRead, placeholderWrite, placeholderGroups_spec]
@[simp] theorem pumpRead_mem (s : State) : (pumpRead s).mem = s.mem := (placeholderGroups_spec _ s).2.2.1
@[simp] theorem pumpRead_port (s : State) : (pumpRead s).port = s.port := (placeholderGroups_spec _ s).2.2.2.1

/-! ### Issue -/

/-- The line is reshaped or asserted: only the shadows and the record of the line change, and the line ends asserted. -/
theorem reshapeOrAssert_spec (img : Word) (s : State) :
    (reshapeOrAssert img s).block =
      { s.block with shadow0 := img, shadow1 := if s.block.cs = .asserted then s.block.shadow1 else ieOff s.params,
                     cs := .asserted } ∧
    (reshapeOrAssert img s).params = s.params ∧ (reshapeOrAssert img s).mem = s.mem ∧
    (reshapeOrAssert img s).port = s.port := by
  unfold reshapeOrAssert
  split
  · rename_i h
    simp [← h]
  · simp

/-- The request record and the shape an issue writes. -/
theorem issueStart_spec (h : Handle) (t : Nat) (tc : TargetConfig) (x : Transfer) (s : State) :
    (issueStart h t tc x s).block =
      { requestRecord s.params h t tc x s.block with
        shadow0 := img0 s.params tc (selectMode s.params tc.mode x.firstLength)
        shadow1 := if s.block.cs = .asserted then s.block.shadow1 else ieOff s.params
        cs := .asserted } ∧
    (issueStart h t tc x s).params = s.params ∧ (issueStart h t tc x s).mem = s.mem ∧
    (issueStart h t tc x s).port = s.port := by
  obtain ⟨h1, h2, h3, h4⟩ := reshapeOrAssert_spec (img0 s.params tc (selectMode s.params tc.mode x.firstLength))
    (onBlock (requestRecord s.params h t tc x) s)
  exact ⟨h1, h2, h3, h4⟩

/-! ### Drain and done -/

/-- The events a drain may emit. -/
def isDrain : Event → Bool
  | .regRead .stat _ => true
  | .regRead .fifoIo _ => true
  | .memWrite _ _ => true
  | _ => false

/-- One popped word: outside a read phase nothing more happens; inside one, k bytes go through the read cursor. -/
theorem takeWord_spec {k : Nat} {w : Word} {s t : State} (h : takeWord k w s = .next t) :
    t.params = s.params ∧ t.port = s.port ∧ Emits isDrain s t ∧
    ((readPhase s.block.xstate = false ∧ t = s) ∨
     (readPhase s.block.xstate = true ∧ ∃ q, Cursor.walk s.params.addrSpace k s.block.rd = .next q ∧
      t.block = { s.block with rd := q.2, rdDone := s.block.rdDone + k } ∧
      t.mem = (memWrites (q.1.zip (unslot s.block.pmode k (rxSlot s.params.wordLayout s.block.pmode k w))) s).mem)) := by
  unfold takeWord at h
  split at h
  · rename_i hp
    obtain ⟨r, hr, ht⟩ := andThen_eq_next.mp h
    obtain ⟨q, hq, rfl⟩ := copyIn_eq_next.mp hr
    rw [unslot_length] at hq
    cases ht
    refine ⟨by simp, by simp, ⟨_, by simp [memWrites_spec]; rfl, ?_⟩, .inr ⟨hp, q, hq, by simp, by simp⟩⟩
    simp [isDrain]
  · rename_i hp
    cases h
    exact ⟨rfl, rfl, Emits.refl _ _, .inl ⟨by simpa using hp, rfl⟩⟩

@[simp] theorem storedBytes_nil (x : XState) : storedBytes x [] = 0 := by simp [storedBytes]

/-- A drain that answers: the words popped are a front part of the list, the bytes stored are the walk of the read cursor, and
nothing else changes. -/
theorem drainLoop_spec : ∀ {ks : List Nat} {s : State} {r : DrainResult × State},
    drainLoop ks s = .next r → s.block.inflight = ks →
    r.2.params = s.params ∧ r.2.port = s.port ∧ Emits isDrain s r.2 ∧
    ∃ popped rest as cur, ks = popped ++ rest ∧ (r.1 = .full ↔ rest = []) ∧
      Cursor.walk s.params.addrSpace (storedBytes s.block.xstate popped) s.block.rd = .next (as, cur) ∧
      r.2.block = { s.block with inflight := rest, rd := cur,
                                 rdDone := s.block.rdDone + storedBytes s.block.xstate popped } ∧
      (Memory.wf s.mem = true → Memory.wf r.2.mem = true ∧
        ∀ a, a ∉ as → Memory.read r.2.mem a = Memory.read s.mem a) ∧
      (Memory.within s.params.addrSpace s.mem = true → Memory.within s.params.addrSpace r.2.mem = true) ∧
      (readPhase s.block.xstate = false → r.2.mem = s.mem)
  | [], s, r, h, hi => by
    cases h
    refine ⟨rfl, rfl, Emits.refl _ _, [], [], [], s.block.rd, rfl, by simp, by rw [storedBytes_nil, walk_zero], ?_, ?_, id, fun _ => rfl⟩
    · simp only [storedBytes_nil, Nat.add_zero]
      rw [← hi]
    · exact fun h => ⟨h, fun _ _ => rfl⟩
  | k :: ks, s, r, h, hi => by
    unfold drainLoop at h
    split at h
    · cases h
      refine ⟨by simp, by simp, Emits.one (regRead_trace _ s) rfl, [], k :: ks, [], s.block.rd, rfl, by simp,
        by rw [storedBytes_nil, walk_zero], ?_, ?_, by simp, by simp⟩
      · simp only [regRead_block, storedBytes_nil, Nat.add_zero, ← hi]
      · exact fun h => ⟨by simpa using h, fun _ _ => by simp⟩
    · obtain ⟨t, ht, h⟩ := andThen_eq_next.mp h
      have htr : Emits isDrain s (setInflight ks (regRead .fifoIo (regRead .stat s))) :=
        ⟨[.regRead .stat (regValue .stat s), .regRead .fifoIo (regValue .fifoIo (regRead .stat s))], by simp, rfl⟩
      obtain ⟨p1, p2, p4, p3⟩ := takeWord_spec ht
      obtain ⟨hph, rfl⟩ | ⟨hph, q, hq, hb, hm⟩ := p3
      · obtain ⟨i1, i2, i3, popped, rest, as, cur, e1, e2, e3, e4, e5, e7, e6⟩ := drainLoop_spec h (by simp)
        simp only [setInflight_block, regRead_block] at hph e3 e4
        refine ⟨by simp [i1], by simp [i2], htr.trans i3, k :: popped, rest, as, cur, by simp [e1], e2, ?_, ?_, ?_, ?_, ?_⟩
        · simpa [storedBytes, hph] using e3
        · rw [e4]
          simp [storedBytes, hph]
        · simpa using e5
        · simpa using e7
        · simpa using e6
      · simp only [setInflight_block, setInflight_params, regRead_block, regRead_params] at hph hq hb p1
        obtain ⟨i1, i2, i3, popped, rest, as, cur, e1, e2, e3, e4, e5, e7, e6⟩ := drainLoop_spec h (by rw [hb])
        rw [hb, p1] at e3
        rw [hb] at e4
        rw [p1] at e7
        simp only [storedBytes, hph, if_true] at e3 e4
        obtain ⟨hlen, hsp, -⟩ := walk_spec hq
        refine ⟨by simp [i1, p1], by simp [i2, p2], htr.trans (p4.trans i3), k :: popped, rest, q.1 ++ as, cur, by simp [e1],
          e2, ?_, ?_, ?_, ?_, ?_⟩
        · simpa [storedBytes, hph] using walk_add hq e3
        · rw [e4]
          simp [storedBytes, hph, Nat.add_assoc]
        · intro hw
          have hc : ∀ c ∈ q.1.zip (unslot s.block.pmode k (rxSlot s.params.wordLayout s.block.pmode k (regValue .fifoIo (regRead .stat s)))),
              c.1 ∈ q.1 := fun c hc => (List.of_mem_zip hc).1
          simp only [setInflight_block, setInflight_params, regRead_block, regRead_params] at hm
          have hwt : Memory.wf t.mem = true := by
            rw [hm]
            exact memWrites_wf (by simpa using hw)
          obtain ⟨w1, w2⟩ := e5 hwt
          refine ⟨w1, fun a ha => ?_⟩
          rw [w2 a fun h => ha (List.mem_append.mpr (.inr h)), hm]
          rw [memWrites_read_of_not_mem (by simpa using hw)
            fun c h hca => ha (List.mem_append.mpr (.inl (by rw [← hca]; exact hc c h)))]
          simp
        · intro hin
          refine e7 ?_
          rw [hm]
          exact memWrites_within (by simpa using hin) fun c h => hsp _ (List.of_mem_zip h).1
        · intro h
          rw [hph] at h
          cases h

/-- A drain whose read cursor holds the bytes in flight answers, and the cursor follows the counts. -/
theorem drainLoop_of_at : ∀ {ks : List Nat} {s : State}, s.block.inflight = ks →
    s.block.rd.At s.params.addrSpace s.block.rdDone s.block.rdTotal →
    storedBytes s.block.xstate ks ≤ s.block.rdTotal - s.block.rdDone →
    ∃ r, drainLoop ks s = .next r ∧ r.2.block.rd.At s.params.addrSpace r.2.block.rdDone r.2.block.rdTotal
  | [], s, _, hat, _ => ⟨(.full, s), rfl, hat⟩
  | k :: ks, s, hi, hat, hn => by
    unfold drainLoop
    split
    · exact ⟨_, rfl, by simpa using hat⟩
    · unfold takeWord
      simp only [setInflight_block, regRead_block]
      split
      · rename_i hph
        simp only [storedBytes, hph, if_true, List.sum_cons] at hn
        obtain ⟨as, cur, hw, -, hat'⟩ := walk_of_at (n := k) hat (by omega)
        simp only [codecExtract, copyIn, unslot_length, setInflight_params, regRead_params, hw, andThen_next]
        have h := drainLoop_of_at (ks := ks)
          (s := countRead cur k (memWrites (as.zip (unslot s.block.pmode k (rxSlot s.params.wordLayout s.block.pmode k
            (regValue .fifoIo (regRead .stat s))))) (setInflight ks (regRead .fifoIo (regRead .stat s)))))
          (by simp) (by simpa using hat') (by simp [storedBytes, hph]; omega)
        simpa using h
      · rename_i hph
        simp only [andThen_next]
        have h := drainLoop_of_at (ks := ks) (s := setInflight ks (regRead .fifoIo (regRead .stat s)))
          (by simp) (by simpa using hat) (by simp [storedBytes, hph])
        simpa using h

/-- Done quiets the interrupt, releases the line unless it is locked, and queues the bottom half. -/
theorem done_block (s : State) :
    (done s).block =
      if s.block.locked then { s.block with shadow1 := ieOff s.params, bhFor := s.block.slot }
      else { s.block with shadow1 := ieOff s.params, bhFor := s.block.slot,
                          shadow0 := zeroWidth s.params.layout s.block.shadow0, cs := .releasing } := by
  unfold done
  by_cases h : s.block.locked <;> simp [h]

@[simp] theorem done_params (s : State) : (done s).params = s.params := by
  unfold done
  split <;> simp
@[simp] theorem done_mem (s : State) : (done s).mem = s.mem := by
  unfold done
  split <;> simp
@[simp] theorem done_port (s : State) : (done s).port = s.port := by
  unfold done
  split <;> simp

end Sys2Proof.Machine
end

