-- ==== Sys2Proof/Laws/Flags.lean ====
section
/-! SUPPORT. Bits of the control words: what the word modifiers and the compiled words say about CLEAR_FIFO and DONE_IE under any
legal layout. -/

namespace Sys2Proof.Machine

theorem layout_valid {p : Params} (h : p.valid = true) : p.layout.valid = true := by
  simp only [Params.valid, Bool.and_eq_true] at h
  exact h.1.1.1.1.1.2

theorem clearFifo_lt {l : RegLayout} (h : l.valid = true) : l.clearFifo < 32 := by
  simp [RegLayout.valid, RegLayout.cntl0Fields, fieldsFit] at h
  omega

theorem doneIe_lt {l : RegLayout} (h : l.valid = true) : l.doneIe < 32 := by
  simp [RegLayout.valid, RegLayout.cntl1Fields, fieldsFit] at h
  omega

theorem doneIe_ne_msbIn {l : RegLayout} (h : l.valid = true) : l.doneIe ≠ l.msbIn := by
  simp [RegLayout.valid, RegLayout.cntl1Fields, fieldsFit, fieldsApart] at h
  omega

theorem testBit_one_of_ne {n : Nat} (h : n ≠ 0) : Nat.testBit 1 n = false := by
  rw [show (1 : Nat) = 2 ^ 0 from rfl, Nat.testBit_two_pow]
  simpa using fun h' => h h'.symm

theorem getLsbD_fieldMask_one (i j : Nat) : (fieldMask i 1).getLsbD j = (decide (j < 32) && decide (i = j)) := by
  simp only [fieldMask, BitVec.getLsbD_ofNat, Nat.testBit_shiftLeft]
  by_cases h : i = j
  · subst h
    simp
  · by_cases hj : j ≥ i
    · have : j - i ≠ 0 := by omega
      simp [h, testBit_one_of_ne this]
    · simp [hj, h]

theorem getLsbD_setBit (w : Word) (i j : Nat) :
    (setBit w i).getLsbD j = (w.getLsbD j || (decide (j < 32) && decide (i = j))) := by
  simp [setBit, getLsbD_fieldMask_one]

theorem clearFifoOf_fifoReset {l : RegLayout} (h : l.valid = true) (v : Word) : clearFifoOf l (fifoReset l v) = true := by
  simp [clearFifoOf, fifoReset, getLsbD_setBit, clearFifo_lt h]

theorem clearFifoOf_resetShape {l : RegLayout} (h : l.valid = true) : clearFifoOf l (resetShape l) = true := by
  simp [clearFifoOf, resetShape, pack0, flag, BitVec.getLsbD_ofNat, clearFifo_lt h, Nat.testBit_shiftLeft]

theorem doneIeOf_ieOn {p : Params} (h : p.valid = true) : doneIeOf p.layout (ieOn p) = true := by
  simp [doneIeOf, ieOn, getLsbD_setBit, doneIe_lt (layout_valid h)]

theorem doneIeOf_ieOff {p : Params} (h : p.valid = true) : doneIeOf p.layout (ieOff p) = false := by
  have hne := doneIe_ne_msbIn (layout_valid h)
  simp only [doneIeOf, ieOff, pack1, compileIe, flag, BitVec.getLsbD_ofNat]
  simp only [if_true, Bool.false_eq_true, if_false, Nat.zero_shiftLeft, Nat.or_zero, Nat.testBit_shiftLeft]
  by_cases hj : p.layout.doneIe ≥ p.layout.msbIn
  · have : p.layout.doneIe - p.layout.msbIn ≠ 0 := by omega
    simp [testBit_one_of_ne this]
  · simp [hj]

theorem doneIeOf_zero (l : RegLayout) : doneIeOf l 0 = false := by simp [doneIeOf]

end Sys2Proof.Machine
end

