-- ==== Sys2Proof/Laws/Gates.lean ====
section
/-! SUPPORT. The tests before a command's own effect: what a gate that answers a next state can have done, and when a command
passes every gate. -/

namespace Sys2Proof.Machine

/-- A fault-free block runs the body. -/
theorem unlessStuck_pass {s : State} (hf : s.block.fault = none) (body : State → Res State) : unlessStuck s body = body s := by
  simp [unlessStuck, hf]

/-- A command past its handle and busy tests runs its body. -/
theorem issueGate_pass {needsIdle : Bool} {cmd : Word} {h : Handle} {s : State} (body : State → Res State)
    (hf : s.block.fault = none) (h0 : h ≠ 0)
    (hi : needsIdle = true → s.block.xstate = .invalid ∧ s.block.bhFor = 0) :
    issueGate needsIdle cmd h s body = body s := by
  unfold issueGate
  rw [unlessStuck_pass hf, if_neg h0]
  cases needsIdle
  · rfl
  · simp [hi rfl]

/-- A target index inside the table runs the body. -/
theorem targetGate_pass {t : Nat} {h : Handle} {s : State} (body : State → Res State) (ht : t < s.params.numTargetSlots) :
    targetGate t h s body = body s := by
  unfold targetGate
  rw [if_neg (by omega)]

/-- What an issue gate that answers a next state did: one of the two host-protocol faults, or the body. -/
theorem issueGate_next {needsIdle : Bool} {cmd : Word} {h : Handle} {s t : State} {body : State → Res State}
    (hx : issueGate needsIdle cmd h s body = .next t) :
    s.block.fault = none ∧
      (t = raise (.zeroHandle cmd) s ∨ t = raise (.busy cmd h) s ∨
        (h ≠ 0 ∧ (needsIdle = true → s.block.xstate = .invalid ∧ s.block.bhFor = 0) ∧ body s = .next t)) := by
  unfold issueGate unlessStuck at hx
  split at hx
  · cases hx
  · rename_i hf
    refine ⟨hf, ?_⟩
    split at hx
    · cases hx
      exact .inl rfl
    · dsimp only at hx
      split at hx
      · cases hx
        exact .inr (.inl rfl)
      · split at hx
        · cases hx
        · rename_i h1 h2 h3
          exact .inr (.inr ⟨h1, by intro hn; subst hn; simpa using And.intro h2 h3, hx⟩)

/-- What a target gate that answers a next state did: the refusal, or the body. -/
theorem targetGate_next {n : Nat} {h : Handle} {s t : State} {body : State → Res State}
    (hx : targetGate n h s body = .next t) :
    t = completeInline h .invalidParameter s ∨ (n < s.params.numTargetSlots ∧ body s = .next t) := by
  unfold targetGate at hx
  split at hx
  · cases hx
    exact .inl rfl
  · exact .inr ⟨by omega, hx⟩

/-- No check of a list fails. -/
theorem firstFailing_none {l : List (Bool × Status)} : firstFailing l = none ↔ ∀ c ∈ l, c.1 = false := by
  induction l with
  | nil => simp [firstFailing]
  | cons c cs ih =>
    unfold firstFailing
    by_cases hc : c.1 <;> simp [hc, ih]

/-- What CheckIssue that answers a next state did: an inline refusal that left everything but the trace and the memory
port alone, or the command went on with its target. -/
theorem checkIssue_next {t : Nat} {h : Handle} {x : Transfer} {s u : State} {go : TargetConfig → State → Res State}
    (hx : checkIssue t h x s go = .next u) :
    (u.block = s.block ∧ u.mem = s.mem ∧ u.params = s.params ∧ u.port = s.port) ∨
    ∃ tc, targetAt s.block t = some tc ∧ (∀ c ∈ issueChecks t x s.block, c.1 = false) ∧
      (mapChains x.chains s).1 = true ∧ go tc (mapChains x.chains s).2 = .next u := by
  obtain ⟨m1, m2, m3, m4, -⟩ := mapChains_spec x.chains s
  unfold checkIssue at hx
  split at hx
  · cases hx
    exact .inl (by simp)
  · split at hx
    · cases hx
      exact .inl (by simp)
    · split at hx
      · rename_i _ tc htc _ hff hm
        exact .inr ⟨tc, htc, firstFailing_none.mp hff, hm, hx⟩
      · cases hx
        exact .inl (by simp [m1, m2, m3, m4])

/-- A transfer whose checks pass goes on. -/
theorem checkIssue_pass {t : Nat} {h : Handle} {x : Transfer} {s : State} {go : TargetConfig → State → Res State}
    {tc : TargetConfig} (htc : targetAt s.block t = some tc) (hc : firstFailing (issueChecks t x s.block) = none)
    (hm : (mapChains x.chains s).1 = true) : checkIssue t h x s go = go tc (mapChains x.chains s).2 := by
  simp [checkIssue, htc, hc, hm]

/-- What the checks of a transfer say once they pass (43_transfer_state_machine.md R221). -/
theorem issueChecks_pass {t : Nat} {x : Transfer} {b : Block} (hc : ∀ c ∈ issueChecks t x b, c.1 = false) :
    (b.locked = true → b.lockTgt = t) ∧ x.malformed = false ∧ (∀ c ∈ x.chains, total c ≤ Config.lenMax) ∧
    x.unequal = false ∧ ∀ c ∈ x.chains, 1 ≤ total c := by
  simp only [issueChecks, List.mem_cons, List.not_mem_nil, or_false, forall_eq_or_imp, forall_eq, Bool.and_eq_false_iff,
    decide_eq_false_iff_not, List.any_eq_false, decide_eq_true_eq] at hc
  obtain ⟨h1, h2, -, h4, h5, h6⟩ := hc
  refine ⟨fun hl => ?_, h2, fun c hm => by have := h4 c hm; omega, h5, fun c hm => by have := h6 c hm; omega⟩
  rcases h1 with h1 | h1
  · simp [hl] at h1
  · exact Decidable.not_not.mp h1

/-- A well-shaped phase list has a write chain and a read chain. -/
theorem sequence_chains {ps : List Phase} (h : (Transfer.sequence ps).malformed = false) :
    (Transfer.sequence ps).chains = [(Transfer.sequence ps).wchain, (Transfer.sequence ps).rchain] := by
  simp only [Transfer.malformed] at h
  simp only [Transfer.chains, Transfer.wchain, Transfer.rchain]
  split <;> simp_all

end Sys2Proof.Machine
end

