-- ==== Sys2Proof/Laws/PerInstr.lean ====
section
/-! SUPPORT. The per-instruction family `EncodeTarget`: the word or code an instruction is laid out in, one lemma for each
constructor of Instr. -/

namespace Sys2Proof.Laws.EncodeTarget

/-- A command lies in a word that holds its target and an operation code from 1 to 8; an event lies in an event code of its own and
has no target. -/
def Statement (i : Instr) : Prop :=
  match encode i with
  | .command cmd _ => ∃ op, 1 ≤ op ∧ op ≤ 8 ∧ cmd = commandWord op i.target
  | .event code => i.target = 0 ∧ 0xF0 ≤ code.toNat ∧ code.toNat ≤ 0xF3

theorem connect (t : Nat) (h : Handle) (d : Descriptor) : Statement (.connect t h d) := ⟨1, by decide, by decide, rfl⟩
theorem write (t : Nat) (h : Handle) (w : Chain) : Statement (.write t h w) := ⟨2, by decide, by decide, rfl⟩
theorem read (t : Nat) (h : Handle) (r : Chain) : Statement (.read t h r) := ⟨3, by decide, by decide, rfl⟩
theorem sequence (t : Nat) (h : Handle) (ps : List Phase) : Statement (.sequence t h ps) := ⟨4, by decide, by decide, rfl⟩
theorem fullDuplex (t : Nat) (h : Handle) (w r : Chain) : Statement (.fullDuplex t h w r) := ⟨5, by decide, by decide, rfl⟩
theorem lock (t : Nat) (h : Handle) : Statement (.lock t h) := ⟨6, by decide, by decide, rfl⟩
theorem unlock (t : Nat) (h : Handle) : Statement (.unlock t h) := ⟨7, by decide, by decide, rfl⟩
theorem cancel (t : Nat) (hc : Handle) : Statement (.cancel t hc) := ⟨8, by decide, by decide, rfl⟩
theorem reset : Statement .reset := ⟨rfl, by decide, by decide⟩
theorem irq : Statement .irq := ⟨rfl, by decide, by decide⟩
theorem bh : Statement .bh := ⟨rfl, by decide, by decide⟩
theorem cancelFinish : Statement .cancelFinish := ⟨rfl, by decide, by decide⟩

end Sys2Proof.Laws.EncodeTarget
end

