-- ==== Sys2Proof/Laws/Port.lean ====
section
/-! SUPPORT. What the port offers a step: which input is picked, and that a decoded input runs its instruction. -/

namespace Sys2Proof.Machine

/-- The inputs before the first enabled one are passed over. -/
theorem pick_first {p : Params} {b : Block} : ∀ {before after : List Input} {x : Input}, (∀ y ∈ before, inputEnabled p y b = false) →
    inputEnabled p x b = true → pick p b (before ++ x :: after) = some (x, before ++ after)
  | [], _, _, _, h => by simp [pick, h]
  | y :: ys, after, x, hb, h => by
    have hp := pick_first (before := ys) (after := after) (fun z hz => hb z (List.mem_cons_of_mem _ hz)) h
    simp [pick, hb y List.mem_cons_self, hp]

/-- A port without an enabled input offers nothing. -/
theorem pick_none {p : Params} {b : Block} : ∀ {l : List Input}, (∀ y ∈ l, inputEnabled p y b = false) → pick p b l = none
  | [], _ => rfl
  | y :: ys, hb => by
    simp [pick, hb y List.mem_cons_self, pick_none fun z hz => hb z (List.mem_cons_of_mem _ hz)]

/-- What is picked is enabled. -/
theorem pick_enabled {p : Params} {b : Block} : ∀ {l : List Input} {r : Input × List Input}, pick p b l = some r →
    inputEnabled p r.1 b = true
  | [], _, h => by simp [pick] at h
  | y :: ys, r, h => by
    unfold pick at h
    split at h
    · cases h
      assumption
    · obtain ⟨q, hq, rfl⟩ := Option.map_eq_some_iff.mp h
      exact pick_enabled (r := q) hq

/-- A decoded input runs its instruction. -/
theorem runInput_of_decode {x : Input} {i : Instr} (h : decodeInput x = some i) (s : State) : runInput x s = exec i s := by
  cases x with
  | command cmd o =>
    simp only [decodeInput] at h
    simp only [runInput]
    split at h <;> simp_all
  | event code =>
    simp only [decodeInput] at h
    simp [runInput, h]

end Sys2Proof.Machine
end

