-- ==== Sys2Proof/Machine/Asm.lean ====
section
/-! DEFINITION. The assembler line of an instruction (30_encoding.md R98; log 19). The pseudo-instructions of R99 are terms of
Sys2Proof/Syntax.lean: each is its expansion. -/

namespace Sys2Proof.Machine.Asm

/-- The digits of a number, most significant first; the first argument bounds how many. -/
def digitsFrom (base : Nat) : Nat → Nat → List Char → List Char
  | 0, _, acc => acc
  | fuel + 1, n, acc =>
    if n < base then Nat.digitChar n :: acc else digitsFrom base fuel (n / base) (Nat.digitChar (n % base) :: acc)

/-- A number in decimal. -/
def dec (n : Nat) : String := String.ofList (digitsFrom 10 (n + 1) n [])

/-- A number in hexadecimal after 0x (00_scope.md R9). -/
def hex (n : Nat) : String := "0x" ++ String.ofList (digitsFrom 16 (n + 1) n [])

/-- Texts with a comma and a space between them. -/
def commas : List String → String
  | [] => ""
  | [x] => x
  | x :: xs => x ++ ", " ++ commas xs

/-- A link, addr:len. -/
def link (l : Link) : String := hex l.addr ++ ":" ++ dec l.len.toNat

/-- A chain, [a:l, ...]. -/
def chain (c : Chain) : String := "[" ++ commas (c.map link) ++ "]"

/-- The letter of a direction. -/
def dir : Dir → String
  | .w => "W"
  | .r => "R"

/-- A phase, with its delay. -/
def phase (p : Phase) : String := dir p.dir ++ chain p.chain ++ " d=" ++ dec p.delayUs.toNat

/-- The operands of CONNECT after its target. -/
def descriptor (d : Descriptor) : String :=
  "clk=" ++ dec d.clkHz.toNat ++ ", bits=" ++ dec d.bits.toNat ++ ", cpol=" ++ dec d.cpol ++ ", cpha=" ++ dec d.cpha ++
    ", cs=" ++ dec d.csLine ++ (if d.slave then ", slave" else "") ++
    (match d.wiring with
      | .fourWire => ""
      | .threeWire => ", 3wire") ++
    (if d.csActiveHigh then ", cs_high" else "")

/-- A line with a handle and a target. -/
def line (h : Handle) (name : String) (t : Nat) (rest : List String) : String :=
  "h" ++ dec h ++ ": " ++ name ++ " " ++ commas (("t" ++ dec t) :: rest)

/-- The assembler line of an instruction. -/
def render : Instr → String
  | .connect t h d => line h "CONNECT" t [descriptor d]
  | .write t h w => line h "WRITE" t [chain w]
  | .read t h r => line h "READ" t [chain r]
  | .sequence t h ps => line h "SEQUENCE" t (ps.map phase)
  | .fullDuplex t h w r => line h "FULLDUPLEX" t ["W" ++ chain w, "R" ++ chain r]
  | .lock t h => line h "LOCK" t []
  | .unlock t h => line h "UNLOCK" t []
  | .cancel _ hc => "CANCEL h" ++ dec hc
  | .reset => "@RESET"
  | .irq => "@IRQ"
  | .bh => "@BH"
  | .cancelFinish => "@CANCEL_FINISH"

end Sys2Proof.Machine.Asm
end

