-- ==== Sys2Proof/Tests/Slice0.lean ====
section
/-! SUPPORT. The model's own tests (expected values from spec/95_test_vectors.md, from the examples of the rules and from the
encoding tables), and a witness for the hypotheses of every statement that has some. -/

namespace Sys2Proof.Tests

open Sys2Proof Sys2Proof.Machine

/-! ### States -/

/-- The state after an instruction, or the state itself where there is none. -/
def after (i : Instr) (s : State) : State :=
  match exec i s with
  | .next u => u
  | .fault _ => s
  | .refused _ => s

/-- The instruction has a next state, and a test of it holds. -/
def nextIs (i : Instr) (s : State) (p : State → Bool) : Bool :=
  match exec i s with
  | .next u => p u
  | .fault _ => false
  | .refused _ => false

theorem exec_after {i : Instr} {s : State} (h : nextIs i s (fun _ => true) = true) : exec i s = .next (after i s) := by
  unfold nextIs at h
  unfold after
  split at h
  · rename_i u hu
    rw [hu]
  · cases h
  · cases h

/-- A target at 1 MHz on line 0 in a data mode. -/
def target (mode : Nat) : TargetConfig := ⟨1000000, mode, 0, 8⟩

/-- The block after reset, with two targets connected. -/
def idleBlock : Block := { Block.reset 4 0x00000200 with targets := [some (target 0), some (target 1), none, none] }

/-- An idle machine of the reference instance with the reference core and some bytes of memory. -/
def ready : State :=
  { State.reset with
    block := idleBlock
    core := some (RefCore.start [0xA1, 0xA2, 0xA3, 0xA4, 0xA5])
    mem := [(0x1000, 0x11), (0x1001, 0x22), (0x1002, 0x33), (0x1003, 0x44), (0x1004, 0x55)] }

/-- The machine with its block changed. -/
def with' (f : Block → Block) : State := { ready with block := f ready.block }

/-- Its core raises the mine bit whatever the block does. -/
def mine (s : State) : State := { s with core := some { RefCore.start [0xA1, 0xA2, 0xA3, 0xA4] with others := 2 } }

/-- A locked session on target 0. -/
def lockedSession : State := after (.lock 0 9) ready

/-- Live requests, right after their issue. -/
def liveWrite : State := after (.write 0 2 [⟨0x1000, 4⟩]) ready
def liveRead : State := after (.read 0 3 [⟨0x3000, 2⟩, ⟨0x3010, 0⟩, ⟨0x3020, 2⟩]) ready
def liveSequence : State := after (.sequence 0 4 [⟨.w, [⟨0x1000, 1⟩], 0⟩, ⟨.r, [⟨0x3000, 2⟩], 7⟩]) ready
def liveDuplex : State := after (.fullDuplex 0 5 [⟨0x1000, 5⟩] [⟨0x2000, 5⟩]) ready

/-- A write that reached done: its bottom half is queued. -/
def doneWrite : State := after .irq liveWrite

/-! ### Well-formedness, decoding, encoding -/

theorem test_illformed_refused :
    ¬(Instr.connect 16 1 Descriptor.zero).WellFormed ∧ ¬(Instr.write 16 1 []).WellFormed ∧ ¬(Instr.read 16 1 []).WellFormed ∧
    ¬(Instr.sequence 16 1 []).WellFormed ∧ ¬(Instr.fullDuplex 16 1 [] []).WellFormed ∧ ¬(Instr.lock 16 1).WellFormed ∧
    ¬(Instr.unlock 16 1).WellFormed ∧ ¬(Instr.cancel 16 1).WellFormed := by decide

/-- Words written out from R91 and R92: TGT in bits 7:4, OP in bits 3:0. -/
theorem test_decode_words :
    decodeTableWord 32 0b00010001 = some (.connect 1 1 Descriptor.zero) ∧ decodeTableWord 32 0b00010010 = some (.write 1 1 []) ∧
    decodeTableWord 32 0b11110011 = some (.read 15 1 []) ∧ decodeTableWord 32 0b00000100 = some (.sequence 0 1 []) ∧
    decodeTableWord 32 0b00100101 = some (.fullDuplex 2 1 [] []) ∧ decodeTableWord 32 0b00110110 = some (.lock 3 1) ∧
    decodeTableWord 32 0b10000111 = some (.unlock 8 1) ∧ decodeTableWord 32 0b01011000 = some (.cancel 5 1) ∧
    decodeTableWord 8 0xF0 = some .reset ∧ decodeTableWord 8 0xF1 = some .irq ∧ decodeTableWord 8 0xF2 = some .bh ∧
    decodeTableWord 8 0xF3 = some .cancelFinish := by decide

theorem test_decode_reserved :
    decodeTableWord 32 0x00000000 = none ∧ decodeTableWord 32 0x00000009 = none ∧ decodeTableWord 32 0x0000000F = none ∧
    decodeTableWord 32 0x00000102 = none ∧ decodeTableWord 32 0x80000002 = none ∧ decodeTableWord 8 0xEF = none ∧
    decodeTableWord 8 0xF4 = none := by decide

/-- A placed event is the one the next step runs: the stale bottom half drops its handle (44_completion_cancel.md R270). -/
theorem test_fetch_events :
    step (State.reset.withFetchWord 8 0xF2) = .next State.reset ∧
    step (State.reset.withFetchWord 8 0xF3) = exec .cancelFinish (State.reset.withEventDue (some (.event 0xF3))) := ⟨rfl, rfl⟩

/-- R98, its two encoded lines. -/
theorem test_encode_examples :
    encode (.write 1 2 []) = .command 0x00000012 (Operands.only 2) ∧ encode (.cancel 0 5) = .command 0x00000008 (Operands.only 5) := by
  decide

/-- R98, the third line of its listing. -/
theorem test_assembler_line :
    Asm.render (.write 0 2 [⟨0x1000, 4⟩, ⟨0x2000, 2⟩]) = "h2: WRITE t0, [0x1000:4, 0x2000:2]" := by decide

/-! ### Pure functions -/

/-- R162, its table. -/
theorem test_clock_divisor :
    clockDiv 250000000 1000000 = 124 ∧ clockDiv 250000000 2000000 = 62 ∧ clockDiv 250000000 20000000 = 6 ∧
    clockDiv 250000000 30511 = 4095 ∧ Params.ri.minClkHz = 30511 := by decide

/-- R102, one word of each column and mode. -/
theorem test_image_words :
    img0 Params.ri (target 0) .fixed4 = 0x07CC0C60 ∧ img0 Params.ri (target 1) .variable2Shifted = 0x07CC4940 ∧
    img0 Params.ri (target 2) .variable3 = 0x07CC49C0 ∧ img0 Params.ri (target 3) .fixed3Shifted = 0x07CC0CD9 := by decide

/-- R166, its examples. -/
theorem test_word_modifiers :
    zeroWidth RegLayout.ri 0x07CC0C60 = 0x07CC0C40 ∧ zeroWidth RegLayout.ri 0x07CC0E40 = 0x07CC0C40 ∧
    fifoReset RegLayout.ri 0x07CC0C40 = 0x07CC0E40 ∧ csPattern 1 = 0b101 := by decide

/-- R132, R133, R135, R138, R139, their examples. -/
theorem test_codecs :
    groups .variable2Shifted 5 = [2, 2, 1] ∧ slotOf .variable2Shifted [0x01, 0x02] = ⟨17, 0x0204⟩ ∧
    unslot .variable2Shifted 1 0x1FF = [0xFF] ∧ txWord .ri .fixed4 (slotOf .fixed4 [0x11, 0x22, 0x33, 0x44]) = 0x11223344 ∧
    txWord .ri .variable3 (placeholder .variable3 3) = 0x18000000 ∧ txWord .ri .variable3 (placeholder .variable3 2) = 0x10000000 ∧
    txWord .ri .variable3 (slotOf .variable3 [0x9F]) = 0x089F0000 := by decide

/-- A layout given bit by bit: the three bytes of VARIABLE_3 in bits 31:8, their number of bits in bits 4:0, and the received
bytes in bits 31:8 (no rule gives this layout: the expected words follow from its description). -/
theorem test_word_layout :
    let m : WordMap :=
      { tx := (List.range 32).map fun j => if 8 ≤ j then .slot (j - 8) else if j = 3 ∨ j = 4 then .one else .zero
        rx := (List.range 24).map (· + 8) }
    let l := WordLayout.placed ((List.replicate 3 ⟨[], []⟩) ++ [m])
    m.fits 24 = true ∧ txWord l .variable3 (slotOf .variable3 [0x11, 0x22, 0x33]) = 0x11223318 ∧
    unslot .variable3 3 (rxSlot l .variable3 3 0xA1A2A3FF) = [0xA1, 0xA2, 0xA3] := by decide

/-- A handle or an address wider than the port is not delivered (00_scope.md R7, HANDLE_BITS and ADDR_BITS). -/
theorem test_port_widths :
    let p := { Params.ri with handleBits := 8, addrBits := 16 }
    deliverable p 0x2 { Operands.only 255 with wchain := [⟨0xFFFF, 1⟩] } = true ∧
    deliverable p 0x2 { Operands.only 256 with wchain := [⟨0xFFFF, 1⟩] } = false ∧
    deliverable p 0x2 { Operands.only 255 with wchain := [⟨0x10000, 0⟩] } = false ∧
    deliverable p 0x0 (Operands.only 256) = false := by decide

/-! ### One step each -/

/-- R170, its example. -/
theorem test_connect :
    nextIs (.connect 0 1 { Descriptor.zero with clkHz := 1000000, bits := 8 }) State.reset (fun u =>
      u.block.targets == [some ⟨1000000, 0, 0, 8⟩, none, none, none] &&
      u.trace.drop 2 == [.complete ⟨1, .success, 0, 0, 0⟩]) = true := by decide

/-- R222, with the trace of R190 and R193. -/
theorem test_write :
    liveWrite.trace.drop 2 =
      [.mapChain [⟨0x1000, 4⟩] true, .regWrite .cntl1 0x2, .regWrite .cntl0 0x07CC0C40, .regWrite .fifoHold 0,
       .regRead .stat 0, .regWrite .cntl0 0x07CC0C60, .regRead .fifoIo 0, .memRead 0x1000 0x11, .memRead 0x1001 0x22,
       .memRead 0x1002 0x33, .memRead 0x1003 0x44, .regWrite .fifoHold 0x11223344, .regWrite .cntl1 0x42] := by decide

/-- R223: placeholders, DONE_IE last. -/
theorem test_read :
    liveRead.trace.drop 9 = [.regWrite .fifoHold 0, .regWrite .cntl1 0x42] ∧ liveRead.block.inflight = [4] := by decide

/-- R224, its example: a one-byte write phase. -/
theorem test_sequence :
    liveSequence.block.xstate = .sequenceReadInit ∧ liveSequence.block.pmode = .variable3 ∧
    liveSequence.trace.drop 10 = [.memRead 0x1000 0x11, .regWrite .fifoHold 0x08110000, .regWrite .cntl1 0x42] := by decide

/-- R225: five bytes go as a group of 3 and a group of 2. -/
theorem test_fullDuplex :
    liveDuplex.block.inflight = [3, 2] ∧
    (liveDuplex.trace.filter isHoldPush).drop 1 = [.regWrite .fifoHold 0x18112233, .regWrite .fifoHold 0x10445500] := by decide

/-- R200, its example. -/
theorem test_lock :
    lockedSession.trace.drop 2 =
      [.regWrite .cntl1 0x2, .regWrite .cntl0 0x07CC4C40, .regWrite .fifoHold 0, .regRead .stat 0,
       .regWrite .cntl0 0x07CC4C40, .regRead .fifoIo 0, .regWrite .cntl0 0x07CC4E40, .complete ⟨9, .success, 0, 0, 0⟩] ∧
    lockedSession.block.cs = .asserted := by decide

/-- R201, its example. -/
theorem test_unlock :
    (after (.unlock 0 3) lockedSession).trace.drop 10 =
      [.regWrite .cntl0 0x07CC4C40, .regWrite .fifoIo 0, .regRead .stat 0, .regWrite .cntl0 0x07CC4E40,
       .complete ⟨3, .success, 0, 0, 0⟩] := by decide

/-- R280: TGT is ignored, nothing is emitted. -/
theorem test_cancel :
    nextIs (.cancel 7 2) liveWrite (fun u => u.block.slot == 0 && u.block.cancelFor == 2 && u.trace == liveWrite.trace) = true := by
  decide

/-- R340, its example. -/
theorem test_reset :
    nextIs .reset doneWrite (fun u => u.block == Block.reset 4 0x00000200 &&
      u.trace.drop doneWrite.trace.length == [.regWrite .cntl1 0, .regWrite .cntl0 0x200]) = true := by decide

/-- R231, R235, R236: the word of a write is dropped, then done. -/
theorem test_irq_write_done :
    doneWrite.trace.drop 15 =
      [.regRead .irqstat 2, .regRead .stat 0, .regRead .fifoIo 0xA1A2A3A4, .regWrite .cntl1 0x2, .regWrite .cntl0 0x07CC0C40,
       .regWrite .fifoIo 0, .claim true] := by decide

/-- R140: the word of a read goes into the chain, past a link of length 0. -/
theorem test_irq_read_stores :
    nextIs .irq liveRead (fun u => Memory.read u.mem 0x3000 == 0xA1 && Memory.read u.mem 0x3001 == 0xA2 &&
      Memory.read u.mem 0x3020 == 0xA3 && Memory.read u.mem 0x3021 == 0xA4) = true := by decide

/-- R270, its example. -/
theorem test_bh :
    nextIs .bh doneWrite (fun u => u.trace.drop doneWrite.trace.length ==
      [.regRead .stat 0, .regWrite .cntl0 0x07CC0E40, .complete ⟨2, .success, 4, 4, 0⟩]) = true := by decide

/-- R283, its example. -/
theorem test_cancelFinish :
    nextIs .cancelFinish (after (.cancel 0 2) liveWrite) (fun u => u.trace.drop 15 ==
      [.regWrite .cntl1 0x2, .regWrite .cntl0 0x07CC0E60, .regWrite .cntl0 0x07CC0C40, .regWrite .fifoIo 0, .regRead .stat 0,
       .regWrite .cntl0 0x07CC0E40, .complete ⟨2, .cancelled, 0, 0, 0⟩]) = true := by decide

/-! ### Witnesses: a state and operands that meet the hypotheses of each statement, clause by clause -/

theorem inv_liveWrite : Inv liveWrite := by
  refine ⟨by decide, by decide, by decide, ?_⟩
  constructor <;> decide

theorem inv_liveDuplex : Inv liveDuplex := by
  refine ⟨by decide, by decide, by decide, ?_⟩
  constructor <;> decide

theorem inv_liveSequence : Inv liveSequence := by
  refine ⟨by decide, by decide, by decide, ?_⟩
  constructor <;> decide

theorem inv_doneWrite : Inv doneWrite := by
  refine ⟨by decide, by decide, by decide, ?_⟩
  constructor <;> decide

theorem inv_ready : Inv ready := by
  refine ⟨by decide, by decide, by decide, ?_⟩
  constructor <;> decide

theorem witness_DecodeEncodeRoundTrip : (Instr.write 15 1 [⟨0xFFFFFFFF, 1⟩]).WellFormed := by decide

theorem witness_EncodeDecodeRoundTrip :
    (decodeCommand 0x000000F8 (Operands.only 7) = .ok (.cancel 15 7)) ∧ decodeEvent 0xF0 = some .reset := by
  exact ⟨rfl, rfl⟩

theorem witness_StepRunsDecodedInput :
    let s := { ready with port := [.event 0xF2, .event 0xF3, .event 0xF1, .event 0xF0] }
    s.port = [.event 0xF2, .event 0xF3] ++ .event 0xF1 :: [.event 0xF0] ∧
    (∀ y ∈ [Input.event 0xF2, Input.event 0xF3], inputEnabled s.params y s.block = false) ∧
    inputEnabled s.params (.event 0xF1) s.block = true ∧ decodeInput (.event 0xF1) = some .irq := by decide

/-- Clause by clause: a zero handle; a live request; a hold; a reserved OP or RSV; a TGT one past the table. -/
theorem witness_CommandPriority :
    (ready.block.fault = none ∧ opField 0x1 ≠ 8 ∧ (Operands.only 0).h = 0) ∧
    (liveWrite.block.fault = none ∧ 2 ≤ opField 0x2 ∧ opField 0x7 ≤ 7 ∧ liveWrite.block.xstate ≠ .invalid) ∧
    ((with' fun b => { b with bhFor := 5 }).block.fault = none ∧ (with' fun b => { b with bhFor := 5 }).block.xstate = .invalid ∧
      (with' fun b => { b with bhFor := 5 }).block.bhFor ≠ 0) ∧
    (opField 0x0 = 0 ∧ 9 ≤ opField 0x9 ∧ rsvField 0x102 ≠ 0 ∧ opField 0x102 = 2 ∧ ready.block.xstate = .invalid ∧
      ready.block.bhFor = 0) ∧
    (rsvField 0x47 = 0 ∧ opField 0x47 = 7 ∧ opField 0x41 = 1 ∧ ready.params.numTargetSlots ≤ tgtField 0x47 ∧
      ready.params.numTargetSlots ≤ tgtField 0x41) := by decide

theorem witness_CancelWordsNeverFault :
    ready.block.fault = none ∧ opField 0x108 = 8 ∧ rsvField 0x108 ≠ 0 ∧ opField 0xF8 = 8 ∧ (Operands.only 0).h = 0 ∧
    (Operands.only 0xFFFFFFFF).h < 2 ^ ready.params.handleBits := by decide

theorem witness_HeldCommandWaits :
    let s := with' fun b => { b with bhFor := 5 }
    s.block.fault = none ∧ 2 ≤ opField 0x2 ∧ opField 0x7 ≤ 7 ∧ (Operands.only 1).h ≠ 0 ∧ s.block.xstate = .invalid ∧
    s.block.bhFor ≠ 0 ∧ s.block.slot ≠ s.block.bhFor := by decide

theorem witness_FaultedBlockIsStuck :
    let s := { (with' fun b => { b with fault := some (.zeroHandle 0x2) }) with port := [.event 0xF1, .event 0xF0] }
    s.block.fault = some (.zeroHandle 0x2) ∧ Instr.irq ≠ .reset ∧ (∀ x ∈ [Input.event 0xF1], decodeInput x ≠ some .reset) ∧
    s.port = [.event 0xF1] ++ .event 0xF0 :: [] := by decide

theorem witness_ResetEstablishesTable : ready.params.valid = true := by decide

theorem witness_ResetUnderReferenceInstance : State.reset.params = Params.ri := rfl

/-- In use by the request or the lock; each failing check of R171 at its bound; the least and the greatest clock that pass. -/
theorem witness_ConnectInstallsTarget :
    let d : Descriptor := { Descriptor.zero with clkHz := 30511, bits := 8, cpol := 1, cpha := 1, csLine := 2 }
    ready.block.fault = none ∧ (1 : Handle) ≠ 0 ∧ 3 < ready.params.numTargetSlots ∧
    (liveWrite.block.xstate ≠ .invalid ∧ liveWrite.block.tgt = 0) ∧
    (lockedSession.block.locked = true ∧ lockedSession.block.lockTgt = 0) ∧
    connectCheck Params.ri { d with slave := true } = some .notSupported ∧
    connectCheck Params.ri { d with wiring := .threeWire } = some .notSupported ∧
    connectCheck Params.ri { d with csActiveHigh := true } = some .notSupported ∧
    connectCheck Params.ri { d with csLine := 3 } = some .notSupported ∧
    connectCheck Params.ri { d with cpol := 2 } = some .invalidParameter ∧
    connectCheck Params.ri { d with bits := 16 } = some .notSupported ∧
    connectCheck Params.ri { d with clkHz := 30510 } = some .notSupported ∧
    connectCheck Params.ri { d with clkHz := 20000001 } = some .notSupported ∧
    connectCheck Params.ri d = none ∧ connectCheck Params.ri { d with clkHz := 20000000 } = none := by decide

theorem witness_LockAssertsLine :
    CanIssue ready ∧ (1 : Handle) ≠ 0 ∧ 3 < ready.params.numTargetSlots ∧ targetAt ready.block 3 = none ∧
    targetAt ready.block 0 = some (target 0) ∧ ready.block.locked = false ∧ CanIssue lockedSession ∧
    lockedSession.block.locked = true := by decide

theorem witness_UnlockReleasesLine :
    CanIssue ready ∧ CanIssue lockedSession ∧ (1 : Handle) ≠ 0 ∧ 1 < ready.params.numTargetSlots ∧ ready.block.locked = false ∧
    lockedSession.block.locked = true ∧ lockedSession.block.lockTgt ≠ 1 ∧ lockedSession.block.lockTgt = 0 := by decide

theorem witness_LockThenUnlock :
    CanIssue ready ∧ (1 : Handle) ≠ 0 ∧ (2 : Handle) ≠ 0 ∧ 1 < ready.params.numTargetSlots ∧
    targetAt ready.block 1 = some (target 1) ∧ ready.block.locked = false := by decide

theorem witness_CompiledWordFields : Params.ri.layout = RegLayout.ri ∧ (⟨1, 9, 2, 8⟩ : TargetConfig).csLine < 3 := by decide

theorem witness_ClockDivisorIsLeast :
    0 < 1000000 ∧ clockDiv 250000000 1000000 < 4095 ∧ 123 < clockDiv 250000000 1000000 ∧
    4094 < clockDiv 250000000 30511 := by decide

theorem witness_WordModifiersKeepOtherBits : RegLayout.ri.valid = true ∧ 31 < 32 := by decide

theorem witness_SelectModeRule :
    0 ∉ Params.ri.shiftedModes ∧ 4 % 4 = 0 ∧ 3 % 4 ≠ 0 ∧ 1 ∈ Params.ri.shiftedModes ∧ 3 % 3 = 0 ∧ 4 % 3 ≠ 0 := by decide

theorem witness_ChunkGroups : 64 < 100 ∧ 64 = 1 * cap (selectMode Params.ri 0 100) := by decide

theorem witness_groupAllowed :
    groupAllowed .fixed4 [1, 2, 3, 4].length = true ∧ groupAllowed .variable3 [1].length = true ∧
    groupAllowed .variable3 [1, 2, 3].length = true ∧ groupAllowed .fixed3Shifted [1, 2, 3].length = true ∧
    groupAllowed .variable2Shifted [1].length = true ∧ groupAllowed .variable2Shifted [1, 2].length = true := by decide

theorem witness_SlotRoundTrip :
    groupAllowed .variable2Shifted [0xFF].length = true ∧ isFixed .fixed3Shifted = true ∧
    ∀ j < nbitsOf .variable2Shifted 1, (0xFFFFFFFE : Word).getLsbD j = (slotOf .variable2Shifted [0xFF]).value.getLsbD j := by
  decide

theorem witness_TxWordBits :
    groupAllowed .fixed4 [1, 2, 3, 4].length = true ∧ isFixed .fixed4 = true ∧ groupAllowed .variable3 [1].length = true ∧
    isFixed .variable3 = false := by decide

theorem witness_CodecWriteTrace :
    Cursor.walk ready.params.addrSpace 3 (Cursor.fresh [⟨0x1000, 2⟩, ⟨5, 0⟩, ⟨0x2000, 2⟩]) =
      .next ([0x1000, 0x1001, 0x2000], ⟨[⟨0x1000, 2⟩, ⟨5, 0⟩, ⟨0x2000, 2⟩], 2, 1⟩) := rfl

theorem witness_CodecExtractStores :
    groupAllowed .variable3 3 = true ∧ Memory.wf ready.mem = true ∧
    Cursor.walk ready.params.addrSpace 3 (Cursor.fresh [⟨0xFFFFFFFD, 3⟩]) =
      .next ([0xFFFFFFFD, 0xFFFFFFFE, 0xFFFFFFFF], ⟨[⟨0xFFFFFFFD, 3⟩], 0, 3⟩) ∧
    [0xFFFFFFFD, 0xFFFFFFFE, 0xFFFFFFFF].Nodup := ⟨by decide, by decide, rfl, by decide⟩

theorem witness_WalkFollowsChain : chainFits 0x100000000 [⟨0xFFFFFFFE, 2⟩, ⟨5, 0⟩, ⟨7, 1⟩] = true ∧
    1 + 2 ≤ total [⟨0xFFFFFFFE, 2⟩, ⟨5, 0⟩, ⟨7, 1⟩] := by decide

theorem witness_CanonicalMemoriesAreEqual : Memory.wf ready.mem = true ∧ Memory.wf (Memory.write ready.mem 0x1000 0x11) = true := by
  decide

/-- An idle line and a locked one; the least length, and a length past one chunk. -/
theorem witness_issues :
    CanIssue ready ∧ CanIssue lockedSession ∧ (1 : Handle) ≠ 0 ∧ 0 < ready.params.numTargetSlots ∧
    targetAt ready.block 0 = some (target 0) ∧ targetAt lockedSession.block 0 = some (target 0) ∧
    (ready.block.locked = true → ready.block.lockTgt = 0) ∧ (lockedSession.block.locked = true → lockedSession.block.lockTgt = 0) ∧
    1 ≤ total [⟨0x1000, 1⟩] ∧ total [⟨0x1000, 65⟩] ≤ Config.lenMax ∧ total [⟨0x1000, 1⟩] = total [⟨0x2000, 1⟩] ∧
    mapAnswer [⟨0x1000, 1⟩] ready = true ∧ mapAnswer [⟨0x1000, 65⟩] lockedSession = true ∧
    mapAnswer [⟨0x2000, 1⟩] (mapChain [⟨0x1000, 1⟩] ready) = true := by decide

/-- Each refusal of R221, and a second chain that is not mapped. -/
theorem witness_TransferRefusals :
    let big : Link := ⟨0, 0xFFFFFFFF⟩
    let one : Link := ⟨0x1000, 1⟩
    let s := { ready with core := some { RefCore.start [] with mapAnswers := [true, false] } }
    CanIssue ready ∧ (1 : Handle) ≠ 0 ∧ 2 < ready.params.numTargetSlots ∧
    issueRefusal ready.block 2 (.write [one]) = some .invalidParameter ∧
    issueRefusal lockedSession.block 1 (.read [one]) = some .invalidDeviceState ∧
    issueRefusal ready.block 0 (.sequence [⟨.r, [one], 0⟩, ⟨.w, [one], 0⟩]) = some .invalidDeviceRequest ∧
    issueRefusal ready.block 0 (.sequence [⟨.w, [one], 1⟩, ⟨.r, [one], 0⟩]) = some .invalidDeviceRequest ∧
    issueRefusal ready.block 0 (.write [big, one]) = some .invalidParameter ∧
    issueRefusal ready.block 0 (.write [big]) = none ∧
    issueRefusal ready.block 0 (.fullDuplex [one] [one, one]) = some .invalidDeviceRequest ∧
    issueRefusal ready.block 0 (.read [⟨0x1000, 0⟩]) = some .invalidParameter ∧
    CanIssue s ∧ issueRefusal s.block 0 (.fullDuplex [one] [one]) = none ∧
    (Transfer.fullDuplex [one] [one]).asked = [[one]] ++ [one] :: [] ∧ (mapChains [[one]] s).1 = true ∧
    mapAnswer [one] (mapChains [[one]] s).2 = false := by decide

theorem witness_IrqWithNothingToAdvance :
    (ready.block.fault = none ∧ (regValue .irqstat ready).getLsbD ready.params.irqMineBit = false) ∧
    (regValue .irqstat (mine ready)).getLsbD (mine ready).params.irqMineBit = true ∧ (mine ready).block.xstate = .invalid ∧
    (mine (after (.cancel 0 2) liveWrite)).block.slot = 0 ∧ (mine doneWrite).block.bhFor ≠ 0 := by decide

/-- A duplex request whose core has one RX word for the two words in flight. -/
def shortDuplex : State := { liveDuplex with core := some { RefCore.start [] with others := 2, rx := [0x00A1A2A3] } }

/-- A request whose words all came back, one whose second word has not, and one that turns to its read phase. -/
theorem witness_IrqDrainsAndAdvances :
    (Inv liveDuplex ∧ liveDuplex.block.fault = none ∧ liveDuplex.block.xstate ≠ .invalid ∧ liveDuplex.block.slot ≠ 0 ∧
      liveDuplex.block.bhFor = 0 ∧ mineOf liveDuplex.params (regValue .irqstat liveDuplex) = true ∧
      (after .irq liveDuplex).block.inflight = []) ∧
    (Inv shortDuplex ∧ shortDuplex.block.fault = none ∧ shortDuplex.block.xstate ≠ .invalid ∧ shortDuplex.block.slot ≠ 0 ∧
      shortDuplex.block.bhFor = 0 ∧ mineOf shortDuplex.params (regValue .irqstat shortDuplex) = true ∧
      (after .irq shortDuplex).block.inflight = [2]) ∧
    (Inv liveSequence ∧ liveSequence.block.fault = none ∧ liveSequence.block.xstate = .sequenceReadInit ∧
      liveSequence.block.slot ≠ 0 ∧ liveSequence.block.bhFor = 0 ∧
      mineOf liveSequence.params (regValue .irqstat liveSequence) = true ∧
      (after .irq liveSequence).block.xstate = .sequenceRead) :=
  ⟨⟨inv_liveDuplex, by decide⟩,
   ⟨⟨inv_liveDuplex.params, inv_liveDuplex.memory, inv_liveDuplex.space, inv_liveDuplex.block⟩, by decide⟩,
   ⟨inv_liveSequence, by decide⟩⟩

/-- A drain that empties the list, and one that ends early. -/
theorem witness_DrainTrace :
    (∃ t, drain liveDuplex = .next (.full, t)) ∧
    ∃ t, drain { liveDuplex with core := some (RefCore.start []) } = .next (.part, t) := ⟨⟨_, rfl⟩, ⟨_, rfl⟩⟩

theorem witness_IrqStepIsBounded : Inv liveDuplex ∧ exec .irq liveDuplex = .next (after .irq liveDuplex) :=
  ⟨inv_liveDuplex, exec_after (by decide)⟩

theorem witness_WriteIgnoresReadFields :
    liveWrite.block.xstate = .write ∧ exec .irq liveWrite = .next (after .irq liveWrite) := ⟨by decide, exec_after (by decide)⟩

/-- The bottom half of a write, of a read and of a full-duplex request, unlocked and in a locked session. -/
theorem witness_BhCompletesRequest :
    (doneWrite.block.fault = none ∧ doneWrite.block.bhFor ≠ 0 ∧ doneWrite.block.slot = doneWrite.block.bhFor ∧
      doneWrite.block.xstate = .write ∧ doneWrite.block.wrDone = doneWrite.block.wrTotal ∧ doneWrite.block.cs = .releasing) ∧
    (let s := after .irq liveRead
     s.block.fault = none ∧ s.block.bhFor ≠ 0 ∧ s.block.slot = s.block.bhFor ∧ s.block.xstate = .read ∧
     s.block.rdDone = s.block.rdTotal) ∧
    (let s := after .irq liveDuplex
     s.block.fault = none ∧ s.block.bhFor ≠ 0 ∧ s.block.slot = s.block.bhFor ∧ s.block.xstate = .fullDuplex ∧
     s.block.wrDone = s.block.wrTotal ∧ s.block.rdDone = s.block.rdTotal) ∧
    (let s := after .irq (after (.write 0 6 [⟨0x1000, 1⟩]) lockedSession)
     s.block.fault = none ∧ s.block.bhFor ≠ 0 ∧ s.block.slot = s.block.bhFor ∧ s.block.xstate = .write ∧
     s.block.wrDone = s.block.wrTotal ∧ s.block.cs ≠ .releasing) := by decide

theorem witness_BhStaleOrMismatch :
    (let s := with' fun b => { b with bhFor := 5 }
     s.block.fault = none ∧ s.block.bhFor ≠ 0 ∧ s.block.slot ≠ s.block.bhFor) ∧
    (let s := with' fun b => { b with bhFor := 5, slot := 5, xstate := .write, wrTotal := 1 }
     s.block.fault = none ∧ s.block.bhFor ≠ 0 ∧ s.block.slot = s.block.bhFor ∧ s.block.xstate = .write ∧
     s.block.wrDone ≠ s.block.wrTotal) ∧
    (let s := with' fun b => { b with bhFor := 5, slot := 5, xstate := .read, rdTotal := 1 }
     s.block.slot = s.block.bhFor ∧ s.block.xstate = .read ∧ s.block.rdDone ≠ s.block.rdTotal) ∧
    (let s := with' fun b => { b with bhFor := 5, slot := 5, xstate := .fullDuplex, rdTotal := 1 }
     s.block.slot = s.block.bhFor ∧ s.block.xstate = .fullDuplex ∧ s.block.rdDone ≠ s.block.rdTotal) := by decide

theorem witness_CountMismatchIsUnreachable : Inv doneWrite ∧ exec .bh doneWrite = .next (after .bh doneWrite) :=
  ⟨inv_doneWrite, exec_after (by decide)⟩

theorem witness_CancelTakesRequest :
    liveWrite.block.fault = none ∧ (2 : Handle) ≠ 0 ∧ liveWrite.block.slot = 2 ∧ liveWrite.block.slot ≠ 3 := by decide

/-- Done was reached; mid-transfer; in a locked session. -/
theorem witness_CancelFinishCleansUp :
    (let s := after (.cancel 0 2) doneWrite
     s.block.fault = none ∧ s.block.cancelFor ≠ 0 ∧ s.block.cs = .releasing) ∧
    (let s := after (.cancel 0 2) liveWrite
     s.block.fault = none ∧ s.block.cancelFor ≠ 0 ∧ s.block.cs ≠ .releasing ∧ s.block.locked = false) ∧
    (let s := after (.cancel 0 6) (after (.write 0 6 [⟨0x1000, 1⟩]) lockedSession)
     s.block.fault = none ∧ s.block.cancelFor ≠ 0 ∧ s.block.cs ≠ .releasing ∧ s.block.locked = true) := by decide

theorem witness_CancelRaceEndsOnce :
    Inv doneWrite ∧ doneWrite.block.fault = none ∧ (2 : Handle) ≠ 0 ∧ doneWrite.block.slot = 2 ∧ doneWrite.block.bhFor = 2 :=
  ⟨inv_doneWrite, by decide⟩

theorem witness_AtMostOneEndPerRequest :
    Inv doneWrite ∧ (2 : Handle) ≠ 0 ∧ exec .bh doneWrite = .next (after .bh doneWrite) ∧ namesHandle 2 .bh = false ∧
    Instr.bh ≠ .reset ∧ (after .bh doneWrite).block.fault = none :=
  ⟨inv_doneWrite, by decide, exec_after (by decide), by decide⟩

/-- A step of a live request from a state of the invariant, with an IRQ offered. -/
theorem witness_StepKeepsInvariant :
    Inv { liveWrite with port := [.event 0xF1] } ∧
    step { liveWrite with port := [.event 0xF1] } = exec .irq liveWrite ∧ exec .irq liveWrite = .next (after .irq liveWrite) :=
  ⟨⟨inv_liveWrite.params, inv_liveWrite.memory, inv_liveWrite.space, inv_liveWrite.block⟩, rfl, exec_after (by decide)⟩

theorem witness_StepKeepsMemoryCanonical :
    Memory.wf liveRead.mem = true ∧ Memory.within liveRead.params.addrSpace liveRead.mem = true ∧
    step { liveRead with port := [.event 0xF1] } = exec .irq liveRead ∧
    exec .irq liveRead = .next (after .irq liveRead) := ⟨by decide, by decide, rfl, exec_after (by decide)⟩

theorem witness_StepKeepsShadows :
    ShadowsFollowWrites liveWrite ∧ exec .irq liveWrite = .next (after .irq liveWrite) := ⟨by decide, exec_after (by decide)⟩

theorem witness_OnlyReadPhasesWriteMemory :
    exec .irq liveWrite = .next (after .irq liveWrite) ∧ readPhase liveWrite.block.xstate = false ∧
    exec .bh doneWrite = .next (after .bh doneWrite) ∧ Instr.bh ≠ .irq :=
  ⟨exec_after (by decide), by decide, exec_after (by decide), by decide⟩

theorem witness_DoneIeSetOnlyAtIssue :
    ready.params.valid = true ∧ exec (.write 0 2 [⟨0x1000, 4⟩]) ready = .next liveWrite ∧
    doneIeOf ready.params.layout ready.block.shadow1 = false ∧ doneIeOf ready.params.layout liveWrite.block.shadow1 = true :=
  ⟨by decide, exec_after (by decide), by decide⟩

/-- One next state for each context. -/
theorem witness_contexts :
    exec .irq liveWrite = .next (after .irq liveWrite) ∧ exec .reset liveWrite = .next (after .reset liveWrite) ∧
    exec (.cancel 0 2) liveWrite = .next (after (.cancel 0 2) liveWrite) ∧ exec .bh doneWrite = .next (after .bh doneWrite) ∧
    exec .cancelFinish (after (.cancel 0 2) liveWrite) = .next (after .cancelFinish (after (.cancel 0 2) liveWrite)) ∧
    exec (.connect 3 1 Descriptor.zero) ready = .next (after (.connect 3 1 Descriptor.zero) ready) :=
  ⟨exec_after (by decide), exec_after (by decide), exec_after (by decide), exec_after (by decide), exec_after (by decide),
    exec_after (by decide)⟩

theorem witness_SlotChangesOnlyByTakeOrIssue :
    liveWrite.block.slot ≠ ready.block.slot ∧ (after (.cancel 0 2) liveWrite).block.slot ≠ liveWrite.block.slot ∧
    (after .bh doneWrite).block.slot ≠ doneWrite.block.slot ∧ (after .reset liveWrite).block.slot ≠ liveWrite.block.slot := by
  decide

theorem witness_EnabledInputsComplete :
    Inv doneWrite ∧ doneWrite.block.fault = none ∧ inputEnabled doneWrite.params (.event 0xF2) doneWrite.block = true :=
  ⟨inv_doneWrite, by decide⟩

theorem witness_ReadDeliversMisoBytes :
    let c := RefCore.start [0xA1, 0xA2, 0xA3, 0xA4, 0xA5]
    let r : Chain := [⟨0x3000, 2⟩, ⟨0x3010, 0⟩, ⟨0x3020, 3⟩]
    Inv ready ∧ CanIssue ready ∧ ready.params = Params.ri ∧ ready.core = some c ∧ c.busyReads = 0 ∧ c.hidden = false ∧
    c.rx = [] ∧ c.mapAnswers = [] ∧ ready.block.locked = false ∧ (1 : Handle) ≠ 0 ∧ 1 < 4 ∧
    targetAt ready.block 1 = some (target 1) ∧ chainFits ready.params.addrSpace r = true ∧ 1 ≤ total r ∧
    total r ≤ cap (selectMode ready.params (target 1).mode (total r)) ∧ (chainAddrs r).Nodup :=
  ⟨inv_ready, by decide⟩

end Sys2Proof.Tests
end

section
/-! PROOFS. What a step appends to the trace, and that the events account for buffer memory: one rule for each primitive, one lemma
for each shared operation, and from them what each instruction may emit (00_scope.md R11, R12; 20_memory.md R60, R73). -/

namespace Sys2Proof.Machine

/-! ### Accounts -/

/-- The event is an access of buffer memory. -/
def isMemAccess : Event → Bool
  | .memRead _ _ => true
  | .memWrite _ _ => true
  | _ => false

/-- A test that follows from a stronger one, for every event of a list. -/
theorem all_of_imp {p q : Event → Bool} {es : List Event} (h : es.all p = true) (hpq : ∀ e, p e = true → q e = true) :
    es.all q = true :=
  List.all_eq_true.mpr fun e he => hpq e (List.all_eq_true.mp h e he)

theorem replay_append : ∀ (es es' : List Event) (m : Memory), replay (es ++ es') m = (replay es m).bind (replay es')
  | [], _, _ => rfl
  | e :: es, es', m => by
    cases e with
    | memRead a v =>
      simp only [List.cons_append, replay]
      split
      · exact replay_append es es' m
      · rfl
    | memWrite a v => exact replay_append es es' _
    | regWrite | regRead | mapChain | stall | complete | claim => exact replay_append es es' m

/-- A later state has the parameters of an earlier one, and extends its trace by events that satisfy a test and whose replay gives
its memory. -/
def Accounts (p : Event → Bool) (s t : State) : Prop :=
  t.params = s.params ∧ ∃ es, t.trace = s.trace ++ es ∧ es.all p = true ∧ replay es s.mem = some t.mem

section Accounts

variable {p q : Event → Bool} {s t u : State}

/-- A change outside the parameters, the trace and memory emits nothing. -/
theorem Accounts.silent (hp : t.params = s.params) (ht : t.trace = s.trace) (hm : t.mem = s.mem) : Accounts p s t :=
  ⟨hp, [], by simp [ht], rfl, by rw [hm]; rfl⟩

theorem Accounts.refl (p : Event → Bool) (s : State) : Accounts p s s := .silent rfl rfl rfl

theorem Accounts.trans (h : Accounts p s t) (h' : Accounts p t u) : Accounts p s u := by
  obtain ⟨hp, es, ht, ha, hr⟩ := h
  obtain ⟨hp', es', ht', ha', hr'⟩ := h'
  refine ⟨hp'.trans hp, es ++ es', by rw [ht', ht, List.append_assoc], by simp [ha, ha'], ?_⟩
  rw [replay_append, hr]
  exact hr'

theorem Accounts.mono (h : Accounts p s t) (hpq : ∀ e, p e = true → q e = true) : Accounts q s t := by
  obtain ⟨hp, es, ht, ha, hr⟩ := h
  exact ⟨hp, es, ht, all_of_imp ha hpq, hr⟩

/-- One event, which accounts for what it does to memory. -/
theorem Accounts.one {e : Event} (hp : t.params = s.params) (ht : t.trace = s.trace ++ [e]) (he : p e = true)
    (hr : replay [e] s.mem = some t.mem) : Accounts p s t :=
  ⟨hp, [e], ht, by simp [he], hr⟩

theorem replay_of_no_memAccess : ∀ {es : List Event} (m : Memory), (∀ e ∈ es, isMemAccess e = false) → replay es m = some m
  | [], _, _ => rfl
  | e :: es, m, h => by
    have ih := replay_of_no_memAccess m fun e' he' => h e' (List.mem_cons_of_mem _ he')
    have he := h e List.mem_cons_self
    cases e with
    | memRead | memWrite => cases he
    | regWrite | regRead | mapChain | stall | complete | claim => exact ih

/-- Events that do not touch memory account for an unchanged one. -/
theorem Accounts.of_emits (h : Emits p s t) (hp : t.params = s.params) (hm : t.mem = s.mem)
    (hn : ∀ e, p e = true → isMemAccess e = false) : Accounts p s t := by
  obtain ⟨es, ht, ha⟩ := h
  refine ⟨hp, es, ht, ha, ?_⟩
  rw [hm]
  exact replay_of_no_memAccess _ fun e he => hn e (List.all_eq_true.mp ha e he)

end Accounts

/-! ### The tests of events -/

/-- The event accesses a core register and pushes nothing through FIFO_HOLD. -/
def isControl (e : Event) : Bool := isRegAccess e && !isHoldPush e

/-- What a step may emit that moves data and ends no request: accesses of buffer memory and of the core registers. -/
def isMove (e : Event) : Bool := isMemAccess e || isRegAccess e

/-- The event reads STAT or waits, as the busy poll does. -/
def isPoll (e : Event) : Bool := isStatRead e || isStall e

/-- What a step may emit that ends a request: control of the core, its waits, and a completion record. -/
def isWindDown (e : Event) : Bool := isControl e || isStall e || isCompletion e

/-- What the interrupt top half may emit. -/
def isTopHalf (e : Event) : Bool := isMove e || isClaim e

/-- Anything but a claim. -/
def isNoClaim (e : Event) : Bool := !isClaim e

section Tests

variable (e : Event)

theorem isMove_of_isControl (h : isControl e = true) : isMove e = true := by
  simp only [isControl, Bool.and_eq_true] at h
  simp [isMove, h.1]

theorem isWindDown_of_isControl (h : isControl e = true) : isWindDown e = true := by simp [isWindDown, h]

theorem isTopHalf_of_isMove (h : isMove e = true) : isTopHalf e = true := by simp [isTopHalf, h]

theorem isMove_of_isPump (h : isPump e = true) : isMove e = true := by
  cases e with
  | memRead | regWrite => rfl
  | _ => cases h

theorem isMove_of_isDrain (h : isDrain e = true) : isMove e = true := by
  cases e with
  | memWrite | regRead => rfl
  | _ => cases h

theorem isNoClaim_of_isMove (h : isMove e = true) : isNoClaim e = true := by
  cases e with
  | claim => cases h
  | _ => rfl

theorem isNoClaim_of_isWindDown (h : isWindDown e = true) : isNoClaim e = true := by
  cases e with
  | claim => cases h
  | _ => rfl

theorem isNoClaim_of_isPump (h : isPump e = true) : isNoClaim e = true := isNoClaim_of_isMove e (isMove_of_isPump e h)

theorem isNoClaim_of_isControl (h : isControl e = true) : isNoClaim e = true := isNoClaim_of_isMove e (isMove_of_isControl e h)

theorem isNoClaim_of_isCompletion (h : isCompletion e = true) : isNoClaim e = true :=
  isNoClaim_of_isWindDown e (by simp [isWindDown, h])

theorem isNoClaim_of_isMapQuery (h : isMapQuery e = true) : isNoClaim e = true := by
  cases e with
  | claim => cases h
  | _ => rfl

theorem isWindDown_of_isPoll (h : isPoll e = true) : isWindDown e = true := by
  cases e with
  | regRead | stall => rfl
  | _ => cases h

theorem completesNothing_of_isTopHalf (h : isTopHalf e = true) : (!isCompletion e && !isStall e) = true := by
  cases e with
  | complete | stall => cases h
  | _ => rfl

theorem pushesNothing_of_isWindDown (h : isWindDown e = true) : (!isHoldPush e) = true := by
  cases e with
  | regWrite => simpa [isWindDown, isControl, isRegAccess, isStall, isCompletion] using h
  | _ => rfl

theorem touchesNothing_of_isCompletion (h : isCompletion e = true) : (!isRegAccess e && !isStall e) = true := by
  cases e with
  | regWrite | regRead | stall => cases h
  | _ => rfl

end Tests

/-! ### The primitives of the ports -/

section Primitives

variable {p : Event → Bool} (s : State)

theorem regWrite_accounts {r : CoreReg} {v : Word} (h : p (.regWrite r v) = true) : Accounts p s (regWrite r v s) :=
  .one rfl rfl h rfl

theorem regRead_accounts {r : CoreReg} (h : p (.regRead r (regValue r s)) = true) : Accounts p s (regRead r s) :=
  .one (regRead_params r s) (regRead_trace r s) h (by simp [replay])

theorem claim_accounts {c : Bool} (h : p (.claim c) = true) : Accounts p s (claim c s) := .one rfl rfl h rfl

theorem complete_accounts {h : Handle} {st : Status} {i w r : Nat} (hc : p (.complete ⟨h, st, i, w, r⟩) = true) :
    Accounts p s (complete h st i w r s) := .one rfl rfl hc rfl

theorem completeInline_accounts {h : Handle} {st : Status} (hc : p (.complete ⟨h, st, 0, 0, 0⟩) = true) :
    Accounts p s (completeInline h st s) := complete_accounts s hc

theorem onBlock_accounts (f : Block → Block) : Accounts p s (onBlock f s) := .silent rfl rfl rfl

theorem raise_accounts (f : FaultReason) : Accounts p s (raise f s) := onBlock_accounts s _

theorem shape_accounts (v : Word) : Accounts isControl s (shape v s) := .one rfl rfl rfl rfl

theorem ien_accounts (v : Word) : Accounts isControl s (ien v s) := .one rfl rfl rfl rfl

end Primitives

theorem memReads_accounts : ∀ (as : List Nat) (s : State), Accounts isPump s (memReads as s)
  | [], s => .refl _ s
  | a :: as, s => by
    have h : Accounts isPump s (emit (.memRead a (Memory.read s.mem a)) s) := .one rfl rfl rfl (by simp [replay])
    exact h.trans (memReads_accounts as _)

theorem memWrites_accounts : ∀ (cs : List (Nat × Byte)) (s : State), Accounts isDrain s (memWrites cs s)
  | [], s => .refl _ s
  | c :: cs, s => by
    have h : Accounts isDrain s (memWrite c.1 c.2 s) := .one rfl rfl rfl rfl
    exact h.trans (memWrites_accounts cs _)

theorem mapChains_accounts (cs : List Chain) (s : State) : Accounts isMapQuery s (mapChains cs s).2 := by
  obtain ⟨hp, -, hm, -, -, he⟩ := mapChains_spec cs s
  refine .of_emits he hp hm fun e h => ?_
  cases e with
  | memRead | memWrite => cases h
  | _ => rfl

/-! ### The chip-select sequencer -/

theorem pollBusy_accounts (s : State) : Accounts isPoll s (pollBusy s).2 := by
  obtain ⟨hp, -, hm, -, he⟩ := pollLoop_spec s.params.pollRetries s
  refine .of_emits he hp hm fun e h => ?_
  cases e with
  | memRead | memWrite => cases h
  | _ => rfl

theorem fifoRearm_accounts (s : State) : Accounts isControl s (fifoRearm s) := shape_accounts s _

theorem deassertBegin_accounts (s : State) : Accounts isControl s (deassertBegin s) :=
  ((shape_accounts s _).trans (regWrite_accounts _ rfl)).trans (onBlock_accounts _ _)

theorem deassertComplete_accounts (s : State) : Accounts isWindDown s (deassertComplete s) := by
  have h := (pollBusy_accounts s).mono isWindDown_of_isPoll
  exact (h.trans ((fifoRearm_accounts _).mono isWindDown_of_isControl)).trans (onBlock_accounts _ _)

theorem assertCs_accounts (img : Word) (s : State) : Accounts isNoClaim s (assertCs img s) := by
  have hbegin : Accounts isNoClaim s (assertCsBegin img s) :=
    (((ien_accounts s _).trans (shape_accounts _ _)).mono isNoClaim_of_isControl).trans (regWrite_accounts _ rfl)
  have hpoll := (pollBusy_accounts (assertCsBegin img s)).mono fun e h => isNoClaim_of_isWindDown e (isWindDown_of_isPoll e h)
  have hshape := (shape_accounts (pollBusy (assertCsBegin img s)).2 img).mono isNoClaim_of_isControl
  exact ((hbegin.trans hpoll).trans hshape).trans ((regRead_accounts _ rfl).trans (onBlock_accounts _ _))

/-! ### Codecs and chunks -/

theorem codecWriteGroups_accounts {pm : PMode} : ∀ {ks : List Nat} {cur : Cursor} {s : State} {r : Cursor × State},
    codecWriteGroups pm ks cur s = .next r → Accounts isPump s r.2
  | [], cur, s, r, h => by
    cases h
    exact .refl _ s
  | _ :: _, cur, s, r, h => by
    obtain ⟨q, hq, h⟩ := andThen_eq_next.mp h
    obtain ⟨w, -, rfl⟩ := copyOut_eq_next.mp hq
    exact ((memReads_accounts w.1 s).trans (regWrite_accounts _ rfl)).trans (codecWriteGroups_accounts h)

theorem placeholderGroups_accounts {pm : PMode} : ∀ (ks : List Nat) (s : State), Accounts isPump s (placeholderGroups pm ks s)
  | [], s => .refl _ s
  | _ :: ks, s => (regWrite_accounts s rfl).trans (placeholderGroups_accounts ks _)

theorem pumpWrite_accounts {s t : State} (h : pumpWrite s = .next t) : Accounts isPump s t := by
  obtain ⟨r, hr, ht⟩ := andThen_eq_next.mp h
  cases ht
  exact (codecWriteGroups_accounts hr).trans (onBlock_accounts _ _)

theorem pumpRead_accounts (s : State) : Accounts isPump s (pumpRead s) :=
  (placeholderGroups_accounts _ s).trans (onBlock_accounts _ _)

/-! ### The tests before a command's own effect -/

/-- A next state is the body's: a stuck block has none. -/
theorem unlessStuck_next {s u : State} {body : State → Res State} (hx : unlessStuck s body = .next u) : body s = .next u := by
  unfold unlessStuck at hx
  split at hx
  · cases hx
  · exact hx

/-- The tests of a command emit at most a completion record, or the command's own part runs. -/
theorem gates_accounts {n : Bool} {cmd : Word} {t : Nat} {h : Handle} {s u : State} {body : State → Res State}
    (hx : issueGate n cmd h s (fun s => targetGate t h s body) = .next u) :
    Accounts isCompletion s u ∨ body s = .next u := by
  obtain ⟨-, rfl | rfl | ⟨-, -, hx⟩⟩ := issueGate_next hx
  · exact .inl (raise_accounts s _)
  · exact .inl (raise_accounts s _)
  · obtain rfl | ⟨-, hx⟩ := targetGate_next hx
    · exact .inl (completeInline_accounts s rfl)
    · exact .inr hx

/-! ### Issue -/

theorem issueStart_accounts (h : Handle) (t : Nat) (tc : TargetConfig) (x : Transfer) (s : State) :
    Accounts isNoClaim s (issueStart h t tc x s) := by
  refine (onBlock_accounts s (requestRecord s.params h t tc x)).trans ?_
  unfold issueStart reshapeOrAssert
  split
  · exact (shape_accounts _ _).mono isNoClaim_of_isControl
  · exact assertCs_accounts _ _

theorem issueEnd_accounts (s : State) : Accounts isNoClaim s (issueEnd s) :=
  ((ien_accounts s _).mono isNoClaim_of_isControl).trans (onBlock_accounts _ _)

/-- The effect of a command that starts with a write chunk. -/
theorem issuePump_accounts {h : Handle} {t : Nat} {tc : TargetConfig} {x : Transfer} {y : XState} {s u : State}
    (hx : andThen (pumpWrite (setX y (issueStart h t tc x s))) (fun s => .next (issueEnd s)) = .next u) :
    Accounts isNoClaim s u := by
  obtain ⟨v, hv, hu⟩ := andThen_eq_next.mp hx
  cases hu
  have hpump := (pumpWrite_accounts hv).mono isNoClaim_of_isPump
  exact ((issueStart_accounts h t tc x s).trans (onBlock_accounts _ _)).trans (hpump.trans (issueEnd_accounts v))

/-- The effect of a command that starts with a read chunk. -/
theorem issueRead_accounts (h : Handle) (t : Nat) (tc : TargetConfig) (x : Transfer) (y : XState) (s : State) :
    Accounts isNoClaim s (issueEnd (pumpRead (setX y (issueStart h t tc x s)))) := by
  have hpump := (pumpRead_accounts (setX y (issueStart h t tc x s))).mono isNoClaim_of_isPump
  exact ((issueStart_accounts h t tc x s).trans (onBlock_accounts _ _)).trans (hpump.trans (issueEnd_accounts _))

/-- CheckIssue asks the memory port and completes a refused command; a command that goes on does so from there. -/
theorem checkIssue_accounts {t : Nat} {h : Handle} {x : Transfer} {s u : State} {go : TargetConfig → State → Res State}
    (hgo : ∀ tc v u, go tc v = .next u → Accounts isNoClaim v u) (hx : checkIssue t h x s go = .next u) :
    Accounts isNoClaim s u := by
  have hmap := (mapChains_accounts x.chains s).mono isNoClaim_of_isMapQuery
  unfold checkIssue at hx
  split at hx
  · cases hx
    exact completeInline_accounts s rfl
  · split at hx
    · cases hx
      exact completeInline_accounts s rfl
    · split at hx
      · exact hmap.trans (hgo _ _ _ hx)
      · cases hx
        exact hmap.trans (completeInline_accounts _ rfl)

/-- A transfer command whose effect claims nothing claims nothing. -/
theorem transfer_accounts {cmd : Word} {t : Nat} {h : Handle} {x : Transfer} {s u : State}
    {go : TargetConfig → State → Res State} (hgo : ∀ tc v u, go tc v = .next u → Accounts isNoClaim v u)
    (hx : issueGate true cmd h s (fun s => targetGate t h s fun s => checkIssue t h x s go) = .next u) :
    Accounts isNoClaim s u := by
  obtain hg | hx := gates_accounts hx
  · exact hg.mono isNoClaim_of_isCompletion
  · exact checkIssue_accounts hgo hx

theorem execWrite_accounts {t : Nat} {h : Handle} {w : Chain} {s u : State} (hx : execWrite t h w s = .next u) :
    Accounts isNoClaim s u := transfer_accounts (fun _ _ _ => issuePump_accounts) hx

theorem execRead_accounts {t : Nat} {h : Handle} {r : Chain} {s u : State} (hx : execRead t h r s = .next u) :
    Accounts isNoClaim s u := by
  refine transfer_accounts (fun tc v u hu => ?_) hx
  cases hu
  exact issueRead_accounts h t tc _ _ v

theorem execSequence_accounts {t : Nat} {h : Handle} {ps : List Phase} {s u : State} (hx : execSequence t h ps s = .next u) :
    Accounts isNoClaim s u := transfer_accounts (fun _ _ _ => issuePump_accounts) hx

theorem execFullDuplex_accounts {t : Nat} {h : Handle} {w r : Chain} {s u : State}
    (hx : execFullDuplex t h w r s = .next u) : Accounts isNoClaim s u :=
  transfer_accounts (fun _ _ _ => issuePump_accounts) hx

/-! ### LOCK, UNLOCK, CONNECT and RESET -/

theorem lockTarget_accounts (t : Nat) (h : Handle) (tc : TargetConfig) (s : State) :
    Accounts isNoClaim s (lockTarget t h tc s) := by
  have hrearm := (fifoRearm_accounts (assertCs (img0 s.params tc (selectMode s.params tc.mode 1)) s)).mono isNoClaim_of_isControl
  exact ((assertCs_accounts _ s).trans hrearm).trans ((onBlock_accounts _ _).trans (completeInline_accounts _ rfl))

theorem execLock_accounts {t : Nat} {h : Handle} {s u : State} (hx : execLock t h s = .next u) : Accounts isNoClaim s u := by
  obtain hg | hx := gates_accounts hx
  · exact hg.mono isNoClaim_of_isCompletion
  · split at hx
    · cases hx
      exact completeInline_accounts s rfl
    · split at hx
      · cases hx
        exact completeInline_accounts s rfl
      · cases hx
        exact lockTarget_accounts t h _ s

theorem unlockTarget_accounts (h : Handle) (s : State) : Accounts isNoClaim s (unlockTarget h s) := by
  have hbegin := (deassertBegin_accounts s).mono isNoClaim_of_isControl
  have hend := (deassertComplete_accounts (deassertBegin s)).mono isNoClaim_of_isWindDown
  exact (hbegin.trans hend).trans ((onBlock_accounts _ _).trans (completeInline_accounts _ rfl))

theorem execUnlock_accounts {t : Nat} {h : Handle} {s u : State} (hx : execUnlock t h s = .next u) :
    Accounts isNoClaim s u := by
  obtain hg | hx := gates_accounts hx
  · exact hg.mono isNoClaim_of_isCompletion
  · split at hx
    · cases hx
      exact completeInline_accounts s rfl
    · split at hx
      · cases hx
        exact completeInline_accounts s rfl
      · cases hx
        exact unlockTarget_accounts h s

theorem execConnect_accounts {t : Nat} {h : Handle} {d : Descriptor} {s u : State} (hx : execConnect t h d s = .next u) :
    Accounts isCompletion s u := by
  obtain hg | hx := gates_accounts hx
  · exact hg
  · split at hx
    · cases hx
      exact completeInline_accounts s rfl
    · split at hx
      · cases hx
        exact completeInline_accounts s rfl
      · cases hx
        exact (onBlock_accounts s _).trans (completeInline_accounts _ rfl)

theorem resetStep_accounts (s : State) : Accounts isMove s (resetStep s) :=
  ((onBlock_accounts s _).trans ((ien_accounts _ _).trans (shape_accounts _ _))).mono isMove_of_isControl

/-! ### The interrupt top half -/

theorem takeWord_accounts {k : Nat} {w : Word} {s t : State} (h : takeWord k w s = .next t) : Accounts isDrain s t := by
  unfold takeWord at h
  split at h
  · obtain ⟨r, hr, ht⟩ := andThen_eq_next.mp h
    obtain ⟨q, -, rfl⟩ := copyIn_eq_next.mp hr
    cases ht
    exact (memWrites_accounts _ s).trans (onBlock_accounts _ _)
  · cases h
    exact .refl _ s

theorem drainLoop_accounts : ∀ {ks : List Nat} {s : State} {r : DrainResult × State}, drainLoop ks s = .next r →
    Accounts isDrain s r.2
  | [], s, r, h => by
    cases h
    exact .refl _ s
  | k :: ks, s, r, h => by
    have hstat : Accounts isDrain s (regRead .stat s) := regRead_accounts s rfl
    unfold drainLoop at h
    split at h
    · cases h
      exact hstat
    · obtain ⟨v, hv, h⟩ := andThen_eq_next.mp h
      have hpop : Accounts isDrain (regRead .stat s) (setInflight ks (regRead .fifoIo (regRead .stat s))) :=
        (regRead_accounts _ rfl).trans (onBlock_accounts _ _)
      exact (hstat.trans hpop).trans ((takeWord_accounts hv).trans (drainLoop_accounts h))

theorem done_accounts (s : State) : Accounts isMove s (done s) := by
  refine Accounts.mono ?_ isMove_of_isControl
  unfold done
  split
  · exact (ien_accounts s _).trans (onBlock_accounts _ _)
  · exact ((ien_accounts s _).trans (deassertBegin_accounts _)).trans (onBlock_accounts _ _)

theorem readInitFor_accounts (tc : TargetConfig) (s : State) : Accounts isMove s (readInitFor tc s) := by
  have hmode : Accounts isControl s (setPmode (selectMode s.params tc.mode s.block.rdTotal) (fifoRearm s)) :=
    (fifoRearm_accounts s).trans (onBlock_accounts _ _)
  have hshape := (hmode.trans (shape_accounts _ (img0 s.params tc (selectMode s.params tc.mode s.block.rdTotal)))).mono
    isMove_of_isControl
  exact (hshape.trans ((pumpRead_accounts _).mono isMove_of_isPump)).trans (onBlock_accounts _ _)

theorem readInit_accounts {s u : State} (h : readInit s = .next u) : Accounts isMove s u := by
  unfold readInit at h
  split at h
  · cases h
  · cases h
    exact readInitFor_accounts _ s

/-- A phase with bytes left pumps the next chunk, one without goes on to what ends it. -/
theorem pumpOrElse_accounts {c : Prop} [Decidable c] {pump rest : Res State} {s u : State}
    (hpump : ∀ v, pump = .next v → Accounts isPump s v) (hrest : ∀ v, rest = .next v → Accounts isMove s v)
    (h : (if c then pump else rest) = .next u) : Accounts isMove s u := by
  split at h
  · exact (hpump u h).mono isMove_of_isPump
  · exact hrest u h

theorem advance_accounts {s u : State} (h : advance s = .next u) : Accounts isMove s u := by
  have hread : ∀ v, Host.Outcome.next (pumpRead s) = (.next v : Res State) → Accounts isPump s v := by
    rintro _ ⟨⟩
    exact pumpRead_accounts s
  have hdone : ∀ v, Host.Outcome.next (done s) = (.next v : Res State) → Accounts isMove s v := by
    rintro _ ⟨⟩
    exact done_accounts s
  unfold advance at h
  generalize s.block.xstate = x at h
  cases x with
  | invalid =>
    cases h
    exact .refl _ s
  | write => exact pumpOrElse_accounts (fun _ => pumpWrite_accounts) hdone h
  | read | sequenceRead => exact pumpOrElse_accounts hread hdone h
  | sequenceWrite =>
    refine pumpOrElse_accounts (fun _ => pumpWrite_accounts) (fun _ hv => ?_) h
    exact (onBlock_accounts s _).trans (readInit_accounts hv)
  | sequenceReadInit => exact readInit_accounts h
  | fullDuplex => exact pumpOrElse_accounts (fun _ => pumpWrite_accounts) hdone h

/-- An IRQ step moves data, and then claims or declines the interrupt (43_transfer_state_machine.md R230). -/
theorem execIrq_next {s u : State} (hx : execIrq s = .next u) : ∃ v c, Accounts isMove s v ∧ u = claim c v := by
  have hstat : Accounts isMove s (regRead .irqstat s) := regRead_accounts s rfl
  have hx := unlessStuck_next hx
  split at hx
  · cases hx
    unfold irqAside
    split
    · exact ⟨_, _, hstat.trans ((ien_accounts _ _).mono isMove_of_isControl), rfl⟩
    · exact ⟨_, _, hstat, rfl⟩
  · split at hx
    · obtain ⟨⟨res, v⟩, hd, hx⟩ := andThen_eq_next.mp hx
      have hdrain := hstat.trans ((drainLoop_accounts hd).mono isMove_of_isDrain)
      cases res with
      | part =>
        cases hx
        exact ⟨v, true, hdrain, rfl⟩
      | full =>
        obtain ⟨w, hw, hu⟩ := andThen_eq_next.mp hx
        cases hu
        exact ⟨w, true, hdrain.trans (advance_accounts hw), rfl⟩
    · cases hx
      exact ⟨_, _, hstat, rfl⟩

/-! ### The bottom half and cancellation -/

theorem releaseOrRearm_accounts (s : State) : Accounts isWindDown s (releaseOrRearm s) := by
  unfold releaseOrRearm
  split
  · exact deassertComplete_accounts s
  · exact (fifoRearm_accounts s).mono isWindDown_of_isControl

theorem execBh_accounts {s u : State} (hx : execBh s = .next u) : Accounts isWindDown s u := by
  have hx := unlessStuck_next hx
  split at hx
  · cases hx
  · refine (onBlock_accounts s fun b => { b with bhFor := 0 }).trans ?_
    unfold bhFor at hx
    split at hx
    · split at hx
      · cases hx
      · split at hx
        · cases hx
          exact ((onBlock_accounts _ _).trans (releaseOrRearm_accounts _)).trans
            ((onBlock_accounts _ _).trans (complete_accounts _ rfl))
        · cases hx
          exact (onBlock_accounts _ _).trans (raise_accounts _ _)
    · cases hx
      exact .refl _ _

theorem execCancel_accounts {t : Nat} {hc : Handle} {s u : State} (hx : execCancel t hc s = .next u) :
    Accounts (fun _ => false) s u := by
  have hx := unlessStuck_next hx
  split at hx
  · cases hx
    exact (onBlock_accounts s _).trans (onBlock_accounts _ _)
  · cases hx
    exact .refl _ s

theorem cancelRelease_accounts (s : State) : Accounts isWindDown s (cancelRelease s) := by
  unfold cancelRelease
  split
  · exact deassertComplete_accounts s
  · split
    · have hbegin := (fifoRearm_accounts s).trans (deassertBegin_accounts _)
      exact (hbegin.mono isWindDown_of_isControl).trans (deassertComplete_accounts _)
    · exact (fifoRearm_accounts s).mono isWindDown_of_isControl

theorem execCancelFinish_accounts {s u : State} (hx : execCancelFinish s = .next u) : Accounts isWindDown s u := by
  have hx := unlessStuck_next hx
  split at hx
  · cases hx
  · cases hx
    have hrelease := ((ien_accounts s (ieOff s.params)).mono isWindDown_of_isControl).trans (cancelRelease_accounts _)
    exact hrelease.trans ((onBlock_accounts _ _).trans (completeInline_accounts _ rfl))

/-! ### Every instruction and every step -/

/-- What a step of each instruction may emit. -/
def permitted : Instr → Event → Bool
  | .connect _ _ _ => isCompletion
  | .write _ _ _ => isNoClaim
  | .read _ _ _ => isNoClaim
  | .sequence _ _ _ => isNoClaim
  | .fullDuplex _ _ _ _ => isNoClaim
  | .lock _ _ => isNoClaim
  | .unlock _ _ => isNoClaim
  | .cancel _ _ => fun _ => false
  | .reset => isMove
  | .irq => isTopHalf
  | .bh => isWindDown
  | .cancelFinish => isWindDown

theorem exec_accounts {i : Instr} {s u : State} (h : exec i s = .next u) : Accounts (permitted i) s u := by
  cases i with
  | connect t h' d => exact execConnect_accounts h
  | write t h' w => exact execWrite_accounts h
  | read t h' r => exact execRead_accounts h
  | sequence t h' ps => exact execSequence_accounts h
  | fullDuplex t h' w r => exact execFullDuplex_accounts h
  | lock t h' => exact execLock_accounts h
  | unlock t h' => exact execUnlock_accounts h
  | cancel t hc => exact execCancel_accounts (t := t) h
  | reset =>
    cases h
    exact resetStep_accounts s
  | irq =>
    obtain ⟨v, c, hv, rfl⟩ := execIrq_next h
    exact (hv.mono isTopHalf_of_isMove).trans (claim_accounts v rfl)
  | bh => exact execBh_accounts h
  | cancelFinish => exact execCancelFinish_accounts h

theorem isNoClaim_of_permitted {i : Instr} (hi : i ≠ .irq) (e : Event) (h : permitted i e = true) : isNoClaim e = true := by
  cases i with
  | connect => exact isNoClaim_of_isCompletion e h
  | write | read | sequence | fullDuplex | lock | unlock => exact h
  | cancel => cases h
  | reset => exact isNoClaim_of_isMove e h
  | irq => exact absurd rfl hi
  | bh | cancelFinish => exact isNoClaim_of_isWindDown e h

/-- Any event. -/
abbrev anyEvent : Event → Bool := fun _ => true

theorem Accounts.any {p : Event → Bool} {s t : State} (h : Accounts p s t) : Accounts anyEvent s t := h.mono fun _ _ => rfl

theorem rejectCommand_accounts {cmd : Word} {h : Handle} {s u : State} (hx : rejectCommand cmd h s = .next u) :
    Accounts isCompletion s u := by
  unfold rejectCommand at hx
  split at hx
  · cases unlessStuck_next hx
    exact .refl _ s
  · obtain ⟨-, rfl | rfl | ⟨-, -, hx⟩⟩ := issueGate_next hx
    · exact raise_accounts s _
    · exact raise_accounts s _
    · cases hx
      exact completeInline_accounts s rfl

theorem runInput_accounts {x : Input} {s u : State} (h : runInput x s = .next u) : Accounts anyEvent s u := by
  unfold runInput at h
  split at h
  · split at h
    · exact (exec_accounts h).any
    · exact (rejectCommand_accounts h).any
  · split at h
    · exact (exec_accounts h).any
    · cases h

theorem step_accounts {s u : State} (h : step s = .next u) : Accounts anyEvent s u := by
  unfold step stepPort at h
  split at h
  · rename_i x rest _
    exact (Accounts.silent (t := { s with port := rest }) rfl rfl rfl).trans (runInput_accounts h)
  · cases unlessStuck_next h
    exact .refl _ s

end Sys2Proof.Machine
end

section
/-! PROOFS. The statements of the family 00_scope.md. -/

namespace Sys2Proof.Machine

/-- Settles O53: each instruction accounts for its events (`exec_accounts`), and so does whatever the port makes of an input. -/
theorem traceAccountsForMemory : Obligations.TraceAccountsForMemory := by
  intro s u h
  obtain ⟨hp, es, ht, -, hr⟩ := step_accounts h
  exact ⟨hp, es, ht, hr⟩

/-- Settles O57: what each instruction may emit (`permitted`) says every clause but the place of the claim, which is
`execIrq_next`. -/
theorem contextsKeepTheirDuties : Obligations.ContextsKeepTheirDuties := by
  intro i s u h
  obtain ⟨-, es, ht, hes, -⟩ := exec_accounts h
  refine ⟨es, ht, ?claimsLast, fun hi => all_of_imp hes (isNoClaim_of_permitted hi), ?completes, ?pushes, ?registers⟩
  case claimsLast =>
    rintro rfl
    obtain ⟨v, c, ⟨-, front, hv, hfront, -⟩, rfl⟩ := execIrq_next h
    have htrace : (claim c v).trace = s.trace ++ (front ++ [.claim c]) := by simp [hv]
    exact ⟨front, c, List.append_cancel_left (ht.symm.trans htrace), all_of_imp hfront isNoClaim_of_isMove⟩
  case completes =>
    rintro (rfl | rfl | ⟨t, hc, rfl⟩)
    · exact all_of_imp hes completesNothing_of_isTopHalf
    · exact all_of_imp hes fun e he => completesNothing_of_isTopHalf e (isTopHalf_of_isMove e he)
    · exact all_of_imp hes fun e he => nomatch he
  case pushes =>
    rintro (rfl | rfl | ⟨t, hc, rfl⟩)
    · exact all_of_imp hes pushesNothing_of_isWindDown
    · exact all_of_imp hes pushesNothing_of_isWindDown
    · exact all_of_imp hes fun e he => nomatch he
  case registers =>
    rintro (⟨t, h', d, rfl⟩ | ⟨t, hc, rfl⟩)
    · exact all_of_imp hes touchesNothing_of_isCompletion
    · exact all_of_imp hes fun e he => nomatch he

/-- Settles O5: the port picks the first enabled input, and a decoded input runs its instruction. -/
theorem stepRunsDecodedInput : Obligations.StepRunsDecodedInput := by
  intro before after x i s hport hbefore hx hdecode
  unfold step stepPort
  rw [hport, pick_first hbefore hx]
  exact runInput_of_decode hdecode _

end Sys2Proof.Machine
end

section
/-! PROOFS. What a step can do, said once for each command and event in the terms of the shared operations: the inversion lemmas from
which the families derive what a step keeps (60_exceptions.md R302; 43_transfer_state_machine.md R220 to R235). -/

namespace Sys2Proof.Machine

/-- A command that a test before its own effect ended: a host-protocol fault, or an inline completion, before or after its chains
were mapped (60_exceptions.md R301, R302). -/
inductive Declined (s : State) : State → Prop where
  | raised (f : FaultReason) : Declined s (raise f s)
  | completed (h : Handle) (st : Status) : Declined s (completeInline h st s)
  | unmapped (cs : List Chain) (h : Handle) (st : Status) : Declined s (completeInline h st (mapChains cs s).2)

/-- The tests of a command decline it, or its own part runs in a block they found fit. -/
theorem gates_next {n : Bool} {cmd : Word} {t : Nat} {h : Handle} {s u : State} {body : State → Res State}
    (hx : issueGate n cmd h s (fun s => targetGate t h s body) = .next u) :
    Declined s u ∨ (h ≠ 0 ∧ (n = true → s.block.xstate = .invalid ∧ s.block.bhFor = 0) ∧ t < s.params.numTargetSlots ∧
      body s = .next u) := by
  obtain ⟨-, rfl | rfl | ⟨h0, hidle, hx⟩⟩ := issueGate_next hx
  · exact .inl (.raised _)
  · exact .inl (.raised _)
  · obtain rfl | ⟨ht, hx⟩ := targetGate_next hx
    · exact .inl (.completed h _)
    · exact .inr ⟨h0, hidle, ht, hx⟩

/-! ### CONNECT, LOCK and UNLOCK -/

theorem execConnect_next {t : Nat} {h : Handle} {d : Descriptor} {s u : State} (hx : execConnect t h d s = .next u) :
    Declined s u ∨ (connectCheck s.params d = none ∧ u = completeInline h .success (setTarget t (targetOf d) s)) := by
  obtain hd | ⟨-, -, -, hx⟩ := gates_next hx
  · exact .inl hd
  · split at hx
    · cases hx
      exact .inl (.completed h _)
    · split at hx
      · cases hx
        exact .inl (.completed h _)
      · rename_i hc
        cases hx
        exact .inr ⟨hc, rfl⟩

theorem execLock_next {t : Nat} {h : Handle} {s u : State} (hx : execLock t h s = .next u) :
    Declined s u ∨ ∃ tc, s.block.xstate = .invalid ∧ targetAt s.block t = some tc ∧ u = lockTarget t h tc s := by
  obtain hd | ⟨-, hidle, -, hx⟩ := gates_next hx
  · exact .inl hd
  · split at hx
    · cases hx
      exact .inl (.completed h _)
    · rename_i tc htc
      split at hx
      · cases hx
        exact .inl (.completed h _)
      · cases hx
        exact .inr ⟨tc, (hidle rfl).1, htc, rfl⟩

theorem execUnlock_next {t : Nat} {h : Handle} {s u : State} (hx : execUnlock t h s = .next u) :
    Declined s u ∨ (s.block.xstate = .invalid ∧ u = unlockTarget h s) := by
  obtain hd | ⟨-, hidle, -, hx⟩ := gates_next hx
  · exact .inl hd
  · split at hx
    · cases hx
      exact .inl (.completed h _)
    · split at hx
      · cases hx
        exact .inl (.completed h _)
      · cases hx
        exact .inr ⟨(hidle rfl).1, rfl⟩

/-! ### The transfer commands -/

/-- The first chunk of a transfer: placeholders for a read, bytes of the write chain for any other (43_transfer_state_machine.md
R222 to R225). -/
def firstChunk : Transfer → State → Res State
  | .write _, s => pumpWrite s
  | .read _, s => .next (pumpRead s)
  | .sequence _, s => pumpWrite s
  | .fullDuplex _ _, s => pumpWrite s

/-- The state of a transfer before its first chunk: chains mapped, request recorded, line asserted, tag set. -/
def issued (t : Nat) (h : Handle) (x : Transfer) (tc : TargetConfig) (s : State) : State :=
  setX x.firstState (issueStart h t tc x (mapChains x.chains s).2)

/-- A transfer that started, with v the state after its first chunk. -/
structure Issues (t : Nat) (h : Handle) (x : Transfer) (tc : TargetConfig) (s v : State) : Prop where
  handle : h ≠ 0
  idle : s.block.xstate = .invalid
  quiet : s.block.bhFor = 0
  target : targetAt s.block t = some tc
  checks : ∀ c ∈ issueChecks t x s.block, c.1 = false
  mapped : (mapChains x.chains s).1 = true
  chunk : firstChunk x (issued t h x tc s) = .next v

/-- The four transfer commands are one command over the transfer. -/
theorem exec_transfer (t : Nat) (h : Handle) (x : Transfer) (s : State) : ∃ cmd, exec (x.command t h) s =
    issueGate true cmd h s fun s => targetGate t h s fun s => checkIssue t h x s fun tc s =>
      andThen (firstChunk x (setX x.firstState (issueStart h t tc x s))) fun s => .next (issueEnd s) := by
  cases x with
  | write w => exact ⟨commandWord 2 t, rfl⟩
  | read r => exact ⟨commandWord 3 t, rfl⟩
  | sequence ps => exact ⟨commandWord 4 t, rfl⟩
  | fullDuplex w r => exact ⟨commandWord 5 t, rfl⟩

/-- CheckIssue declines the command, or the command goes on from its mapped chains. -/
theorem checkIssue_declined_or_go {t : Nat} {h : Handle} {x : Transfer} {s u : State} {go : TargetConfig → State → Res State}
    (hx : checkIssue t h x s go = .next u) :
    Declined s u ∨ ∃ tc, targetAt s.block t = some tc ∧ (∀ c ∈ issueChecks t x s.block, c.1 = false) ∧
      (mapChains x.chains s).1 = true ∧ go tc (mapChains x.chains s).2 = .next u := by
  unfold checkIssue at hx
  split at hx
  · cases hx
    exact .inl (.completed h _)
  · rename_i tc htc
    split at hx
    · cases hx
      exact .inl (.completed h _)
    · rename_i hc
      split at hx
      · rename_i hm
        exact .inr ⟨tc, htc, firstFailing_none.mp hc, hm, hx⟩
      · cases hx
        exact .inl (.unmapped _ h _)

theorem transfer_next {t : Nat} {h : Handle} {x : Transfer} {s u : State} (hx : exec (x.command t h) s = .next u) :
    Declined s u ∨ ∃ tc v, Issues t h x tc s v ∧ u = issueEnd v := by
  obtain ⟨cmd, he⟩ := exec_transfer t h x s
  obtain hd | ⟨h0, hidle, -, hx⟩ := gates_next (he.symm.trans hx)
  · exact .inl hd
  · obtain hd | ⟨tc, htc, hc, hm, hx⟩ := checkIssue_declined_or_go hx
    · exact .inl hd
    · obtain ⟨v, hv, hu⟩ := andThen_eq_next.mp hx
      cases hu
      exact .inr ⟨tc, v, ⟨h0, (hidle rfl).1, (hidle rfl).2, htc, hc, hm, hv⟩, rfl⟩

/-! ### The interrupt top half -/

/-- What Advance does by the tag and the counts (43_transfer_state_machine.md R235). -/
inductive Advances (s : State) : State → Prop where
  | idle (hx : s.block.xstate = .invalid) : Advances s s
  | pumpedWrite {u : State} (hx : (s.block.xstate = .write ∨ s.block.xstate = .sequenceWrite) ∨ s.block.xstate = .fullDuplex)
      (hu : pumpWrite s = .next u) : Advances s u
  | pumpedRead (hx : s.block.xstate = .read ∨ s.block.xstate = .sequenceRead) : Advances s (pumpRead s)
  | wroteAll (hx : s.block.xstate = .write) (hc : s.block.wrTotal ≤ s.block.wrDone) : Advances s (done s)
  | readAll (hx : (s.block.xstate = .read ∨ s.block.xstate = .sequenceRead) ∨ s.block.xstate = .fullDuplex)
      (hc : s.block.rdTotal ≤ s.block.rdDone) : Advances s (done s)
  | turned {tc : TargetConfig}
      (hx : (s.block.xstate = .sequenceWrite ∧ s.block.wrTotal ≤ s.block.wrDone) ∨ s.block.xstate = .sequenceReadInit) :
      Advances s (readInitFor tc (setX .sequenceReadInit s))

theorem readInit_next {s u : State} (h : readInit s = .next u) : ∃ tc, u = readInitFor tc s := by
  unfold readInit at h
  split at h
  · cases h
  · cases h
    exact ⟨_, rfl⟩

theorem setX_self {s : State} {x : XState} (h : s.block.xstate = x) : setX x s = s := by
  subst h
  rfl

theorem advance_next {s u : State} (h : advance s = .next u) : Advances s u := by
  unfold advance at h
  split at h
  case h_1 hx =>
    cases h
    exact .idle hx
  case h_2 hx =>
    split at h
    · exact .pumpedWrite (.inl (.inl hx)) h
    · cases h
      exact .wroteAll hx (by omega)
  case h_3 hx =>
    split at h <;> cases h
    · exact .pumpedRead (.inl hx)
    · exact .readAll (.inl (.inl hx)) (by omega)
  case h_4 hx =>
    split at h
    · exact .pumpedWrite (.inl (.inr hx)) h
    · obtain ⟨tc, rfl⟩ := readInit_next h
      exact .turned (.inl ⟨hx, by omega⟩)
  case h_5 hx =>
    obtain ⟨tc, rfl⟩ := readInit_next ((congrArg readInit (setX_self hx)).trans h)
    exact .turned (.inr hx)
  case h_6 hx =>
    split at h <;> cases h
    · exact .pumpedRead (.inr hx)
    · exact .readAll (.inl (.inr hx)) (by omega)
  case h_7 hx =>
    split at h
    · exact .pumpedWrite (.inr hx) h
    · cases h
      exact .readAll (.inr hx) (by omega)

/-- What an IRQ step does (43_transfer_state_machine.md R230). -/
inductive Interrupts (s : State) : State → Prop where
  | aside (ha : standsAside s.block = true) : Interrupts s (irqAside s)
  | notMine : Interrupts s (claim false (regRead .irqstat s))
  | drainedPart {v : State} (ha : standsAside s.block = false) (hd : drain (regRead .irqstat s) = .next (.part, v)) :
      Interrupts s (claim true v)
  | drainedFull {v w : State} (ha : standsAside s.block = false) (hd : drain (regRead .irqstat s) = .next (.full, v))
      (hw : Advances v w) : Interrupts s (claim true w)

theorem execIrq_interrupts {s u : State} (hx : execIrq s = .next u) : Interrupts s u := by
  have hx := unlessStuck_next hx
  split at hx
  · rename_i ha
    cases hx
    exact .aside ha
  · rename_i ha
    have ha := Bool.eq_false_iff.mpr ha
    split at hx
    · obtain ⟨⟨res, v⟩, hd, hx⟩ := andThen_eq_next.mp hx
      cases res with
      | part =>
        cases hx
        exact .drainedPart ha hd
      | full =>
        obtain ⟨w, hw, hu⟩ := andThen_eq_next.mp hx
        cases hu
        exact .drainedFull ha hd (advance_next hw)
    · cases hx
      exact .notMine

/-! ### The bottom half and cancellation -/

/-- What a BH step does (44_completion_cancel.md R270). -/
inductive BottomHalf (s : State) : State → Prop where
  | stale (hn : s.block.bhFor ≠ 0) (ht : takes s.block.bhFor s = false) : BottomHalf s (clearBh s)
  | finished {c : Nat × Nat × Nat} (ht : takes s.block.bhFor s = true) :
      BottomHalf s (bhFinish s.block.bhFor c (taken (clearBh s)))
  | mismatched (ht : takes s.block.bhFor s = true) (hm : countsMatch s.block = false) :
      BottomHalf s (raise (mismatchOf s.block) (taken (clearBh s)))

theorem execBh_next {s u : State} (hx : execBh s = .next u) : BottomHalf s u := by
  have hx := unlessStuck_next hx
  split at hx
  · cases hx
  · rename_i hn
    unfold bhFor at hx
    split at hx
    · rename_i ht
      split at hx
      · cases hx
      · split at hx <;> cases hx
        · exact .finished ht
        · rename_i hm
          exact .mismatched ht (Bool.eq_false_iff.mpr hm)
    · rename_i ht
      cases hx
      exact .stale hn (Bool.eq_false_iff.mpr ht)

theorem execCancel_next {t : Nat} {hc : Handle} {s u : State} (hx : execCancel t hc s = .next u) :
    u = s ∨ (takes hc s = true ∧ u = setCancelFor hc (taken s)) := by
  have hx := unlessStuck_next hx
  split at hx <;> cases hx
  · exact .inr ⟨‹_›, rfl⟩
  · exact .inl rfl

theorem execCancelFinish_next {s u : State} (hx : execCancelFinish s = .next u) :
    s.block.cancelFor ≠ 0 ∧ u = cancelCleanup s := by
  have hx := unlessStuck_next hx
  split at hx <;> cases hx
  exact ⟨‹_›, rfl⟩

/-- A command word without an instruction is declined, or it is a CANCEL word and does nothing. -/
theorem rejectCommand_next {cmd : Word} {h : Handle} {s u : State} (hx : rejectCommand cmd h s = .next u) :
    u = s ∨ Declined s u := by
  unfold rejectCommand at hx
  split at hx
  · cases unlessStuck_next hx
    exact .inl rfl
  · obtain ⟨-, rfl | rfl | ⟨-, -, hx⟩⟩ := issueGate_next hx
    · exact .inr (.raised _)
    · exact .inr (.raised _)
    · cases hx
      exact .inr (.completed h _)

/-! ### Every step -/

theorem runInput_next {x : Input} {s u : State} (h : runInput x s = .next u) :
    (u = s ∨ Declined s u) ∨ ∃ i, decodeInput x = some i ∧ exec i s = .next u := by
  cases hd : decodeInput x with
  | some i => exact .inr ⟨i, rfl, (runInput_of_decode hd s).symm.trans h⟩
  | none =>
    cases x with
    | command cmd o =>
      simp only [decodeInput] at hd
      simp only [runInput] at h
      split at h
      · simp_all
      · exact .inl (rejectCommand_next h)
    | event code =>
      simp only [decodeInput] at hd
      simp [runInput, hd] at h

/-- An enabled input has the widths of the port. -/
theorem operandsFit_of_enabled {p : Params} {b : Block} {x : Input} {i : Instr} (he : inputEnabled p x b = true)
    (hd : decodeInput x = some i) : operandsFit p i = true := by
  cases x with
  | command cmd o =>
    simp only [inputEnabled, deliverable, Bool.and_eq_true] at he
    simp only [decodeInput] at hd
    split at hd
    · rename_i hc
      cases hd
      simpa [hc] using he.1.1
    · cases hd
  | event code =>
    simp only [decodeInput, decodeEvent] at hd
    split at hd <;> cases hd <;> rfl

/-- A step with a next state waits, or takes an input off the port: one without an effect, one that is declined, or an instruction
whose operands have the widths of the port. -/
theorem step_next {s u : State} (h : step s = .next u) :
    u = s ∨ ∃ rest, (u = { s with port := rest } ∨ Declined { s with port := rest } u) ∨
      ∃ i, operandsFit s.params i = true ∧ exec i { s with port := rest } = .next u := by
  unfold step stepPort at h
  split at h
  · rename_i x rest hp
    refine .inr ⟨rest, (runInput_next h).imp_right ?_⟩
    rintro ⟨i, hd, hx⟩
    exact ⟨i, operandsFit_of_enabled (pick_enabled hp) hd, hx⟩
  · cases unlessStuck_next h
    exact .inl rfl

end Sys2Proof.Machine
end

section
/-! PROOFS. The invariant of the block (10_state.md R44), cut by the phase of a request: an idle block, a running request with its
progress, a request that reached done, and one a cancel has taken. Each operation is shown to keep or to change the phase. -/

namespace Sys2Proof.Machine

variable {p : Params} {b : Block} {s t u : State}

/-! ### The phases of a request -/

/-- What the invariant says of an idle block (10_state.md R44 items 1 to 3). -/
structure IdleInv (p : Params) (b : Block) : Prop where
  targetsLegal : TargetsLegal p b
  lockTarget : b.locked = true → (targetAt b b.lockTgt).isSome = true
  idle : b.xstate = .invalid
  owns : b.slot = 0 ∧ b.cancelable = false ∧ b.inflight = [] ∧ b.cancelFor = 0
  clear : clearFifoOf p.layout b.shadow0 = true
  quiet : doneIeOf p.layout b.shadow1 = false
  line : b.cs = if b.locked then .asserted else .released
  bhFits : b.bhFor < 2 ^ p.handleBits

/-- Who owns a running request, and the line it holds: what no chunk changes (10_state.md R30 to R33, R36). -/
structure Owned (p : Params) (b : Block) : Prop where
  targetsLegal : TargetsLegal p b
  target : (targetAt b b.tgt).isSome = true
  lockTarget : b.locked = true → b.lockTgt = b.tgt
  owner : b.slot ≠ 0 ∧ b.cancelFor = 0 ∧ b.cancelable = true ∧ b.bhFor = 0
  line : b.cs = .asserted
  interrupt : doneIeOf p.layout b.shadow1 = true
  slotFits : b.slot < 2 ^ p.handleBits

/-- The counts of a live request lie within its totals, and its cursors follow them (10_state.md R27; 43_transfer_state_machine.md
R238). -/
structure Counted (p : Params) (b : Block) : Prop where
  live : b.xstate ≠ .invalid
  bounded : b.wrDone ≤ b.wrTotal ∧ b.rdDone ≤ b.rdTotal ∧ b.wrTotal ≤ Config.lenMax ∧ b.rdTotal ≤ Config.lenMax
  wrAt : b.wr.At p.addrSpace b.wrDone b.wrTotal
  rdAt : b.rd.At p.addrSpace b.rdDone b.rdTotal

/-- How far a live request has come: its counts, and what its tag says of them and of the words in flight (10_state.md R29). -/
structure Progress (p : Params) (b : Block) : Prop extends Counted p b where
  inflight : InflightFits b
  phase : CountsFollowPhase b

theorem blockInv_iff_idleInv (hx : b.xstate = .invalid) : BlockInv p b ↔ IdleInv p b := by
  constructor
  · intro h
    obtain ⟨hfree, hlocked, -⟩ := h.line
    refine ⟨h.targetsLegal, h.targetsInUse.2.1, hx, h.idleOwns hx, (h.idleQuiet hx).1, (h.idleQuiet hx).2, ?_, h.handles.2.2⟩
    split
    · exact hlocked ‹_›
    · exact hfree hx (Bool.eq_false_iff.mpr ‹_›)
  · intro h
    obtain ⟨hslot, hcancelable, hinflight, hcancel⟩ := h.owns
    have hpow : 0 < 2 ^ p.handleBits := Nat.two_pow_pos _
    exact {
      targetsLegal := h.targetsLegal
      targetsInUse := ⟨fun hl => absurd hx hl, h.lockTarget, fun hl => absurd hx hl⟩
      idleOwns := fun _ => h.owns
      owner := fun hl => absurd hx hl
      idleQuiet := fun _ => ⟨h.clear, h.quiet⟩
      line := ⟨fun _ hl => by simp [h.line, hl], fun hl => by simp [h.line, hl], fun hl => absurd hx hl,
        fun hl => absurd hx hl, fun hs => absurd hslot hs⟩
      interrupt := ⟨fun hl => absurd hx hl, fun _ => h.quiet⟩
      inflight := by simp [InflightFits, hinflight]
      bounded := fun hl => absurd hx hl
      phase := by simp [CountsFollowPhase, hx]
      doneComplete := fun hl => absurd hx hl
      cursors := fun hl => absurd hx hl
      handles := ⟨hslot ▸ hpow, hcancel ▸ hpow, h.bhFits⟩ }

theorem BlockInv.progress (h : BlockInv p b) (hl : b.xstate ≠ .invalid) : Progress p b :=
  ⟨⟨hl, h.bounded hl, (h.cursors hl).1, (h.cursors hl).2⟩, h.inflight, h.phase⟩

/-- A live request that nothing holds back from advancing is a running one. -/
theorem BlockInv.owned (h : BlockInv p b) (ha : standsAside b = false) : Owned p b ∧ Progress p b := by
  simp only [standsAside, Bool.or_eq_false_iff, decide_eq_false_iff_not, Decidable.not_not] at ha
  obtain ⟨⟨hl, hslot⟩, hbh⟩ := ha
  obtain ⟨htgt, -, hlock⟩ := h.targetsInUse
  have hown : b.slot ≠ 0 ∧ b.cancelFor = 0 ∧ b.cancelable = true := by
    obtain hown | ⟨h0, -⟩ := (h.owner hl).1
    · exact hown
    · exact absurd h0 hslot
  refine ⟨⟨h.targetsLegal, htgt hl, hlock hl, ⟨hslot, hown.2.1, hown.2.2, hbh⟩, ?_, ?_, h.handles.1⟩, h.progress hl⟩
  · exact h.line.2.2.2.2 hslot hbh
  · exact h.interrupt.1 hl hbh hown.2.1

/-- A running request meets the invariant. -/
theorem Owned.blockInv (ho : Owned p b) (hp : Progress p b) : BlockInv p b := by
  obtain ⟨hslot, hcancel, hcancelable, hbh⟩ := ho.owner
  have hl := hp.live
  have hpow : 0 < 2 ^ p.handleBits := Nat.two_pow_pos _
  exact {
    targetsLegal := ho.targetsLegal
    targetsInUse := ⟨fun _ => ho.target, fun h => ho.lockTarget h ▸ ho.target, fun _ => ho.lockTarget⟩
    idleOwns := fun hx => absurd hx hl
    owner := fun _ => ⟨.inl ⟨hslot, hcancel, hcancelable⟩, .inl hbh⟩
    idleQuiet := fun hx => absurd hx hl
    line := by simp [LineFollowsRequest, ho.line, hl, hbh]
    interrupt := ⟨fun _ _ _ => ho.interrupt, fun h => absurd hbh h⟩
    inflight := hp.inflight
    bounded := fun _ => hp.bounded
    phase := hp.phase
    doneComplete := fun _ _ h => absurd hbh h
    cursors := fun _ => ⟨hp.wrAt, hp.rdAt⟩
    handles := ⟨ho.slotFits, hcancel ▸ hpow, hbh ▸ hpow⟩ }

/-- The invariant does not speak of the fault. -/
theorem BlockInv.withFault (h : BlockInv p b) (f : Option FaultReason) : BlockInv p { b with fault := f } := { h with }

/-! ### Chunks -/

/-- The words of a chunk fit the FIFO and the chunk. -/
theorem inflightFits_groups {n : Nat} (hb : b.inflight = groups b.pmode n) (hn : n ≤ cap b.pmode) : InflightFits b := by
  rw [InflightFits, hb]
  exact ⟨groups_length hn, (groups_sum b.pmode n).symm ▸ hn, fun k => groups_mem⟩

/-- A write chunk moves the write cursor with its count; what the tag says of the new counts is for the caller to show. -/
theorem pumpWrite_progress (h : pumpWrite s = .next t) (hc : Counted s.params s.block)
    (hph : CountsFollowPhase { s.block with wrDone := s.block.wrDone + writeChunk s.block,
                                            inflight := groups s.block.pmode (writeChunk s.block) }) :
    Progress s.params t.block := by
  obtain ⟨-, -, -, -, cur, -, ht⟩ := pumpWrite_spec h
  obtain ⟨t', ht', hat⟩ := pumpWrite_of_at hc.wrAt
  cases h.symm.trans ht'
  have hle := hc.bounded.1
  have hrest : writeChunk s.block ≤ s.block.wrTotal - s.block.wrDone := Nat.min_le_left _ _
  rw [ht] at hat ⊢
  exact ⟨⟨hc.live, ⟨by dsimp only; omega, hc.bounded.2⟩, hat, hc.rdAt⟩, inflightFits_groups rfl (Nat.min_le_right _ _), hph⟩

/-- A read chunk puts no more bytes in flight than are left to read. -/
theorem pumpedRead_progress (hc : Counted p b)
    (hx : b.xstate = .read ∨ (b.xstate = .sequenceRead ∧ b.wrDone = b.wrTotal)) : Progress p (pumpedRead b) := by
  have hle := hc.bounded.2.1
  have hrest : readChunk b ≤ b.rdTotal - b.rdDone := Nat.min_le_left _ _
  have hsum : b.rdDone + readChunk b ≤ b.rdTotal := by omega
  refine ⟨{ hc with }, inflightFits_groups rfl (Nat.min_le_right _ _), ?_⟩
  obtain hx | ⟨hx, hw⟩ := hx
  · simp [CountsFollowPhase, pumpedRead, hx, groups_sum, hsum]
  · simp [CountsFollowPhase, pumpedRead, hx, groups_sum, hsum, hw]

/-! ### Drain -/

/-- The bytes in flight of a read phase are still to be read. -/
theorem Progress.stored_le (h : Progress p b) : storedBytes b.xstate b.inflight ≤ b.rdTotal - b.rdDone := by
  obtain ⟨hread, -, -, hseq, hdup⟩ := h.phase
  have hle := h.bounded
  unfold storedBytes
  cases hx : b.xstate with
  | invalid | write | sequenceWrite | sequenceReadInit => simp [readPhase]
  | read =>
    have := hread hx
    simp only [readPhase, if_true]
    omega
  | sequenceRead =>
    have := (hseq hx).1
    simp only [readPhase, if_true]
    omega
  | fullDuplex =>
    have := hdup hx
    simp only [readPhase, if_true]
    omega

/-- Popping words keeps what the tag says of the counts: the bytes of a read phase move from the words in flight to its count. -/
theorem countsFollowPhase_pop {popped rest : List Nat} {cur : Cursor} (h : CountsFollowPhase b) (hi : b.inflight = popped ++ rest) :
    CountsFollowPhase { b with inflight := rest, rd := cur, rdDone := b.rdDone + storedBytes b.xstate popped } := by
  obtain ⟨hread, hseqw, hinit, hseq, hdup⟩ := h
  rw [hi, List.sum_append] at hread hseq hdup
  refine ⟨fun hx => ?_, fun hx => ?_, fun hx => ?_, fun hx => ?_, fun hx => ?_⟩ <;> dsimp only at hx ⊢ <;>
    simp only [hx, storedBytes, readPhase, if_true, Bool.false_eq_true, if_false]
  · have := hread hx
    omega
  · exact hseqw hx
  · exact hinit hx
  · have := hseq hx
    omega
  · have := hdup hx
    omega

/-- A drain keeps the progress of the request; a full one leaves nothing in flight. -/
theorem drain_progress {r : DrainResult × State} (h : drain s = .next r) (hp : Progress s.params s.block) :
    Progress s.params r.2.block ∧ (r.1 = .full → r.2.block.inflight = []) ∧
      ∃ rest cur n, r.2.block = { s.block with inflight := rest, rd := cur, rdDone := n } := by
  obtain ⟨-, -, -, popped, rest, as, cur, hi, hfull, -, hb, -⟩ := drainLoop_spec h rfl
  obtain ⟨r', hr', hat⟩ := drainLoop_of_at rfl hp.rdAt hp.stored_le
  cases h.symm.trans hr'
  have hle := hp.stored_le
  have hbound := hp.bounded
  obtain ⟨hlen, hsum, hmem⟩ := hp.inflight
  have hpop : storedBytes s.block.xstate popped ≤ storedBytes s.block.xstate s.block.inflight := by
    rw [hi]
    unfold storedBytes
    split <;> simp
  rw [hb] at hat ⊢
  refine ⟨⟨⟨hp.live, ?_, hp.wrAt, hat⟩, ⟨?_, ?_, ?_⟩, countsFollowPhase_pop hp.phase hi⟩, fun hf => hfull.mp hf, _, _, _, rfl⟩
  · dsimp only
    omega
  · simp only [hi, List.length_append] at hlen
    dsimp only
    omega
  · simp only [hi, List.sum_append] at hsum
    dsimp only
    omega
  · exact fun k hk => hmem k (hi ▸ List.mem_append_right _ hk)

/-- A drain keeps memory canonical and inside the address space. -/
theorem drain_memory {r : DrainResult × State} (h : drain s = .next r) (hm : Memory.wf s.mem = true)
    (hw : Memory.within s.params.addrSpace s.mem = true) :
    Memory.wf r.2.mem = true ∧ Memory.within s.params.addrSpace r.2.mem = true := by
  obtain ⟨-, -, -, _, _, _, _, -, -, -, -, hwf, hin, -⟩ := drainLoop_spec h rfl
  exact ⟨(hwf hm).1, hin hw⟩

/-! ### Advance -/

/-- A drained request whose counts reached its totals meets the invariant once its bottom half is queued, the interrupt is quiet,
and the line is in release unless a lock holds it. -/
theorem Owned.queued_blockInv (ho : Owned p b) (hp : Progress p b) (hi : b.inflight = []) (hc : (counts b).isSome = true)
    (hm : countsMatch b = true) {v0 v1 : Word} {cs : CsState} (hquiet : doneIeOf p.layout v1 = false)
    (hheld : b.locked = true → cs = .asserted) (hfree : b.locked = false → cs = .releasing) :
    BlockInv p { b with bhFor := b.slot, shadow0 := v0, shadow1 := v1, cs := cs } := by
  obtain ⟨hslot, hcancel, hcancelable, -⟩ := ho.owner
  have hinv := ho.blockInv hp
  have hline : cs ≠ .released := by
    cases hl : b.locked with
    | true => simp [hheld hl]
    | false => simp [hfree hl]
  exact { hinv with
    idleQuiet := fun hx => absurd hx hp.live
    owner := fun _ => ⟨.inl ⟨hslot, hcancel, hcancelable⟩, .inr (.inl rfl)⟩
    line := ⟨fun hx => absurd hx hp.live, hheld, fun _ => hline, fun _ hl _ => hfree hl, fun _ h => absurd h hslot⟩
    interrupt := ⟨fun _ h => absurd h hslot, fun _ => hquiet⟩
    doneComplete := fun _ _ _ => ⟨hi, hc, hm⟩
    handles := ⟨ho.slotFits, hinv.handles.2.1, ho.slotFits⟩ }

/-- Done of a drained request whose counts reached its totals (43_transfer_state_machine.md R236). -/
theorem done_blockInv (hv : s.params.valid = true) (ho : Owned s.params s.block) (hp : Progress s.params s.block)
    (hi : s.block.inflight = []) (hc : (counts s.block).isSome = true) (hm : countsMatch s.block = true) :
    BlockInv s.params (done s).block := by
  rw [done_block]
  split
  · exact ho.queued_blockInv hp hi hc hm (doneIeOf_ieOff hv) (fun _ => ho.line) fun hl => by simp_all
  · exact ho.queued_blockInv hp hi hc hm (doneIeOf_ieOff hv) (fun hl => by simp_all) fun _ => rfl

@[simp] theorem readInitFor_params (tc : TargetConfig) (s : State) : (readInitFor tc s).params = s.params := by simp [readInitFor]

@[simp] theorem readInitFor_mem (tc : TargetConfig) (s : State) : (readInitFor tc s).mem = s.mem := by simp [readInitFor]

@[simp] theorem readInitFor_block (tc : TargetConfig) (s : State) :
    (readInitFor tc s).block =
      pumpedRead { s.block with xstate := .sequenceRead, pmode := selectMode s.params tc.mode s.block.rdTotal,
                                shadow0 := img0 s.params tc (selectMode s.params tc.mode s.block.rdTotal) } := by
  simp [readInitFor, pumpedRead]

/-- Advance of a running request with nothing in flight keeps the invariant (43_transfer_state_machine.md R235, R238). -/
theorem advance_blockInv (hv : s.params.valid = true) (ho : Owned s.params s.block) (hp : Progress s.params s.block)
    (hi : s.block.inflight = []) (ha : Advances s t) : BlockInv s.params t.block := by
  have hb := hp.bounded
  obtain ⟨-, hseqw, hinit, hseq, hdup⟩ := hp.phase
  rw [hi, List.sum_nil] at hseq hdup
  cases ha with
  | idle => exact ho.blockInv hp
  | pumpedWrite hx hu =>
    obtain ⟨-, -, -, -, cur, -, ht⟩ := pumpWrite_spec hu
    have hpump := pumpWrite_progress hu hp.toCounted (by
      obtain (hx | hx) | hx := hx <;> simp [CountsFollowPhase, hx, groups_sum]
      · exact hseqw hx
      · have := hdup hx
        omega)
    rw [ht] at hpump ⊢
    exact Owned.blockInv { ho with } hpump
  | pumpedRead hx =>
    rw [pumpRead_block]
    exact Owned.blockInv { ho with } (pumpedRead_progress hp.toCounted (hx.imp_right fun hx => ⟨hx, (hseq hx).2⟩))
  | wroteAll hx hc =>
    exact done_blockInv hv ho hp hi (by simp [counts, hx]) (by simp [countsMatch, countsWrite, countsRead, hx]; omega)
  | readAll hx hc =>
    refine done_blockInv hv ho hp hi ?_ ?_
    · obtain (hx | hx) | hx := hx <;> simp [counts, hx]
    · have hrd : s.block.rdDone = s.block.rdTotal := by omega
      obtain (hx | hx) | hx := hx
      · simp [countsMatch, countsWrite, hx, hrd]
      · simp [countsMatch, hrd, (hseq hx).2]
      · have := hdup hx
        simp [countsMatch, hrd]
        omega
  | turned hx =>
    have hw : s.block.wrDone = s.block.wrTotal := by
      obtain ⟨-, hw⟩ | hx := hx
      · omega
      · exact (hinit hx).2
    rw [readInitFor_block]
    exact Owned.blockInv { ho with } (pumpedRead_progress ⟨by simp, hb, hp.wrAt, hp.rdAt⟩ (.inr ⟨rfl, hw⟩))

end Sys2Proof.Machine
end

section
/-! PROOFS. Every step keeps the invariant (10_state.md R44): one lemma for each operation of the issue, the top half, the bottom half
and the cancel, and from them each instruction and each step. -/

namespace Sys2Proof.Machine

variable {p : Params} {b : Block} {s t u : State}

/-- The invariant of a state with the parameters and the memory of one that meets it is that of its block. -/
theorem Inv.of_block (hi : Inv s) (hp : t.params = s.params) (hm : t.mem = s.mem) (hb : BlockInv s.params t.block) : Inv t :=
  ⟨hp ▸ hi.params, hm ▸ hi.memory, by rw [hp, hm]; exact hi.space, hp ▸ hb⟩

theorem Declined.inv (hd : Declined s u) (hi : Inv s) : Inv u := by
  cases hd with
  | raised f => exact hi.of_block rfl rfl (hi.block.withFault _)
  | completed h st => exact hi.of_block rfl rfl hi.block
  | unmapped cs h st =>
    obtain ⟨hp, hb, hm, -⟩ := mapChains_spec cs s
    exact hi.of_block hp hm (hb ▸ hi.block)

/-! ### CONNECT -/

/-- The checks of CONNECT bound the configuration it installs (10_state.md R21; 41_control_compiler.md R171). -/
theorem targetOf_legal {d : Descriptor} (h : connectCheck p d = none) : (targetOf d).Legal p := by
  have hc := firstFailing_none.mp h
  simp only [connectChecks, List.mem_cons, List.not_mem_nil, or_false, forall_eq_or_imp, forall_eq, Bool.or_eq_false_iff,
    decide_eq_false_iff_not] at hc
  obtain ⟨-, -, -, hline, ⟨hcpol, hcpha⟩, -, hlow, hhigh⟩ := hc
  have hmode : 2 * d.cpol + d.cpha ≤ 3 := by omega
  exact ⟨Nat.le_of_not_lt hlow, Nat.le_of_not_lt hhigh, hmode, Nat.le_of_lt_succ (Nat.lt_of_not_le hline), rfl⟩

theorem targetsLegal_set {tc : TargetConfig} (h : TargetsLegal p b) (htc : tc.Legal p) (n : Nat) :
    TargetsLegal p { b with targets := b.targets.set n (some tc) } := by
  refine ⟨by simpa using h.1, fun e he tc' htc' => ?_⟩
  obtain he | rfl := List.mem_or_eq_of_mem_set he
  · exact h.2 e he tc' htc'
  · cases htc'
    exact htc

/-- Connecting a target leaves every connected one connected. -/
theorem targetAt_set_isSome {tc : TargetConfig} {n i : Nat} (h : (targetAt b i).isSome = true) :
    (targetAt { b with targets := b.targets.set n (some tc) } i).isSome = true := by
  simp only [targetAt, List.getD_eq_getElem?_getD, List.getElem?_set] at h ⊢
  split
  · split
    · rfl
    · simp_all
  · exact h

theorem BlockInv.setTarget (h : BlockInv p b) {tc : TargetConfig} (htc : tc.Legal p) (n : Nat) :
    BlockInv p { b with targets := b.targets.set n (some tc) } := by
  obtain ⟨hlive, hlocked, hsame⟩ := h.targetsInUse
  exact { h with
    targetsLegal := targetsLegal_set h.targetsLegal htc n
    targetsInUse := ⟨fun hl => targetAt_set_isSome (hlive hl), fun hl => targetAt_set_isSome (hlocked hl), hsame⟩ }

/-! ### LOCK and UNLOCK -/

theorem lockTarget_inv {n : Nat} {h : Handle} {tc : TargetConfig} (hi : Inv s) (hx : s.block.xstate = .invalid)
    (ht : targetAt s.block n = some tc) : Inv (lockTarget n h tc s) := by
  have hidle := (blockInv_iff_idleInv hx).mp hi.block
  refine hi.of_block (by simp [lockTarget]) (by simp [lockTarget]) ((blockInv_iff_idleInv (by simpa [lockTarget])).mpr ?_)
  exact {
    targetsLegal := by simpa [lockTarget] using hidle.targetsLegal
    lockTarget := fun _ => by
      have : (targetAt s.block n).isSome = true := by simp [ht]
      simpa [lockTarget, targetAt] using this
    idle := by simpa [lockTarget]
    owns := by simpa [lockTarget] using hidle.owns
    clear := by simp [lockTarget, clearFifoOf_fifoReset (layout_valid hi.params)]
    quiet := by simp [lockTarget, doneIeOf_ieOff hi.params]
    line := by simp [lockTarget]
    bhFits := by simpa [lockTarget] using hidle.bhFits }

theorem unlockTarget_inv {h : Handle} (hi : Inv s) (hx : s.block.xstate = .invalid) : Inv (unlockTarget h s) := by
  have hidle := (blockInv_iff_idleInv hx).mp hi.block
  refine hi.of_block (by simp [unlockTarget, deassertCs]) (by simp [unlockTarget, deassertCs])
    ((blockInv_iff_idleInv (by simpa [unlockTarget, deassertCs])).mpr ?_)
  simp only [unlockTarget, deassertCs, completeInline_block, clearLock_block, deassertComplete_block, deassertBegin_block,
    deassertBegin_params]
  exact { hidle with
    lockTarget := nofun
    clear := clearFifoOf_fifoReset (layout_valid hi.params) _
    line := rfl }

/-! ### RESET -/

theorem reset_blockInv (hv : p.valid = true) : BlockInv p (Block.reset p.numTargetSlots (resetShape p.layout)) :=
  (blockInv_iff_idleInv rfl).mpr {
    targetsLegal := ⟨by simp [Block.reset], fun e he tc htc => by
      rw [(List.mem_replicate.mp he).2] at htc
      cases htc⟩
    lockTarget := nofun
    idle := rfl
    owns := ⟨rfl, rfl, rfl, rfl⟩
    clear := clearFifoOf_resetShape (layout_valid hv)
    quiet := doneIeOf_zero _
    line := rfl
    bhFits := Nat.two_pow_pos _ }

theorem resetStep_inv (hi : Inv s) : Inv (resetStep s) := hi.of_block rfl rfl (reset_blockInv hi.params)

/-! ### The transfer commands -/

theorem cap_pos (pm : PMode) : 1 ≤ cap pm := by cases pm <;> decide

/-- The write chain of a well-formed transfer is mapped, or it is the empty chain. -/
theorem wchain_mem {x : Transfer} (h : x.malformed = false) : x.wchain ∈ x.chains ∨ x.wchain = [] := by
  cases x with
  | write | fullDuplex => simp [Transfer.wchain, Transfer.chains]
  | read => simp [Transfer.wchain]
  | sequence ps => simp [sequence_chains h]

/-- The read chain of a well-formed transfer is mapped, or it is the empty chain. -/
theorem rchain_mem {x : Transfer} (h : x.malformed = false) : x.rchain ∈ x.chains ∨ x.rchain = [] := by
  cases x with
  | read | fullDuplex => simp [Transfer.rchain, Transfer.chains]
  | write => simp [Transfer.rchain]
  | sequence ps => simp [sequence_chains h]

theorem issued_params (n : Nat) (h : Handle) (x : Transfer) (tc : TargetConfig) (s : State) :
    (issued n h x tc s).params = s.params := by
  rw [issued, setX_params, (issueStart_spec h n tc x _).2.1, (mapChains_spec _ s).1]

theorem issued_mem (n : Nat) (h : Handle) (x : Transfer) (tc : TargetConfig) (s : State) :
    (issued n h x tc s).mem = s.mem := by
  rw [issued, setX_mem, (issueStart_spec h n tc x _).2.2.1, (mapChains_spec _ s).2.2.1]

theorem issued_block (n : Nat) (h : Handle) (x : Transfer) (tc : TargetConfig) (s : State) :
    ∃ v0 v1, (issued n h x tc s).block =
      { requestRecord s.params h n tc x s.block with shadow0 := v0, shadow1 := v1, cs := .asserted, xstate := x.firstState } := by
  obtain ⟨hp, hb, -⟩ := mapChains_spec x.chains s
  rw [issued, setX_block, (issueStart_spec h n tc x _).1, hp, hb]
  exact ⟨_, _, rfl⟩

theorem firstState_ne_invalid (x : Transfer) : x.firstState ≠ .invalid := by
  cases x with
  | write | read | fullDuplex => simp [Transfer.firstState]
  | sequence ps =>
    simp only [Transfer.firstState]
    split <;> simp

theorem Issues.counted {n : Nat} {h : Handle} {x : Transfer} {tc : TargetConfig} {v : State} (hx : Issues n h x tc s v) :
    Counted s.params (issued n h x tc s).block := by
  obtain ⟨-, hform, hlen, -⟩ := issueChecks_pass hx.checks
  have hfits := (mapChains_spec x.chains s).2.2.2.2.1 hx.mapped
  have hchain : ∀ {c : Chain}, c ∈ x.chains ∨ c = [] →
      total c ≤ Config.lenMax ∧ (Cursor.fresh c).At s.params.addrSpace 0 (total c) := by
    rintro c (hc | rfl)
    · exact ⟨hlen c hc, fresh_at (hfits c hc)⟩
    · exact ⟨Nat.zero_le _, fresh_at rfl⟩
  obtain ⟨hwlen, hwat⟩ := hchain (wchain_mem hform)
  obtain ⟨hrlen, hrat⟩ := hchain (rchain_mem hform)
  obtain ⟨v0, v1, hb⟩ := issued_block n h x tc s
  rw [hb]
  exact ⟨firstState_ne_invalid x, ⟨Nat.zero_le _, Nat.zero_le _, hwlen, hrlen⟩, hwat, hrat⟩

/-- The first chunk moves the write cursor with its count and fills the FIFO; nothing else of the block changes. -/
theorem firstChunk_spec {x : Transfer} {v : State} (h : firstChunk x s = .next v) :
    v.params = s.params ∧ v.mem = s.mem ∧
      ∃ cur n ks, v.block = { s.block with wr := cur, wrDone := n, inflight := ks } := by
  have hpump : ∀ {v}, pumpWrite s = .next v → v.params = s.params ∧ v.mem = s.mem ∧
      ∃ cur n ks, v.block = { s.block with wr := cur, wrDone := n, inflight := ks } := fun hv => by
    obtain ⟨hp, hm, -, -, cur, -, hb⟩ := pumpWrite_spec hv
    exact ⟨hp, hm, cur, _, _, hb⟩
  cases x with
  | read r =>
    cases h
    exact ⟨pumpRead_params s, pumpRead_mem s, _, _, _, pumpRead_block s⟩
  | write | sequence | fullDuplex => exact hpump h

/-- A transfer that started has made the progress of its first chunk (43_transfer_state_machine.md R222 to R225, R239). -/
theorem Issues.progress {n : Nat} {h : Handle} {x : Transfer} {tc : TargetConfig} {v : State} (hx : Issues n h x tc s v) :
    Progress s.params v.block := by
  have hc := hx.counted
  have hp := issued_params n h x tc s
  obtain ⟨v0, v1, hb⟩ := issued_block n h x tc s
  have hchunk := hx.chunk
  cases x with
  | read r =>
    cases hchunk
    rw [pumpRead_block]
    exact pumpedRead_progress hc (.inl (by rw [hb]; rfl))
  | write w =>
    refine hp ▸ pumpWrite_progress hchunk (hp ▸ hc) ?_
    simp [CountsFollowPhase, hb, Transfer.firstState]
  | sequence ps =>
    refine hp ▸ pumpWrite_progress hchunk (hp ▸ hc) ?_
    simp only [CountsFollowPhase, hb, Transfer.firstState]
    split
    · rename_i h1
      simp [requestRecord, h1, cap_pos]
    · simp [requestRecord]
  | fullDuplex w r =>
    refine hp ▸ pumpWrite_progress hchunk (hp ▸ hc) ?_
    have heq : total w = total r := by
      simpa [Transfer.unequal] using (issueChecks_pass hx.checks).2.2.2.1
    simp [CountsFollowPhase, hb, Transfer.firstState, requestRecord, groups_sum, Transfer.wchain, Transfer.rchain, heq]

theorem Issues.inv {n : Nat} {h : Handle} {x : Transfer} {tc : TargetConfig} {v : State} (hi : Inv s)
    (hh : handleFits s.params h = true) (hx : Issues n h x tc s v) : Inv (issueEnd v) := by
  obtain ⟨hp, hm, cur, k, ks, hv⟩ := firstChunk_spec hx.chunk
  obtain ⟨v0, v1, hb⟩ := issued_block n h x tc s
  have hidle := (blockInv_iff_idleInv hx.idle).mp hi.block
  have hprog := hx.progress
  rw [issued_params] at hp
  rw [issued_mem] at hm
  refine hi.of_block (by simpa [issueEnd]) (by simpa [issueEnd]) ?_
  rw [hv, hb] at hprog
  simp only [issueEnd, markCancelable_block, ien_block, hv, hb, hp]
  refine Owned.blockInv ?_ { hprog with }
  exact {
    targetsLegal := hidle.targetsLegal
    target := by
      have : (targetAt s.block n).isSome = true := by simp [hx.target]
      exact this
    lockTarget := (issueChecks_pass hx.checks).1
    owner := ⟨hx.handle, hidle.owns.2.2.2, rfl, hx.quiet⟩
    line := rfl
    interrupt := doneIeOf_ieOn hi.params
    slotFits := of_decide_eq_true hh }

/-! ### The interrupt top half -/

/-- A block with nothing to advance keeps the invariant when the interrupt is quieted (43_transfer_state_machine.md R237). -/
theorem BlockInv.quieted (h : BlockInv p b) (ha : standsAside b = true) {v : Word} (hv : doneIeOf p.layout v = false) :
    BlockInv p { b with shadow1 := v } := by
  refine { h with
    idleQuiet := fun hx => ⟨(h.idleQuiet hx).1, hv⟩
    interrupt := ⟨fun hl hbh hcancel => ?_, fun _ => hv⟩ }
  obtain ⟨hslot, -⟩ | ⟨-, hc, -⟩ := (h.owner hl).1
  · simp_all [standsAside]
  · exact absurd hcancel hc

theorem irqAside_inv (hi : Inv s) (ha : standsAside s.block = true) : Inv (irqAside s) := by
  unfold irqAside
  split
  · refine hi.of_block (by simp) (by simp) ?_
    simpa using hi.block.quieted ha (doneIeOf_ieOff hi.params)
  · exact hi.of_block (by simp) (by simp) (by simpa using hi.block)

theorem Advances.frame (h : Advances s t) : t.params = s.params ∧ t.mem = s.mem := by
  cases h with
  | idle => exact ⟨rfl, rfl⟩
  | pumpedWrite hx hu => exact ⟨(pumpWrite_spec hu).1, (pumpWrite_spec hu).2.1⟩
  | pumpedRead | wroteAll | readAll | turned => simp

theorem Interrupts.inv (h : Interrupts s u) (hi : Inv s) : Inv u := by
  have hread : Inv (regRead .irqstat s) := hi.of_block (by simp) (by simp) (by simpa using hi.block)
  have hdrain : ∀ {r}, standsAside s.block = false → drain (regRead .irqstat s) = .next r →
      Owned r.2.params r.2.block ∧ Progress r.2.params r.2.block ∧ (r.1 = .full → r.2.block.inflight = []) ∧
      r.2.params.valid = true ∧ Memory.wf r.2.mem = true ∧ Memory.within r.2.params.addrSpace r.2.mem = true := by
    intro r ha hd
    obtain ⟨ho, hp⟩ := hread.block.owned (by simpa using ha)
    obtain ⟨hp', hfull, rest, cur, n, hb⟩ := drain_progress hd hp
    obtain ⟨hm, hw⟩ := drain_memory hd hread.memory hread.space
    have hpar := (drainLoop_spec hd rfl).1
    rw [hpar]
    exact ⟨hb ▸ { ho with }, hp', hfull, hread.params, hm, hw⟩
  cases h with
  | aside ha => exact irqAside_inv hi ha
  | notMine => exact hread.of_block rfl rfl hread.block
  | drainedPart ha hd =>
    obtain ⟨ho, hp, -, hv, hm, hw⟩ := hdrain ha hd
    exact ⟨hv, hm, hw, ho.blockInv hp⟩
  | @drainedFull v w ha hd hadv =>
    obtain ⟨ho, hp, hfull, hv, hm, hw⟩ := hdrain ha hd
    have hdrained : Inv v := ⟨hv, hm, hw, ho.blockInv hp⟩
    have hblock : BlockInv v.params w.block := advance_blockInv hv ho hp (hfull rfl) hadv
    exact hdrained.of_block (t := claim true w) hadv.frame.1 hadv.frame.2 hblock

/-! ### The bottom half and cancellation -/

/-- The invariant of an idle block whose FIFOs were reset and whose line was given back unless a lock holds it: how a request that is
no longer owned ends (44_completion_cancel.md R270, R283). -/
theorem BlockInv.ended (h : BlockInv p b) {v0 v1 : Word} {cs : CsState} {bh : Handle} (hclear : clearFifoOf p.layout v0 = true)
    (hquiet : doneIeOf p.layout v1 = false) (hheld : b.locked = true → cs = .asserted) (hfree : b.locked = false → cs = .released)
    (hbh : bh < 2 ^ p.handleBits) :
    BlockInv p { b with xstate := .invalid, slot := 0, cancelable := false, inflight := [], cancelFor := 0, bhFor := bh,
                        shadow0 := v0, shadow1 := v1, cs := cs } :=
  (blockInv_iff_idleInv rfl).mpr {
    targetsLegal := h.targetsLegal
    lockTarget := h.targetsInUse.2.1
    idle := rfl
    owns := ⟨rfl, rfl, rfl, rfl⟩
    clear := hclear
    quiet := hquiet
    line := by
      cases hl : b.locked with
      | true => simpa using hheld hl
      | false => simpa using hfree hl
    bhFits := hbh }

/-- A slot that holds a handle is that of a live request. -/
theorem BlockInv.live_of_slot (h : BlockInv p b) (hs : b.slot ≠ 0) : b.xstate ≠ .invalid := fun hx => hs (h.idleOwns hx).1

/-- A queued bottom half whose handle is not in the slot finds the slot empty: the request is idle or a cancel took it. -/
theorem BlockInv.slot_of_stale (h : BlockInv p b) (hn : b.bhFor ≠ 0) (hs : b.slot ≠ b.bhFor) : b.slot = 0 := by
  by_contra h0
  obtain ⟨⟨-, hc, -⟩ | ⟨hz, -⟩, hbh⟩ := h.owner (h.live_of_slot h0)
  · obtain hbh | hbh | hbh := hbh
    · exact hn hbh
    · exact hs hbh.symm
    · exact hn (hbh.trans hc)
  · exact h0 hz

/-- A stale bottom half is dropped (44_completion_cancel.md R270). -/
theorem BlockInv.droppedBh (h : BlockInv p b) (hs : b.slot = 0) : BlockInv p { b with bhFor := 0 } := by
  obtain ⟨hfree, hheld, hlive, -, -⟩ := h.line
  exact { h with
    owner := fun hl => ⟨(h.owner hl).1, .inl rfl⟩
    line := ⟨hfree, hheld, hlive, fun _ _ h0 => absurd rfl h0, fun h0 => absurd hs h0⟩
    interrupt := ⟨fun hl _ hc => by
      obtain ⟨h0, -⟩ | ⟨-, hc', -⟩ := (h.owner hl).1
      · exact absurd hs h0
      · exact absurd hc hc', fun h0 => absurd rfl h0⟩
    doneComplete := fun _ h0 => absurd hs h0
    handles := ⟨h.handles.1, h.handles.2.1, Nat.two_pow_pos _⟩ }

theorem releaseOrRearm_block (s : State) :
    (releaseOrRearm s).block =
      { s.block with shadow0 := fifoReset s.params.layout s.block.shadow0,
                     cs := if s.block.cs = .releasing then .released else s.block.cs } := by
  unfold releaseOrRearm
  split <;> simp

theorem releaseOrRearm_frame (s : State) : (releaseOrRearm s).params = s.params ∧ (releaseOrRearm s).mem = s.mem := by
  unfold releaseOrRearm
  split <;> simp

theorem BottomHalf.inv (h : BottomHalf s u) (hi : Inv s) : Inv u := by
  have hinv := hi.block
  cases h with
  | stale hn ht =>
    have hs : s.block.slot ≠ s.block.bhFor := by simpa [takes, hn] using ht
    exact hi.of_block rfl rfl (hinv.droppedBh (hinv.slot_of_stale hn hs))
  | mismatched ht hm =>
    obtain ⟨h0, hs⟩ := takes_eq_true.mp ht
    have h0s : s.block.slot ≠ 0 := hs ▸ h0
    obtain ⟨-, -, hmatch⟩ := hinv.doneComplete (hinv.live_of_slot h0s) h0s h0
    simp [hm] at hmatch
  | finished ht =>
    obtain ⟨h0, hs⟩ := takes_eq_true.mp ht
    have h0s : s.block.slot ≠ 0 := hs ▸ h0
    have hl := hinv.live_of_slot h0s
    have hflight := (hinv.doneComplete hl h0s h0).1
    have hcancel : s.block.cancelFor = 0 := by
      obtain ⟨-, hc, -⟩ | ⟨hz, -⟩ := (hinv.owner hl).1
      · exact hc
      · exact absurd hz h0s
    obtain ⟨-, hheld, -, hrel, -⟩ := hinv.line
    obtain ⟨hp, hm⟩ := releaseOrRearm_frame (taken (clearBh s))
    have hend := hinv.ended (cs := if s.block.cs = .releasing then .released else s.block.cs)
      (clearFifoOf_fifoReset (layout_valid hi.params) s.block.shadow0) (hinv.interrupt.2 h0) (fun hl => by simp [hheld hl])
      (fun hf => by simp [hrel hl hf h0]) (Nat.two_pow_pos _)
    refine hi.of_block (by simp [bhFinish, hp]) (by simp [bhFinish, hm]) ?_
    simpa [bhFinish, releaseOrRearm_block, hflight, hcancel] using hend

/-- A cancel takes the request from its slot (44_completion_cancel.md R280). -/
theorem BlockInv.cancelled (h : BlockInv p b) (hs : b.slot ≠ 0) :
    BlockInv p { b with slot := 0, cancelable := false, cancelFor := b.slot } := by
  have hl := h.live_of_slot hs
  obtain ⟨hfree, hheld, hlive, hrel, -⟩ := h.line
  have howner : b.bhFor = 0 ∨ b.bhFor = b.slot := by
    obtain ⟨⟨-, hc, -⟩ | ⟨hz, -⟩, hbh⟩ := h.owner hl
    · obtain hbh | hbh | hbh := hbh
      · exact .inl hbh
      · exact .inr hbh
      · exact .inl (hbh.trans hc)
    · exact absurd hz hs
  exact { h with
    idleOwns := fun hx => absurd hx hl
    owner := fun _ => ⟨.inr ⟨rfl, hs, rfl⟩, howner.imp_right .inr⟩
    line := ⟨hfree, hheld, hlive, hrel, fun h0 => absurd rfl h0⟩
    interrupt := ⟨fun _ _ hc => absurd hc hs, h.interrupt.2⟩
    doneComplete := fun _ h0 => absurd rfl h0
    handles := ⟨Nat.two_pow_pos _, h.handles.1, h.handles.2.2⟩ }

theorem cancelRelease_frame (s : State) : (cancelRelease s).params = s.params ∧ (cancelRelease s).mem = s.mem := by
  unfold cancelRelease
  split
  · simp
  · split <;> simp

/-- The cleanup of a cancel ends with the FIFOs in reset, and the line released unless a lock keeps it. -/
theorem cancelRelease_block (s : State) : ∃ v, (cancelRelease s).block =
    { s.block with shadow0 := fifoReset s.params.layout v,
                   cs := if s.block.cs = .releasing ∨ s.block.locked = false then .released else s.block.cs } := by
  unfold cancelRelease
  split
  · exact ⟨_, by simp [*]; rfl⟩
  · split
    · exact ⟨_, by simp [*]; rfl⟩
    · exact ⟨_, by simp [*]; rfl⟩

theorem cancelCleanup_inv (hi : Inv s) (hc : s.block.cancelFor ≠ 0) : Inv (cancelCleanup s) := by
  have hinv := hi.block
  have hl : s.block.xstate ≠ .invalid := fun hx => hc (hinv.idleOwns hx).2.2.2
  obtain ⟨hslot, hcancelable⟩ : s.block.slot = 0 ∧ s.block.cancelable = false := by
    obtain ⟨-, h0, -⟩ | ⟨hslot, -, hcancelable⟩ := (hinv.owner hl).1
    · exact absurd h0 hc
    · exact ⟨hslot, hcancelable⟩
  obtain ⟨hp, hm⟩ := cancelRelease_frame (ien (ieOff s.params) s)
  obtain ⟨v, hb⟩ := cancelRelease_block (ien (ieOff s.params) s)
  have hend := hinv.ended (cs := if s.block.cs = .releasing ∨ s.block.locked = false then .released else s.block.cs)
    (clearFifoOf_fifoReset (layout_valid hi.params) v) (doneIeOf_ieOff hi.params)
    (fun hl => by simp [hl, hinv.line.2.1 hl]) (fun hl => by simp [hl]) hinv.handles.2.2
  refine hi.of_block (by simp [cancelCleanup, hp]) (by simp [cancelCleanup, hm]) ?_
  simpa [cancelCleanup, hb, hslot, hcancelable] using hend

/-! ### Every instruction and every step -/

theorem transfer_inv {n : Nat} {h : Handle} {x : Transfer} (hi : Inv s) (hh : handleFits s.params h = true)
    (hx : exec (x.command n h) s = .next u) : Inv u := by
  obtain hd | ⟨tc, v, hs, rfl⟩ := transfer_next hx
  · exact hd.inv hi
  · exact hs.inv hi hh

theorem exec_inv {i : Instr} (hi : Inv s) (hf : operandsFit s.params i = true) (h : exec i s = .next u) : Inv u := by
  cases i with
  | connect n h' d =>
    obtain hd | ⟨hc, rfl⟩ := execConnect_next h
    · exact hd.inv hi
    · exact hi.of_block rfl rfl (hi.block.setTarget (targetOf_legal hc) n)
  | write n h' w =>
    simp only [operandsFit, Bool.and_eq_true] at hf
    exact transfer_inv (x := .write w) hi hf.1 h
  | read n h' r =>
    simp only [operandsFit, Bool.and_eq_true] at hf
    exact transfer_inv (x := .read r) hi hf.1 h
  | sequence n h' ps =>
    simp only [operandsFit, Bool.and_eq_true] at hf
    exact transfer_inv (x := .sequence ps) hi hf.1 h
  | fullDuplex n h' w r =>
    simp only [operandsFit, Bool.and_eq_true] at hf
    exact transfer_inv (x := .fullDuplex w r) hi hf.1.1 h
  | lock n h' =>
    obtain hd | ⟨tc, hx, ht, rfl⟩ := execLock_next h
    · exact hd.inv hi
    · exact lockTarget_inv hi hx ht
  | unlock n h' =>
    obtain hd | ⟨hx, rfl⟩ := execUnlock_next h
    · exact hd.inv hi
    · exact unlockTarget_inv hi hx
  | cancel n hc =>
    obtain rfl | ⟨ht, rfl⟩ := execCancel_next (t := n) h
    · exact hi
    · obtain ⟨h0, rfl⟩ := takes_eq_true.mp ht
      exact hi.of_block rfl rfl (hi.block.cancelled h0)
  | reset =>
    cases h
    exact resetStep_inv hi
  | irq => exact (execIrq_interrupts h).inv hi
  | bh => exact (execBh_next h).inv hi
  | cancelFinish =>
    obtain ⟨hc, rfl⟩ := execCancelFinish_next h
    exact cancelCleanup_inv hi hc

theorem step_inv (hi : Inv s) (h : step s = .next u) : Inv u := by
  obtain rfl | ⟨rest, h⟩ := step_next h
  · exact hi
  · have hport : Inv { s with port := rest } := hi.of_block rfl rfl hi.block
    obtain (rfl | hd) | ⟨i, hf, hx⟩ := h
    · exact hport
    · exact hd.inv hport
    · exact exec_inv hport hf hx

end Sys2Proof.Machine
end

section
/-! PROOFS. The shadows follow the writes of CNTL0 and CNTL1 (10_state.md R34): one rule for the two operations that write a control
word, one for everything that writes none, and from them each operation, each instruction and each step. -/

namespace Sys2Proof.Machine

variable {s t u : State}

/-! ### The last write of a trace -/

theorem lastWrite_append (r : CoreReg) : ∀ es es' : List Event, lastWrite r (es ++ es') = (lastWrite r es').or (lastWrite r es)
  | [], es' => by simp [lastWrite]
  | e :: es, es' => by
    simp only [List.cons_append, lastWrite, lastWrite_append r es es']
    cases lastWrite r es' <;> rfl

/-- The event writes a control word. -/
def writesShadow : Event → Bool
  | .regWrite .cntl0 _ => true
  | .regWrite .cntl1 _ => true
  | _ => false

theorem lastWrite_of_quiet {r : CoreReg} (hr : r = .cntl0 ∨ r = .cntl1) : ∀ {es : List Event},
    (∀ e ∈ es, writesShadow e = false) → lastWrite r es = none
  | [], _ => rfl
  | e :: es, h => by
    have he := h e List.mem_cons_self
    have ih := lastWrite_of_quiet hr fun e' he' => h e' (List.mem_cons_of_mem _ he')
    cases e with
    | regWrite r' v =>
      have hne : r' ≠ r := by
        rintro rfl
        obtain rfl | rfl := hr <;> cases he
      simp [lastWrite, ih, hne]
    | _ => simp [lastWrite, ih]

/-! ### The rules -/

theorem ShadowsFollowWrites.after_shape (h : ShadowsFollowWrites s) (v : Word) : ShadowsFollowWrites (shape v s) := by
  simpa [ShadowsFollowWrites, lastWrite_append, lastWrite] using h.2

theorem ShadowsFollowWrites.after_ien (h : ShadowsFollowWrites s) (v : Word) : ShadowsFollowWrites (ien v s) := by
  simpa [ShadowsFollowWrites, lastWrite_append, lastWrite] using h.1

/-- Events that write no control word keep the shadows that do not change. -/
theorem ShadowsFollowWrites.after_quiet {q : Event → Bool} (h : ShadowsFollowWrites s) (he : Emits q s t)
    (hq : ∀ e, q e = true → writesShadow e = false) (h0 : t.block.shadow0 = s.block.shadow0)
    (h1 : t.block.shadow1 = s.block.shadow1) : ShadowsFollowWrites t := by
  obtain ⟨es, ht, hes⟩ := he
  have hnone := fun e he => hq e (List.all_eq_true.mp hes e he)
  simp only [ShadowsFollowWrites, ht, lastWrite_append, lastWrite_of_quiet (.inl rfl) hnone, lastWrite_of_quiet (.inr rfl) hnone,
    h0, h1]
  exact h

/-- One event that writes no control word. -/
theorem ShadowsFollowWrites.after_event {e : Event} (h : ShadowsFollowWrites s) (ht : t.trace = s.trace ++ [e])
    (he : writesShadow e = false) (hb : t.block = s.block) : ShadowsFollowWrites t :=
  h.after_quiet (q := fun e => !writesShadow e) (.one ht (by simp [he])) (by simp) (by rw [hb]) (by rw [hb])

/-- A change of the block that leaves the shadows alone. -/
theorem ShadowsFollowWrites.after_onBlock {f : Block → Block} (h : ShadowsFollowWrites s)
    (h0 : (f s.block).shadow0 = s.block.shadow0) (h1 : (f s.block).shadow1 = s.block.shadow1) :
    ShadowsFollowWrites (onBlock f s) :=
  h.after_quiet (q := fun _ => false) (.of_eq rfl) nofun h0 h1

theorem ShadowsFollowWrites.after_regRead (h : ShadowsFollowWrites s) (r : CoreReg) : ShadowsFollowWrites (regRead r s) :=
  h.after_event (regRead_trace r s) rfl (regRead_block r s)

theorem ShadowsFollowWrites.after_claim (h : ShadowsFollowWrites s) (m : Bool) : ShadowsFollowWrites (claim m s) :=
  h.after_event (claim_trace m s) rfl rfl

theorem ShadowsFollowWrites.after_complete (h : ShadowsFollowWrites s) (hd : Handle) (st : Status) (i w r : Nat) :
    ShadowsFollowWrites (complete hd st i w r s) := h.after_event (complete_trace hd st i w r s) rfl rfl

theorem ShadowsFollowWrites.after_mapChains (h : ShadowsFollowWrites s) (cs : List Chain) :
    ShadowsFollowWrites (mapChains cs s).2 := by
  obtain ⟨-, hb, -, -, -, he⟩ := mapChains_spec cs s
  refine h.after_quiet he (fun e h => ?_) (by rw [hb]) (by rw [hb])
  cases e with
  | regWrite => cases h
  | _ => rfl

theorem writesShadow_of_isPump (e : Event) (h : isPump e = true) : writesShadow e = false := by
  cases e with
  | regWrite r v =>
    cases r with
    | fifoHold => rfl
    | _ => cases h
  | _ => rfl

/-! ### The chip-select sequencer and the chunks -/

theorem ShadowsFollowWrites.after_pollBusy (h : ShadowsFollowWrites s) : ShadowsFollowWrites (pollBusy s).2 := by
  obtain ⟨-, hb, -, -, he⟩ := pollLoop_spec s.params.pollRetries s
  refine h.after_quiet he (fun e h => ?_) (by rw [pollBusy_block]) (by rw [pollBusy_block])
  cases e with
  | regWrite => cases h
  | _ => rfl

theorem ShadowsFollowWrites.after_assertCs (h : ShadowsFollowWrites s) (img : Word) : ShadowsFollowWrites (assertCs img s) := by
  have hbegin : ShadowsFollowWrites (assertCsBegin img s) := ((h.after_ien _).after_shape _).after_event rfl rfl rfl
  exact ((hbegin.after_pollBusy.after_shape img).after_regRead _).after_onBlock rfl rfl

theorem ShadowsFollowWrites.after_fifoRearm (h : ShadowsFollowWrites s) : ShadowsFollowWrites (fifoRearm s) := h.after_shape _

theorem ShadowsFollowWrites.after_deassertBegin (h : ShadowsFollowWrites s) : ShadowsFollowWrites (deassertBegin s) := by
  have hpush : ShadowsFollowWrites (regWrite .fifoIo 0 (shape (zeroWidth s.params.layout s.block.shadow0) s)) :=
    (h.after_shape _).after_event rfl rfl rfl
  exact hpush.after_onBlock rfl rfl

theorem ShadowsFollowWrites.after_deassertComplete (h : ShadowsFollowWrites s) : ShadowsFollowWrites (deassertComplete s) :=
  h.after_pollBusy.after_fifoRearm.after_onBlock rfl rfl

theorem ShadowsFollowWrites.after_pumpWrite (h : ShadowsFollowWrites s) (ht : pumpWrite s = .next t) : ShadowsFollowWrites t := by
  obtain ⟨-, -, -, he, cur, -, hb⟩ := pumpWrite_spec ht
  exact h.after_quiet he writesShadow_of_isPump (by rw [hb]) (by rw [hb])

theorem ShadowsFollowWrites.after_pumpRead (h : ShadowsFollowWrites s) : ShadowsFollowWrites (pumpRead s) := by
  obtain ⟨-, -, -, -, he⟩ := placeholderGroups_spec (pm := s.block.pmode) (groups s.block.pmode (readChunk s.block)) s
  exact h.after_quiet he writesShadow_of_isPump (by simp) (by simp)

/-! ### Commands -/

theorem Declined.shadows (hd : Declined s u) (h : ShadowsFollowWrites s) : ShadowsFollowWrites u := by
  cases hd with
  | raised f => exact h.after_onBlock rfl rfl
  | completed hc st => exact h.after_complete hc st 0 0 0
  | unmapped cs hc st => exact (h.after_mapChains cs).after_complete hc st 0 0 0

theorem ShadowsFollowWrites.after_lockTarget (h : ShadowsFollowWrites s) (n : Nat) (hc : Handle) (tc : TargetConfig) :
    ShadowsFollowWrites (lockTarget n hc tc s) := by
  have hline := (h.after_assertCs (img0 s.params tc (selectMode s.params tc.mode 1))).after_fifoRearm
  have hlock : ShadowsFollowWrites (setLock n _) := hline.after_onBlock rfl rfl
  exact hlock.after_complete hc _ 0 0 0

theorem ShadowsFollowWrites.after_unlockTarget (h : ShadowsFollowWrites s) (hc : Handle) :
    ShadowsFollowWrites (unlockTarget hc s) := by
  have hlock : ShadowsFollowWrites (clearLock _) := h.after_deassertBegin.after_deassertComplete.after_onBlock rfl rfl
  exact hlock.after_complete hc _ 0 0 0

theorem ShadowsFollowWrites.after_issued (h : ShadowsFollowWrites s) (n : Nat) (hc : Handle) (x : Transfer) (tc : TargetConfig) :
    ShadowsFollowWrites (issued n hc x tc s) := by
  have hrecord : ShadowsFollowWrites
      (onBlock (requestRecord (mapChains x.chains s).2.params hc n tc x) (mapChains x.chains s).2) :=
    (h.after_mapChains x.chains).after_onBlock rfl rfl
  have hstart : ShadowsFollowWrites (issueStart hc n tc x (mapChains x.chains s).2) := by
    unfold issueStart reshapeOrAssert
    split
    · exact hrecord.after_shape _
    · exact hrecord.after_assertCs _
  exact hstart.after_onBlock rfl rfl

theorem ShadowsFollowWrites.after_firstChunk {x : Transfer} (h : ShadowsFollowWrites s) (ht : firstChunk x s = .next t) :
    ShadowsFollowWrites t := by
  cases x with
  | read r =>
    cases ht
    exact h.after_pumpRead
  | write | sequence | fullDuplex => exact h.after_pumpWrite ht

theorem transfer_shadows {n : Nat} {hc : Handle} {x : Transfer} (h : ShadowsFollowWrites s)
    (hx : exec (x.command n hc) s = .next u) : ShadowsFollowWrites u := by
  obtain hd | ⟨tc, v, hs, rfl⟩ := transfer_next hx
  · exact hd.shadows h
  · have hchunk := (h.after_issued n hc x tc).after_firstChunk hs.chunk
    exact (hchunk.after_ien (ieOn v.params)).after_onBlock rfl rfl

/-- RESET records the two words it writes, whatever the shadows were (10_state.md R34; 70_reset_and_hazards.md R340). -/
theorem resetStep_shadows (s : State) : ShadowsFollowWrites (resetStep s) := by
  simp [ShadowsFollowWrites, resetStep, lastWrite_append, lastWrite, Block.reset]

/-! ### The interrupt top half -/

theorem ShadowsFollowWrites.after_done (h : ShadowsFollowWrites s) : ShadowsFollowWrites (done s) := by
  unfold done queueBh
  refine ShadowsFollowWrites.after_onBlock ?_ rfl rfl
  split
  · exact h.after_ien _
  · exact (h.after_ien _).after_deassertBegin

theorem ShadowsFollowWrites.after_readInitFor (h : ShadowsFollowWrites s) (tc : TargetConfig) :
    ShadowsFollowWrites (readInitFor tc s) := by
  have hmode : ShadowsFollowWrites (setPmode (selectMode s.params tc.mode s.block.rdTotal) (fifoRearm s)) :=
    h.after_fifoRearm.after_onBlock rfl rfl
  exact (hmode.after_shape _).after_pumpRead.after_onBlock rfl rfl

theorem Advances.shadows (ha : Advances s t) (h : ShadowsFollowWrites s) : ShadowsFollowWrites t := by
  cases ha with
  | idle => exact h
  | pumpedWrite hx hu => exact h.after_pumpWrite hu
  | pumpedRead => exact h.after_pumpRead
  | wroteAll | readAll => exact h.after_done
  | turned =>
    have htag : ShadowsFollowWrites (setX .sequenceReadInit s) := h.after_onBlock rfl rfl
    exact htag.after_readInitFor _

theorem ShadowsFollowWrites.after_drain {r : DrainResult × State} (h : ShadowsFollowWrites s) (hd : drain s = .next r) :
    ShadowsFollowWrites r.2 := by
  obtain ⟨-, -, he, _, _, _, _, -, -, -, hb, -⟩ := drainLoop_spec hd rfl
  refine h.after_quiet he (fun e h => ?_) (by rw [hb]) (by rw [hb])
  cases e with
  | regWrite => cases h
  | _ => rfl

theorem Interrupts.shadows (hi : Interrupts s u) (h : ShadowsFollowWrites s) : ShadowsFollowWrites u := by
  have hread := h.after_regRead .irqstat
  cases hi with
  | aside =>
    unfold irqAside
    split
    · exact (hread.after_ien _).after_claim _
    · exact hread.after_claim _
  | notMine => exact hread.after_claim _
  | drainedPart ha hd => exact (hread.after_drain hd).after_claim _
  | drainedFull ha hd hw => exact (hw.shadows (hread.after_drain hd)).after_claim _

/-! ### The bottom half and cancellation -/

theorem BottomHalf.shadows (hb : BottomHalf s u) (h : ShadowsFollowWrites s) : ShadowsFollowWrites u := by
  have hclear : ShadowsFollowWrites (clearBh s) := h.after_onBlock rfl rfl
  have htaken : ShadowsFollowWrites (taken (clearBh s)) := hclear.after_onBlock rfl rfl
  cases hb with
  | stale => exact hclear
  | mismatched => exact htaken.after_onBlock rfl rfl
  | finished =>
    have hrelease : ShadowsFollowWrites (releaseOrRearm (taken (clearBh s))) := by
      unfold releaseOrRearm
      split
      · exact htaken.after_deassertComplete
      · exact htaken.after_fifoRearm
    have hidle : ShadowsFollowWrites (setX .invalid _) := hrelease.after_onBlock rfl rfl
    exact hidle.after_complete _ _ _ _ _

theorem ShadowsFollowWrites.after_cancelCleanup (h : ShadowsFollowWrites s) : ShadowsFollowWrites (cancelCleanup s) := by
  have hien := h.after_ien (ieOff s.params)
  have hrelease : ShadowsFollowWrites (cancelRelease (ien (ieOff s.params) s)) := by
    unfold cancelRelease
    split
    · exact hien.after_deassertComplete
    · split
      · exact hien.after_fifoRearm.after_deassertBegin.after_deassertComplete
      · exact hien.after_fifoRearm
  have hforget : ShadowsFollowWrites (forgetRequest _) := hrelease.after_onBlock rfl rfl
  exact hforget.after_complete _ _ 0 0 0

/-! ### Every instruction and every step -/

theorem exec_shadows {i : Instr} (h : ShadowsFollowWrites s) (hx : exec i s = .next u) : ShadowsFollowWrites u := by
  cases i with
  | connect n hc d =>
    obtain hd | ⟨-, rfl⟩ := execConnect_next hx
    · exact hd.shadows h
    · have htarget : ShadowsFollowWrites (setTarget n (targetOf d) s) := h.after_onBlock rfl rfl
      exact htarget.after_complete hc _ 0 0 0
  | write n hc w => exact transfer_shadows (x := .write w) h hx
  | read n hc r => exact transfer_shadows (x := .read r) h hx
  | sequence n hc ps => exact transfer_shadows (x := .sequence ps) h hx
  | fullDuplex n hc w r => exact transfer_shadows (x := .fullDuplex w r) h hx
  | lock n hc =>
    obtain hd | ⟨tc, -, -, rfl⟩ := execLock_next hx
    · exact hd.shadows h
    · exact h.after_lockTarget n hc tc
  | unlock n hc =>
    obtain hd | ⟨-, rfl⟩ := execUnlock_next hx
    · exact hd.shadows h
    · exact h.after_unlockTarget hc
  | cancel n hc =>
    obtain rfl | ⟨-, rfl⟩ := execCancel_next (t := n) hx
    · exact h
    · have htaken : ShadowsFollowWrites (taken s) := h.after_onBlock rfl rfl
      exact htaken.after_onBlock rfl rfl
  | reset =>
    cases hx
    exact resetStep_shadows s
  | irq => exact (execIrq_interrupts hx).shadows h
  | bh => exact (execBh_next hx).shadows h
  | cancelFinish =>
    obtain ⟨-, rfl⟩ := execCancelFinish_next hx
    exact h.after_cancelCleanup

theorem step_shadows (h : ShadowsFollowWrites s) (hx : step s = .next u) : ShadowsFollowWrites u := by
  obtain rfl | ⟨rest, hx⟩ := step_next hx
  · exact h
  · have hport : ShadowsFollowWrites { s with port := rest } := h
    obtain (rfl | hd) | ⟨i, -, hx⟩ := hx
    · exact hport
    · exact hd.shadows hport
    · exact exec_shadows hport hx

end Sys2Proof.Machine
end

section
/-! PROOFS. Tag WRITE and the read fields (10_state.md R24): each operation an IRQ step of a write runs commutes with replacing the read
cursor, total and count. -/

namespace Sys2Proof.Machine

/-- The state with the read cursor, the read total and the read count replaced. -/
def withRead (cur : Cursor) (tot dn : Nat) (s : State) : State :=
  onBlock (fun b => { b with rd := cur, rdTotal := tot, rdDone := dn }) s

variable {cur : Cursor} {tot dn : Nat} {s t u : State}

/-! ### The ports -/

@[simp] theorem regValue_withRead (r : CoreReg) : regValue r (withRead cur tot dn s) = regValue r s := rfl

@[simp] theorem regRead_withRead (r : CoreReg) (s : State) :
    regRead r (withRead cur tot dn s) = withRead cur tot dn (regRead r s) := by
  obtain ⟨p, b, m, core, n, port, trace⟩ := s
  cases core <;> rfl

theorem memReads_withRead : ∀ (as : List Nat) (s : State), memReads as (withRead cur tot dn s) = withRead cur tot dn (memReads as s)
  | [], _ => rfl
  | a :: as, s => memReads_withRead as (emit (.memRead a (Memory.read s.mem a)) s)

theorem codecWriteGroups_withRead {pm : PMode} : ∀ {ks : List Nat} {c : Cursor} {s : State} {r : Cursor × State},
    codecWriteGroups pm ks c s = .next r →
    codecWriteGroups pm ks c (withRead cur tot dn s) = .next (r.1, withRead cur tot dn r.2)
  | [], c, s, r, h => by
    cases h
    rfl
  | k :: ks, c, s, r, h => by
    obtain ⟨q, hq, h⟩ := andThen_eq_next.mp h
    obtain ⟨w, hw, rfl⟩ := copyOut_eq_next.mp hq
    refine andThen_eq_next.mpr ⟨_, copyOut_eq_next.mpr ⟨w, hw, rfl⟩, ?_⟩
    rw [memReads_withRead]
    exact codecWriteGroups_withRead h

/-! ### The steps of a write -/

theorem pumpWrite_withRead (h : pumpWrite s = .next t) :
    pumpWrite (withRead cur tot dn s) = .next (withRead cur tot dn t) := by
  obtain ⟨r, hr, ht⟩ := andThen_eq_next.mp h
  cases ht
  exact andThen_eq_next.mpr ⟨_, codecWriteGroups_withRead hr, rfl⟩

theorem done_withRead (s : State) : done (withRead cur tot dn s) = withRead cur tot dn (done s) := by
  unfold done
  by_cases hl : s.block.locked = true
  · rw [if_pos (show (ien (ieOff s.params) s).block.locked = true from hl)]
    exact congrArg queueBh (if_pos hl)
  · rw [if_neg (show ¬(ien (ieOff s.params) s).block.locked = true from hl)]
    exact congrArg queueBh (if_neg hl)

theorem takeWord_of_not_readPhase {k : Nat} {w : Word} (hph : readPhase s.block.xstate = false) : takeWord k w s = .next s := by
  simp [takeWord, hph]

/-- A drain outside the read phases never looks at the read fields: it drops every word it pops (43_transfer_state_machine.md R233). -/
theorem drainLoop_withRead : ∀ {ks : List Nat} {s : State} {r : DrainResult × State}, readPhase s.block.xstate = false →
    drainLoop ks s = .next r → drainLoop ks (withRead cur tot dn s) = .next (r.1, withRead cur tot dn r.2)
  | [], s, r, _, h => by
    cases h
    rfl
  | k :: ks, s, r, hph, h => by
    unfold drainLoop at h ⊢
    simp only [regValue_withRead, regRead_withRead] at h ⊢
    split at h
    · cases h
      exact if_pos ‹_›
    · refine (if_neg ‹_›).trans ?_
      rw [takeWord_of_not_readPhase (by simpa using hph), andThen_next] at h
      rw [takeWord_of_not_readPhase (by simpa [withRead] using hph), andThen_next]
      exact drainLoop_withRead (by simpa using hph) h

theorem advance_withRead (hx : s.block.xstate = .write) (h : advance s = .next t) :
    advance (withRead cur tot dn s) = .next (withRead cur tot dn t) := by
  have hx' : (withRead cur tot dn s).block.xstate = .write := hx
  unfold advance at h ⊢
  rw [hx] at h
  rw [hx']
  dsimp only at h ⊢
  split at h
  · exact (if_pos ‹_›).trans (pumpWrite_withRead h)
  · cases h
    exact (if_neg ‹_›).trans (congrArg _ (done_withRead s))

theorem irqAside_withRead (s : State) : irqAside (withRead cur tot dn s) = withRead cur tot dn (irqAside s) := by
  unfold irqAside
  rw [regRead_withRead]
  by_cases hm : irqMine s = true
  · rw [if_pos hm]
    exact if_pos hm
  · rw [if_neg hm]
    exact if_neg hm

theorem irqAdvance_withRead (hx : s.block.xstate = .write) (h : irqAdvance s = .next t) :
    irqAdvance (withRead cur tot dn s) = .next (withRead cur tot dn t) := by
  obtain ⟨⟨res, v⟩, hd, h⟩ := andThen_eq_next.mp h
  have hd' : drain (withRead cur tot dn s) = .next (res, withRead cur tot dn v) := drainLoop_withRead (by simp [hx, readPhase]) hd
  refine andThen_eq_next.mpr ⟨_, hd', ?_⟩
  cases res with
  | part =>
    cases h
    rfl
  | full =>
    have hv : v.block.xstate = .write := by
      obtain ⟨-, -, -, _, _, _, _, -, -, -, hb, -⟩ := drainLoop_spec hd rfl
      rw [hb]
      exact hx
    obtain ⟨w, hw, ht⟩ := andThen_eq_next.mp h
    cases ht
    exact andThen_eq_next.mpr ⟨_, advance_withRead hv hw, rfl⟩

theorem execIrq_withRead (hx : s.block.xstate = .write) (h : execIrq s = .next t) :
    execIrq (withRead cur tot dn s) = .next (withRead cur tot dn t) := by
  have hf : s.block.fault = none := by
    unfold execIrq unlessStuck at h
    split at h
    · cases h
    · assumption
  have h := unlessStuck_next h
  unfold execIrq
  rw [unlessStuck_pass (show (withRead cur tot dn s).block.fault = none from hf)]
  split at h
  · cases h
    exact (if_pos ‹_›).trans (congrArg _ (irqAside_withRead s))
  · refine (if_neg ‹_›).trans ?_
    rw [regRead_withRead]
    split at h
    · exact (if_pos ‹_›).trans (irqAdvance_withRead (by simpa using hx) h)
    · cases h
      exact if_neg ‹_›

end Sys2Proof.Machine
end

section
/-! PROOFS. RESET and the stuck block (10_state.md R38, R43; 60_exceptions.md R305, R306; 70_reset_and_hazards.md R340). -/

namespace Sys2Proof.Machine

variable {s : State}

/-- The transfer-shape word of RESET has the bit of CLEAR_FIFO and no other. -/
theorem getLsbD_resetShape {l : RegLayout} {j : Nat} (hj : j < 32) :
    (resetShape l).getLsbD j = decide (j = l.clearFifo) := by
  have hword : resetShape l = fieldMask l.clearFifo 1 := by simp [resetShape, pack0, flag, fieldMask]
  rw [hword, getLsbD_fieldMask_one]
  simp [hj, eq_comm]

theorem unlessStuck_stuck {f : FaultReason} (hf : s.block.fault = some f) (body : State → Res State) :
    unlessStuck s body = .fault (.stuck f) := by
  simp [unlessStuck, hf]

/-- Every instruction but RESET asks first whether the block is stuck: the commands through their issue gate, the rest themselves. -/
theorem exec_stuck {f : FaultReason} (hf : s.block.fault = some f) {i : Instr} (hi : i ≠ .reset) :
    exec i s = .fault (.stuck f) := by
  cases i with
  | reset => exact absurd rfl hi
  | connect | write | read | sequence | fullDuplex | lock | unlock =>
    simp only [exec, execConnect, execWrite, execRead, execSequence, execFullDuplex, execLock, execUnlock, issueGate,
      unlessStuck_stuck hf]
  | cancel | irq | bh | cancelFinish =>
    simp only [exec, execCancel, execIrq, execBh, execCancelFinish, unlessStuck_stuck hf]

/-- A block with a fault enables no input but RESET (10_state.md R38). -/
theorem inputEnabled_stuck {p : Params} {b : Block} {f : FaultReason} (hf : b.fault = some f) {x : Input}
    (hx : decodeInput x ≠ some .reset) : inputEnabled p x b = false := by
  cases x with
  | command cmd o => simp [inputEnabled, hf]
  | event code =>
    cases hd : decodeEvent code with
    | none => simp [inputEnabled, hd]
    | some i =>
      have hi : i ≠ .reset := fun h => hx (by simp [decodeInput, hd, h])
      simp [inputEnabled, hd, hi, hf]

end Sys2Proof.Machine
end

section
/-! PROOFS. The statements of the family 10_state.md. -/

namespace Sys2Proof.Machine

/-- Settles O48: each operation of a step keeps the block in a phase the invariant allows (`step_inv`). -/
theorem stepKeepsInvariant : Obligations.StepKeepsInvariant := fun _ _ => step_inv

/-- Settles O51: no operation but Shape and IEn writes a control word, and those two record what they write (`step_shadows`). -/
theorem stepKeepsShadows : Obligations.StepKeepsShadows := fun _ _ => step_shadows

/-- Settles O9: a stuck block enables RESET alone, so the port passes everything else over. -/
theorem faultedBlockIsStuck : Obligations.FaultedBlockIsStuck := by
  intro s f hf
  refine ⟨fun i => exec_stuck hf, fun hport => ?_, fun before after hport hbefore => ?_⟩
  · have hpick : pick s.params s.block s.port = none := pick_none fun x hx => inputEnabled_stuck hf (hport x hx)
    simp [step, stepPort, hpick, idle, unlessStuck_stuck hf]
  · have hpick := pick_first (p := s.params) (after := after) (x := .event 0xF0)
      (fun x hx => inputEnabled_stuck hf (hbefore x hx)) (by simp [inputEnabled, decodeEvent])
    refine ⟨resetStep { s with port := before ++ after }, ?_, rfl, rfl⟩
    unfold step stepPort
    rw [hport, hpick]
    rfl

/-- Settles O10: RESET writes the table, and its shape word has the bit of CLEAR_FIFO alone. -/
theorem resetEstablishesTable : Obligations.ResetEstablishesTable := fun s _ =>
  ⟨resetStep s, rfl, rfl, rfl, rfl, rfl, rfl, rfl, rfl, rfl, rfl, rfl, rfl, rfl, rfl, rfl, rfl,
    fun _ hj => getLsbD_resetShape hj, rfl, rfl, rfl, rfl, rfl⟩

/-- Settles O40: every operation of an IRQ step of a write commutes with replacing the read fields (`execIrq_withRead`). -/
theorem writeIgnoresReadFields : Obligations.WriteIgnoresReadFields := fun _ _ _ _ _ hx h => execIrq_withRead hx h

/-- Settles O52: RESET's two writes carry the shadows it sets. -/
theorem resetWritesShadows : Obligations.ResetWritesShadows := fun s =>
  ⟨resetStep s, rfl, by simp [resetStep, Block.reset], resetStep_shadows s, rfl, rfl, rfl⟩

/-- Settles O49: the table of RESET at the parameters RI is an idle block of the invariant (`reset_blockInv`). -/
theorem resetMeetsInvariant : Obligations.ResetMeetsInvariant :=
  ⟨by decide, rfl, rfl, reset_blockInv (p := Params.ri) (by decide)⟩

end Sys2Proof.Machine
end

section
/-! PROOFS. Buffer memory as data, and the order a cursor visits its chain in (20_memory.md R60 to R64; 10_state.md R26). -/

namespace Sys2Proof.Machine

namespace Memory

theorem risingFrom_cons {lo : Nat} {c : Host.Cell} {cs : Memory} :
    risingFrom lo (c :: cs) = true ↔ lo ≤ c.1 ∧ risingFrom (c.1 + 1) cs = true := by
  simp [risingFrom]

theorem read_cons (c : Host.Cell) (cs : Memory) (a : Nat) : read (c :: cs) a = if c.1 = a then c.2 else read cs a := rfl

@[simp] theorem read_cons_self (c : Host.Cell) (cs : Memory) : read (c :: cs) c.1 = c.2 := if_pos rfl

/-- A memory that gives an entry's byte at its address has no first entry above it. -/
theorem head_le_of_read_eq {c d : Host.Cell} {ds : Memory} (hc : c.2 ≠ unlistedByte) (hds : risingFrom (d.1 + 1) ds = true)
    (h : read (d :: ds) c.1 = c.2) : d.1 ≤ c.1 := by
  by_contra hlt
  have hunlisted := read_of_lt (risingFrom_cons.mpr ⟨le_rfl, hds⟩) (Nat.lt_of_not_le hlt)
  exact hc (h.symm.trans hunlisted)

/-- The lowest entry of a canonical memory is the lowest address that does not read as an unlisted one, so two memories that read
alike begin with the same entry. -/
theorem eq_of_read_eq : ∀ {m m' : Memory} {lo lo' : Nat}, risingFrom lo m = true → risingFrom lo' m' = true →
    (∀ c ∈ m, c.2 ≠ unlistedByte) → (∀ c ∈ m', c.2 ≠ unlistedByte) → (∀ a, read m a = read m' a) → m = m'
  | [], [], _, _, _, _, _, _, _ => rfl
  | [], d :: ds, _, _, _, _, _, hne', h => by
    have hd : unlistedByte = d.2 := by simpa [read] using h d.1
    exact absurd hd.symm (hne' d List.mem_cons_self)
  | c :: cs, [], _, _, _, _, hne, _, h => by
    have hc : c.2 = unlistedByte := by simpa [read] using h c.1
    exact absurd hc (hne c List.mem_cons_self)
  | c :: cs, d :: ds, _, _, hm, hm', hne, hne', h => by
    obtain ⟨-, hcs⟩ := risingFrom_cons.mp hm
    obtain ⟨-, hds⟩ := risingFrom_cons.mp hm'
    have haddr : c.1 = d.1 := Nat.le_antisymm
      (head_le_of_read_eq (hne' d List.mem_cons_self) hcs (by rw [h, read_cons_self]))
      (head_le_of_read_eq (hne c List.mem_cons_self) hds (by rw [← h, read_cons_self]))
    have hbyte : c.2 = d.2 := by
      have := h c.1
      rwa [read_cons_self, haddr, read_cons_self] at this
    have htail : ∀ a, read cs a = read ds a := fun a => by
      by_cases ha : c.1 = a
      · rw [read_of_lt hcs (by omega), read_of_lt hds (by omega)]
      · simpa [read_cons, ha, haddr ▸ ha] using h a
    rw [Prod.ext haddr hbyte, eq_of_read_eq hcs hds (fun e he => hne e (List.mem_cons_of_mem _ he))
      (fun e he => hne' e (List.mem_cons_of_mem _ he)) htail]

theorem wf_iff {m : Memory} : wf m = true ↔ risingFrom 0 m = true ∧ ∀ c ∈ m, c.2 ≠ unlistedByte := by simp [wf]

end Memory

/-! ### The walk of a cursor -/

@[simp] theorem chainAddrs_nil : chainAddrs [] = [] := rfl

@[simp] theorem chainAddrs_cons (l : Link) (c : Chain) :
    chainAddrs (l :: c) = (List.range l.len.toNat).map (l.addr + ·) ++ chainAddrs c := rfl

/-- The addresses a cursor has still to visit: those of its chain from its link on, less the offset within that link. -/
def Cursor.ahead (cur : Cursor) : List Nat := (chainAddrs (cur.chain.drop cur.link)).drop cur.off

theorem ahead_fresh (c : Chain) : (Cursor.fresh c).ahead = chainAddrs c := by simp [Cursor.ahead, Cursor.fresh]

/-- The cursor lies within its link, or at its end (20_memory.md R64). -/
abbrev Cursor.InLink (cur : Cursor) : Prop := cur.off ≤ ((cur.chain.drop cur.link).head?.map fun l => l.len.toNat).getD 0

/-- The links that seeking skips hold no byte ahead of the cursor. -/
theorem seekFrom_ahead : ∀ {ls : List Link} {cur cur' : Cursor} {l : Link}, ls = cur.chain.drop cur.link →
    seekFrom ls cur = some (l, cur') → cur.ahead = cur'.ahead
  | [], _, _, _, _, h => by cases h
  | l₀ :: ls, cur, cur', l, hd, h => by
    unfold seekFrom at h
    split at h
    · rename_i hend
      have hd' : ls = cur.chain.drop (cur.link + 1) := by rw [← List.drop_drop, ← hd, List.drop_one, List.tail_cons]
      have hskip : cur.ahead = { cur with link := cur.link + 1, off := 0 : Cursor }.ahead := by
        simp [Cursor.ahead, ← hd, ← hd', hend]
      exact hskip.trans (seekFrom_ahead (cur := { cur with link := cur.link + 1, off := 0 }) hd' h)
    · cases h
      rfl

/-- The byte a cursor seeks is the first one ahead of it; past it the cursor still lies within its link. -/
theorem seek_ahead {cur cur' : Cursor} {l : Link} (ho : cur.InLink) (h : cur.seek = some (l, cur')) :
    cur.ahead = (l.addr + cur'.off) :: { cur' with off := cur'.off + 1 : Cursor }.ahead ∧
      { cur' with off := cur'.off + 1 : Cursor }.InLink := by
  obtain ⟨hc, ls', hd, -, hin⟩ := seekFrom_spec rfl h
  obtain ⟨hlt, -⟩ := hin ho
  have hlen : cur'.off < (chainAddrs (l :: ls')).length := by
    simp
    omega
  rw [seekFrom_ahead rfl h]
  simp only [Cursor.ahead, Cursor.InLink, hc, hd]
  refine ⟨?_, by simpa using hlt⟩
  rw [List.drop_eq_getElem_cons hlen]
  simp [hlt]

/-- A walk of n bytes visits the first n addresses ahead of its cursor and leaves the rest ahead. -/
theorem walk_ahead {sp : Nat} : ∀ {n : Nat} {cur : Cursor} {r : List Nat × Cursor}, cur.InLink →
    Cursor.walk sp n cur = .next r → r.1 = cur.ahead.take n ∧ r.2.ahead = cur.ahead.drop n ∧ r.2.InLink
  | 0, cur, r, ho, h => by
    cases h
    exact ⟨rfl, rfl, ho⟩
  | n + 1, cur, r, ho, h => by
    obtain ⟨l, cur', q, hs, -, hq, rfl⟩ := walk_succ_eq_next.mp h
    obtain ⟨hfirst, ho'⟩ := seek_ahead ho hs
    obtain ⟨htake, hdrop, hend⟩ := walk_ahead ho' hq
    exact ⟨by simp [hfirst, htake], by simp [hfirst, hdrop], hend⟩

end Sys2Proof.Machine
end

section
/-! PROOFS. What a step does to buffer memory and to the handle slot: only a drain writes memory, and only an issue, a take and RESET
write the slot (20_memory.md R60, R72; 10_state.md R30). -/

namespace Sys2Proof.Machine

variable {s t u : State}

/-! ### Buffer memory -/

theorem Declined.mem (hd : Declined s u) : u.mem = s.mem := by
  cases hd with
  | raised | completed => rfl
  | unmapped cs => exact (mapChains_spec cs s).2.2.1

theorem transfer_mem {n : Nat} {h : Handle} {x : Transfer} (hx : exec (x.command n h) s = .next u) : u.mem = s.mem := by
  obtain hd | ⟨tc, v, hs, rfl⟩ := transfer_next hx
  · exact hd.mem
  · simp [issueEnd, (firstChunk_spec hs.chunk).2.1, issued_mem]

theorem BottomHalf.mem (h : BottomHalf s u) : u.mem = s.mem := by
  cases h with
  | stale | mismatched => rfl
  | finished => simp [bhFinish, releaseOrRearm_frame]

/-- An instruction that is not IRQ leaves buffer memory alone (60_exceptions.md R320). -/
theorem exec_mem_of_ne_irq {i : Instr} (hi : i ≠ .irq) (h : exec i s = .next u) : u.mem = s.mem := by
  cases i with
  | connect n hc d =>
    obtain hd | ⟨-, rfl⟩ := execConnect_next h
    · exact hd.mem
    · rfl
  | write n hc w => exact transfer_mem (x := .write w) h
  | read n hc r => exact transfer_mem (x := .read r) h
  | sequence n hc ps => exact transfer_mem (x := .sequence ps) h
  | fullDuplex n hc w r => exact transfer_mem (x := .fullDuplex w r) h
  | lock n hc =>
    obtain hd | ⟨tc, -, -, rfl⟩ := execLock_next h
    · exact hd.mem
    · simp [lockTarget]
  | unlock n hc =>
    obtain hd | ⟨-, rfl⟩ := execUnlock_next h
    · exact hd.mem
    · simp [unlockTarget, deassertCs]
  | cancel n hc =>
    obtain rfl | ⟨-, rfl⟩ := execCancel_next (t := n) h <;> rfl
  | reset =>
    cases h
    rfl
  | irq => exact absurd rfl hi
  | bh => exact (execBh_next h).mem
  | cancelFinish =>
    obtain ⟨-, rfl⟩ := execCancelFinish_next h
    simp [cancelCleanup, cancelRelease_frame]

/-- An IRQ step leaves buffer memory as its drain does, if it drains (43_transfer_state_machine.md R231). -/
theorem Interrupts.mem (h : Interrupts s u) :
    u.mem = s.mem ∨ ∃ r, drain (regRead .irqstat s) = .next r ∧ u.mem = r.2.mem := by
  cases h with
  | aside =>
    unfold irqAside
    split <;> simp
  | notMine => simp
  | drainedPart ha hd => exact .inr ⟨_, hd, rfl⟩
  | drainedFull ha hd hw => exact .inr ⟨_, hd, hw.frame.2⟩

/-- Of what a step does, only a drain writes buffer memory. -/
theorem step_mem (h : step s = .next u) : u.mem = s.mem ∨ ∃ v r, v.params = s.params ∧ v.mem = s.mem ∧ drain v = .next r ∧
    u.mem = r.2.mem := by
  obtain rfl | ⟨rest, (rfl | hd) | ⟨i, -, hx⟩⟩ := step_next h
  · exact .inl rfl
  · exact .inl rfl
  · exact .inl hd.mem
  · by_cases hi : i = .irq
    · subst hi
      obtain hm | ⟨r, hd, hm⟩ := (execIrq_interrupts hx).mem
      · exact .inl hm
      · exact .inr ⟨_, r, by simp, by simp, hd, hm⟩
    · exact .inl (exec_mem_of_ne_irq (s := { s with port := rest }) hi hx)

/-! ### The handle slot -/

theorem Declined.slot (hd : Declined s u) : u.block.slot = s.block.slot := by
  cases hd with
  | raised | completed => rfl
  | unmapped cs => exact congrArg Block.slot (mapChains_spec cs s).2.1

/-- A transfer that started records its handle in the slot (43_transfer_state_machine.md R226). -/
theorem Issues.slot {n : Nat} {h : Handle} {x : Transfer} {tc : TargetConfig} {v : State} (hx : Issues n h x tc s v) :
    (issueEnd v).block.slot = h := by
  obtain ⟨-, -, cur, k, ks, hv⟩ := firstChunk_spec hx.chunk
  obtain ⟨v0, v1, hb⟩ := issued_block n h x tc s
  simp [issueEnd, hv, hb, requestRecord]

theorem namesHandle_command (n : Nat) (h : Handle) (x : Transfer) : namesHandle h (x.command n h) = true := by
  cases x <;> exact decide_eq_true rfl

theorem isTransfer_command (n : Nat) (h : Handle) (x : Transfer) : isTransfer (x.command n h) = true := by
  cases x <;> rfl

theorem transfer_slot {n : Nat} {h : Handle} {x : Transfer} (hx : exec (x.command n h) s = .next u)
    (hc : u.block.slot ≠ s.block.slot) : u.block.slot ≠ 0 ∧ namesHandle u.block.slot (x.command n h) = true ∧
      isTransfer (x.command n h) = true := by
  obtain hd | ⟨tc, v, hs, rfl⟩ := transfer_next hx
  · exact absurd hd.slot hc
  · rw [hs.slot]
    exact ⟨hs.handle, namesHandle_command n h x, isTransfer_command n h x⟩

theorem done_slot (s : State) : (done s).block.slot = s.block.slot := by
  rw [done_block]
  split <;> rfl

theorem Advances.slot (h : Advances s t) : t.block.slot = s.block.slot := by
  cases h with
  | idle => rfl
  | pumpedWrite hx hu =>
    obtain ⟨-, -, -, -, cur, -, hb⟩ := pumpWrite_spec hu
    rw [hb]
  | pumpedRead => simp
  | wroteAll | readAll => exact done_slot s
  | turned => simp [readInitFor]

theorem drain_slot {r : DrainResult × State} (h : drain s = .next r) : r.2.block.slot = s.block.slot := by
  obtain ⟨-, -, -, _, _, _, _, -, -, -, hb, -⟩ := drainLoop_spec h rfl
  rw [hb]

theorem Interrupts.slot (h : Interrupts s u) : u.block.slot = s.block.slot := by
  have hdrain : ∀ {r}, drain (regRead .irqstat s) = .next r → r.2.block.slot = s.block.slot := fun hd => by
    simpa using drain_slot hd
  cases h with
  | aside =>
    unfold irqAside
    split <;> simp
  | notMine => simp
  | drainedPart ha hd => exact hdrain hd
  | drainedFull ha hd hw => exact hw.slot.trans (hdrain hd)

/-- A bottom half leaves the slot alone, or its take emptied it (20_memory.md R72). -/
theorem BottomHalf.slot (h : BottomHalf s u) : u.block.slot = s.block.slot ∨
    (s.block.bhFor = s.block.slot ∧ u.block.slot = 0 ∧ u.block.cancelable = false) := by
  cases h with
  | stale => exact .inl rfl
  | mismatched ht => exact .inr ⟨(takes_eq_true.mp ht).2.symm, rfl, rfl⟩
  | finished ht => exact .inr ⟨(takes_eq_true.mp ht).2.symm, by simp [bhFinish, releaseOrRearm_block]⟩

theorem cancelCleanup_slot (s : State) : (cancelCleanup s).block.slot = s.block.slot := by
  obtain ⟨v, hb⟩ := cancelRelease_block (ien (ieOff s.params) s)
  simp [cancelCleanup, hb]

end Sys2Proof.Machine
end

section
/-! PROOFS. The statements of the family 20_memory.md. -/

namespace Sys2Proof.Machine

/-- Settles O29: a walk takes what it visits from the addresses ahead of its cursor (`walk_ahead`), which for a fresh cursor are those
of the chain, and inside the chain it does not stop (`walk_of_at`). -/
theorem walkFollowsChain : Obligations.WalkFollowsChain := by
  intro space c m n hfit hlen
  obtain ⟨as, cur, hw, -, hat⟩ := walk_of_at (n := m) (fresh_at hfit) (by omega)
  obtain ⟨bs, cur', hw', -⟩ := walk_of_at (n := n) hat (by omega)
  obtain ⟨rfl, hahead, ho⟩ := walk_ahead (Nat.zero_le _) hw
  obtain ⟨rfl, -⟩ := walk_ahead ho hw'
  rw [ahead_fresh] at hw hahead
  rw [hahead] at hw'
  exact ⟨cur, cur', hw, hw'⟩

/-- Settles O30: entry by entry from the lowest address (`Memory.eq_of_read_eq`). -/
theorem canonicalMemoriesAreEqual : Obligations.CanonicalMemoriesAreEqual := by
  intro m m' hm hm' h
  obtain ⟨hr, hne⟩ := Memory.wf_iff.mp hm
  obtain ⟨hr', hne'⟩ := Memory.wf_iff.mp hm'
  exact Memory.eq_of_read_eq hr hr' hne hne' h

/-- Settles O50: only a drain writes memory (`step_mem`), and it writes bytes of the walk of its read cursor (`drainLoop_spec`). -/
theorem stepKeepsMemoryCanonical : Obligations.StepKeepsMemoryCanonical := by
  intro s u h
  rw [(step_accounts h).1]
  obtain hm | ⟨v, r, hp, hv, hd, hm⟩ := step_mem h
  · rw [hm]
    exact ⟨id, id⟩
  · obtain ⟨-, -, -, _, _, _, _, -, -, -, -, hwf, hin, -⟩ := drainLoop_spec hd rfl
    rw [hv] at hwf hin
    rw [hp] at hin
    rw [hm]
    exact ⟨fun h => (hwf h).1, hin⟩

/-- Settles O58: of the operations of a step, only the issue of a transfer, a take that succeeds and RESET write the slot. -/
theorem slotChangesOnlyByTakeOrIssue : Obligations.SlotChangesOnlyByTakeOrIssue := by
  intro i s u h hc
  cases i with
  | connect n h' d =>
    obtain hd | ⟨-, rfl⟩ := execConnect_next h
    · exact absurd hd.slot hc
    · exact absurd rfl hc
  | write n h' w => exact .inl (transfer_slot (x := .write w) h hc)
  | read n h' r => exact .inl (transfer_slot (x := .read r) h hc)
  | sequence n h' ps => exact .inl (transfer_slot (x := .sequence ps) h hc)
  | fullDuplex n h' w r => exact .inl (transfer_slot (x := .fullDuplex w r) h hc)
  | lock n h' =>
    obtain hd | ⟨tc, -, -, rfl⟩ := execLock_next h
    · exact absurd hd.slot hc
    · exact absurd (by simp [lockTarget]) hc
  | unlock n h' =>
    obtain hd | ⟨-, rfl⟩ := execUnlock_next h
    · exact absurd hd.slot hc
    · exact absurd (by simp [unlockTarget, deassertCs]) hc
  | cancel n h' =>
    obtain rfl | ⟨ht, rfl⟩ := execCancel_next (t := n) h
    · exact absurd rfl hc
    · obtain ⟨-, rfl⟩ := takes_eq_true.mp ht
      exact .inr ⟨rfl, rfl, .inr (.inr ⟨n, rfl⟩)⟩
  | reset =>
    cases h
    exact .inr ⟨rfl, rfl, .inl rfl⟩
  | irq => exact absurd (execIrq_interrupts h).slot hc
  | bh =>
    obtain hs | ⟨hbh, hslot, hcancelable⟩ := (execBh_next h).slot
    · exact absurd hs hc
    · exact .inr ⟨hslot, hcancelable, .inr (.inl ⟨rfl, hbh⟩)⟩
  | cancelFinish =>
    obtain ⟨-, rfl⟩ := execCancelFinish_next h
    exact absurd (cancelCleanup_slot s) hc

end Sys2Proof.Machine
end

section
/-! PROOFS. The decoder and the encoder, said once: a laid-out word decodes by its operation code, and what decodes is the word laid out
(30_encoding.md R91 to R97). -/

namespace Sys2Proof

variable {cmd : Word} {o : Operands} {i : Instr} {op t : Nat}

/-- The word of an operation code and a target decodes by the table of operation codes. -/
theorem decodeCommand_commandWord (hop : op < 16) (ht : t < 16) (o : Operands) :
    decodeCommand (commandWord op t) o = decodeOp op t o := by
  simp [decodeCommand, hop, ht]

theorem decodeCommand_eq_ok : decodeCommand cmd o = .ok i ↔ rsvField cmd = 0 ∧ decodeOp (opField cmd) (tgtField cmd) o = .ok i := by
  unfold decodeCommand
  split <;> simp_all

theorem decodeInput_of_ok (h : decodeCommand cmd o = .ok i) : decodeInput (.command cmd o) = some i := by
  simp [decodeInput, h]

/-- The operation codes with an instruction are those of the table of 30_encoding.md R92. -/
theorem decodeOp_isOk : (∃ i, decodeOp op t o = .ok i) ↔ 1 ≤ op ∧ op ≤ 8 := by
  constructor
  · rintro ⟨i, h⟩
    unfold decodeOp at h
    split at h <;> cases h <;> decide
  · rintro ⟨hlow, hhigh⟩
    interval_cases op <;> exact ⟨_, rfl⟩

/-- An instruction of an operation code carries the target and the handle it was decoded with, and is laid out under that code. -/
theorem decodeOp_spec (h : decodeOp op t o = .ok i) :
    i.target = t ∧ ∃ o', encode i = .command (commandWord op t) o' ∧ o'.h = o.h := by
  unfold decodeOp at h
  split at h <;> cases h <;> exact ⟨rfl, _, rfl, rfl⟩

theorem tgtField_lt (cmd : Word) : tgtField cmd < 16 := (cmd.extractLsb' 4 4).isLt

/-- An event code with a meaning is the code of that event. -/
theorem encode_of_decodeEvent {code : BitVec 8} (h : decodeEvent code = some i) : encode i = .event code := by
  unfold decodeEvent at h
  split at h <;> cases h <;> exact congrArg Input.event (BitVec.eq_of_toNat_eq (Eq.symm ‹_›))

end Sys2Proof
end

section
/-! PROOFS. The port of a block without a fault: the words of CANCEL, and the commands a stale bottom half holds (30_encoding.md R94 to
R96; 44_completion_cancel.md R270, R280). -/

namespace Sys2Proof.Machine

variable {cmd : Word} {o : Operands} {s : State}

/-- A command is enabled in a block without a fault when it has the widths of the port and is not held. -/
theorem inputEnabled_command {p : Params} {b : Block} (hf : b.fault = none) :
    inputEnabled p (.command cmd o) b = (deliverable p cmd o && !commandHeld cmd o b) := by
  simp [inputEnabled, hf]

/-! ### CANCEL -/

/-- A CANCEL word whose reserved bits are 0 decodes to CANCEL of its handle; any other has no instruction. -/
theorem decodeCommand_of_opCancel (hop : opField cmd = opCancel) :
    decodeCommand cmd o =
      if rsvField cmd = 0 then .ok (.cancel (tgtField cmd) o.h) else .error (.reservedBits (rsvField cmd)) := by
  simp [decodeCommand, hop, opCancel, decodeOp]

/-- The effect of CANCEL in a block without a fault: the take, if it succeeds (44_completion_cancel.md R280). -/
theorem exec_cancel (hf : s.block.fault = none) (t : Nat) (hc : Handle) :
    exec (.cancel t hc) s = .next (if takes hc s then setCancelFor hc (taken s) else s) := by
  simp only [exec, execCancel, unlessStuck_pass hf]
  split <;> rfl

/-- A CANCEL word with reserved bits does nothing, any other does what CANCEL does (30_encoding.md R94). -/
theorem runInput_of_opCancel (hf : s.block.fault = none) (hop : opField cmd = opCancel) :
    runInput (.command cmd o) s = .next (if rsvField cmd = 0 ∧ takes o.h s then setCancelFor o.h (taken s) else s) := by
  simp only [runInput, decodeCommand_of_opCancel hop]
  by_cases hr : rsvField cmd = 0
  · simpa [hr] using exec_cancel hf (tgtField cmd) o.h
  · simp [hr, rejectCommand, hop, unlessStuck_pass hf]

/-- A CANCEL word is enabled in every block without a fault, if its handle has the width of the port. -/
theorem inputEnabled_of_opCancel (hf : s.block.fault = none) (hop : opField cmd = opCancel) :
    inputEnabled s.params (.command cmd o) s.block = handleFits s.params o.h := by
  have hdeliver : deliverable s.params cmd o = handleFits s.params o.h := by
    rw [deliverable, decodeCommand_of_opCancel hop]
    by_cases hr : rsvField cmd = 0 <;> simp [hr, operandsFit]
  have hheld : commandHeld cmd o s.block = false := by simp [commandHeld, hop, opCancel, opNeedsIdle]
  simp [inputEnabled_command hf, hdeliver, hheld]

/-! ### Held commands -/

/-- No stale bottom half holds the command: one that needs the idle block finds none pending (30_encoding.md R96). -/
abbrev Unheld (needsIdle : Bool) (h : Handle) (b : Block) : Prop :=
  needsIdle = true → h ≠ 0 → b.xstate = .invalid → b.bhFor = 0

theorem commandHeld_eq_false {b : Block} : commandHeld cmd o b = false ↔ Unheld (opNeedsIdle (opField cmd)) o.h b := by
  simp [commandHeld, Unheld]

/-- A block without a fault and with no enabled input waits. -/
theorem step_waits (hf : s.block.fault = none) (h : ∀ x ∈ s.port, inputEnabled s.params x s.block = false) : step s = .next s := by
  rw [step, stepPort, pick_none h]
  exact unlessStuck_pass hf _

/-- A bottom half whose handle is not in the slot is dropped (44_completion_cancel.md R270). -/
theorem execBh_of_stale (hf : s.block.fault = none) (hbh : s.block.bhFor ≠ 0) (hs : s.block.slot ≠ s.block.bhFor) :
    execBh s = .next (clearBh s) := by
  have ht : takes s.block.bhFor (clearBh s) = false := by simp [takes, hs]
  simp [execBh, unlessStuck_pass hf, hbh, bhFor, ht]

end Sys2Proof.Machine
end

section
/-! PROOFS. An enabled input has a next state: a gate completes when what it guards does, and under the invariant the cursors of the
block never leave their chains, a live request has a connected target, and a request that is done has counts (30_encoding.md R94 to
R97; 60_exceptions.md R305; logs 8 and 9). -/

namespace Sys2Proof.Machine

variable {s : State} {h : Handle}

/-- A part of a step that answers a next state. -/
abbrev Completes (x : Res State) : Prop := ∃ u, x = .next u

/-! ### The tests before a command's own effect -/

theorem issueGate_completes {n : Bool} {cmd : Word} {body : State → Res State} (hf : s.block.fault = none)
    (hheld : Unheld n h s.block) (hb : Completes (body s)) : Completes (issueGate n cmd h s body) := by
  unfold issueGate
  rw [unlessStuck_pass hf]
  split
  · exact ⟨_, rfl⟩
  · split
    · exact ⟨_, rfl⟩
    · rw [if_neg (by simp_all)]
      exact hb

theorem targetGate_completes {t : Nat} {body : State → Res State} (hb : Completes (body s)) : Completes (targetGate t h s body) := by
  unfold targetGate
  split
  · exact ⟨_, rfl⟩
  · exact hb

theorem checkIssue_completes {t : Nat} {x : Transfer} {go : TargetConfig → State → Res State}
    (hgo : ∀ tc, (∀ c ∈ issueChecks t x s.block, c.1 = false) → (mapChains x.chains s).1 = true →
      Completes (go tc (mapChains x.chains s).2)) : Completes (checkIssue t h x s go) := by
  unfold checkIssue
  split
  · exact ⟨_, rfl⟩
  · split
    · exact ⟨_, rfl⟩
    · split
      · exact hgo _ (firstFailing_none.mp ‹_›) ‹_›
      · exact ⟨_, rfl⟩

/-! ### The commands -/

theorem execConnect_completes (hf : s.block.fault = none) (t : Nat) (d : Descriptor) : Completes (execConnect t h d s) := by
  refine issueGate_completes hf nofun (targetGate_completes ?_)
  split
  · exact ⟨_, rfl⟩
  · split <;> exact ⟨_, rfl⟩

theorem execLock_completes (hf : s.block.fault = none) (hheld : Unheld true h s.block) (t : Nat) : Completes (execLock t h s) := by
  refine issueGate_completes hf hheld (targetGate_completes ?_)
  split
  · exact ⟨_, rfl⟩
  · split <;> exact ⟨_, rfl⟩

theorem execUnlock_completes (hf : s.block.fault = none) (hheld : Unheld true h s.block) (t : Nat) :
    Completes (execUnlock t h s) := by
  refine issueGate_completes hf hheld (targetGate_completes ?_)
  split
  · exact ⟨_, rfl⟩
  · split <;> exact ⟨_, rfl⟩

/-- An issued transfer has its write cursor at the start of a mapped chain. -/
theorem issued_wrAt {t : Nat} {x : Transfer} {tc : TargetConfig} (hform : x.malformed = false) (hm : (mapChains x.chains s).1 = true) :
    (issued t h x tc s).block.wr.At s.params.addrSpace (issued t h x tc s).block.wrDone (issued t h x tc s).block.wrTotal := by
  have hfits : chainFits s.params.addrSpace x.wchain = true := by
    obtain hc | hc := wchain_mem hform
    · exact (mapChains_spec x.chains s).2.2.2.2.1 hm _ hc
    · rw [hc]
      rfl
  obtain ⟨v0, v1, hb⟩ := issued_block t h x tc s
  rw [hb]
  exact fresh_at hfits

theorem firstChunk_completes {x : Transfer} (hat : s.block.wr.At s.params.addrSpace s.block.wrDone s.block.wrTotal) :
    Completes (firstChunk x s) := by
  cases x with
  | read r => exact ⟨_, rfl⟩
  | write | sequence | fullDuplex =>
    obtain ⟨u, hu, -⟩ := pumpWrite_of_at hat
    exact ⟨u, hu⟩

theorem transfer_completes (hf : s.block.fault = none) (hheld : Unheld true h s.block) (t : Nat) (x : Transfer) :
    Completes (exec (x.command t h) s) := by
  obtain ⟨cmd, he⟩ := exec_transfer t h x s
  rw [he]
  refine issueGate_completes hf hheld (targetGate_completes (checkIssue_completes fun tc hc hm => ?_))
  have hat := issued_wrAt (h := h) (t := t) (tc := tc) (issueChecks_pass hc).2.1 hm
  obtain ⟨v, hv⟩ := firstChunk_completes (x := x) (s := issued t h x tc s) (by rwa [issued_params])
  exact ⟨issueEnd v, andThen_eq_next.mpr ⟨v, hv, rfl⟩⟩

/-- A command that no stale bottom half holds has a next state. -/
theorem exec_completes_of_decodeOp {op t : Nat} {o : Operands} {i : Instr} (hf : s.block.fault = none)
    (hheld : Unheld (opNeedsIdle op) o.h s.block) (hd : decodeOp op t o = .ok i) : Completes (exec i s) := by
  unfold decodeOp at hd
  split at hd <;> cases hd
  · exact execConnect_completes hf t o.desc
  · exact transfer_completes hf hheld t (.write o.wchain)
  · exact transfer_completes hf hheld t (.read o.rchain)
  · exact transfer_completes hf hheld t (.sequence o.phases)
  · exact transfer_completes hf hheld t (.fullDuplex o.wchain o.rchain)
  · exact execLock_completes hf hheld t
  · exact execUnlock_completes hf hheld t
  · exact ⟨_, exec_cancel hf t o.h⟩

/-- A command word without an instruction has a next state, unless it is held (30_encoding.md R94, R96). -/
theorem rejectCommand_completes {cmd : Word} (hf : s.block.fault = none) (hheld : Unheld (opNeedsIdle (opField cmd)) h s.block) :
    Completes (rejectCommand cmd h s) := by
  unfold rejectCommand
  split
  · exact ⟨s, unlessStuck_pass hf _⟩
  · exact issueGate_completes hf hheld ⟨_, rfl⟩

/-! ### The events -/

theorem readInit_completes (ht : (targetAt s.block s.block.tgt).isSome = true) : Completes (readInit s) := by
  obtain ⟨tc, htc⟩ := Option.isSome_iff_exists.mp ht
  exact ⟨readInitFor tc s, by rw [readInit, htc]⟩

/-- Advance of a running request: its write cursor has the bytes of the next chunk, and its target is connected. -/
theorem advance_completes (ho : Owned s.params s.block) (hp : Progress s.params s.block) : Completes (advance s) := by
  obtain ⟨v, hv, -⟩ := pumpWrite_of_at hp.wrAt
  unfold advance
  split
  · exact ⟨_, rfl⟩
  · split
    · exact ⟨v, hv⟩
    · exact ⟨_, rfl⟩
  · split <;> exact ⟨_, rfl⟩
  · split
    · exact ⟨v, hv⟩
    · exact readInit_completes (s := setX .sequenceReadInit s) ho.target
  · exact readInit_completes ho.target
  · split <;> exact ⟨_, rfl⟩
  · split
    · exact ⟨v, hv⟩
    · exact ⟨_, rfl⟩

/-- Drain and Advance of a running request: the read cursor has room for the bytes in flight. -/
theorem irqAdvance_completes (ho : Owned s.params s.block) (hp : Progress s.params s.block) : Completes (irqAdvance s) := by
  obtain ⟨⟨res, v⟩, hd, -⟩ := drainLoop_of_at rfl hp.rdAt hp.stored_le
  obtain ⟨hp', -, rest, cur, n, hb⟩ := drain_progress hd hp
  have hpar : v.params = s.params := (drainLoop_spec hd rfl).1
  have hd : drain s = .next (res, v) := hd
  rw [irqAdvance, hd, andThen_next]
  cases res with
  | part => exact ⟨_, rfl⟩
  | full =>
    obtain ⟨w, hw⟩ := advance_completes (s := v) (hpar ▸ hb ▸ { ho with }) (hpar ▸ hp')
    exact ⟨claim true w, andThen_eq_next.mpr ⟨w, hw, rfl⟩⟩

theorem execIrq_completes (hi : BlockInv s.params s.block) (hf : s.block.fault = none) : Completes (execIrq s) := by
  rw [execIrq, unlessStuck_pass hf]
  split
  · exact ⟨_, rfl⟩
  · rename_i ha
    split
    · obtain ⟨ho, hp⟩ := hi.owned (Bool.eq_false_iff.mpr ha)
      exact irqAdvance_completes (by simpa using ho) (by simpa using hp)
    · exact ⟨_, rfl⟩

/-- A bottom half that takes its request finds the counts of a request that is done. -/
theorem execBh_completes (hi : BlockInv s.params s.block) (hf : s.block.fault = none) (hbh : s.block.bhFor ≠ 0) :
    Completes (execBh s) := by
  by_cases hs : s.block.slot = s.block.bhFor
  · have h0 : s.block.slot ≠ 0 := hs ▸ hbh
    obtain ⟨-, hc, -⟩ := hi.doneComplete (hi.live_of_slot h0) h0 hbh
    obtain ⟨c, hc⟩ := Option.isSome_iff_exists.mp hc
    have ht : takes s.block.bhFor (clearBh s) = true := takes_eq_true.mpr ⟨hbh, hs⟩
    have hc : counts (clearBh s).block = some c := hc
    rw [execBh, unlessStuck_pass hf, if_neg hbh, bhFor, if_pos ht, hc]
    dsimp only
    split <;> exact ⟨_, rfl⟩
  · exact ⟨_, execBh_of_stale hf hbh hs⟩

theorem event_completes {i : Instr} (hi : BlockInv s.params s.block) (hf : s.block.fault = none)
    (he : eventEnabled i s.block = true) : Completes (exec i s) := by
  cases i with
  | reset => exact ⟨_, rfl⟩
  | irq => exact execIrq_completes hi hf
  | bh => exact execBh_completes hi hf (of_decide_eq_true he)
  | cancelFinish =>
    have hc : s.block.cancelFor ≠ 0 := of_decide_eq_true he
    exact ⟨cancelCleanup s, by simp only [exec, execCancelFinish, unlessStuck_pass hf, if_neg hc]⟩
  | connect | write | read | sequence | fullDuplex | lock | unlock | cancel => cases he

/-! ### Every enabled input -/

theorem runInput_completes {x : Input} (hi : BlockInv s.params s.block) (hf : s.block.fault = none)
    (hx : inputEnabled s.params x s.block = true) : Completes (runInput x s) := by
  cases x with
  | command cmd o =>
    simp only [inputEnabled_command hf, Bool.and_eq_true, Bool.not_eq_true'] at hx
    have hheld := commandHeld_eq_false.mp hx.2
    unfold runInput
    dsimp only
    split
    · exact exec_completes_of_decodeOp hf hheld (decodeCommand_eq_ok.mp ‹_›).2
    · exact rejectCommand_completes hf hheld
  | event code =>
    cases hd : decodeEvent code with
    | none => simp [inputEnabled, hd] at hx
    | some i =>
      simp only [inputEnabled, hd, hf, Option.isNone_none, Bool.true_and, Bool.or_eq_true, decide_eq_true_eq] at hx
      rw [runInput_of_decode (x := .event code) hd]
      obtain rfl | he := hx
      · exact ⟨_, rfl⟩
      · exact event_completes hi hf he

theorem step_completes (hi : BlockInv s.params s.block) (hf : s.block.fault = none) : Completes (step s) := by
  unfold step stepPort
  split
  · rename_i x rest hp
    exact runInput_completes (s := { s with port := rest }) hi hf (pick_enabled hp)
  · exact ⟨s, unlessStuck_pass hf _⟩

end Sys2Proof.Machine
end

section
/-! PROOFS. The statements of the family 30_encoding.md. -/

namespace Sys2Proof.Machine

/-- Settles O1: the word laid out for a command decodes by its operation code (`decodeCommand_commandWord`), and the record holds the
operands of that code. -/
theorem decodeEncodeRoundTrip : Obligations.DecodeEncodeRoundTrip := by
  intro i hi
  cases i with
  | connect | write | read | sequence | fullDuplex | lock | unlock | cancel =>
    exact decodeInput_of_ok (decodeCommand_commandWord (by decide) hi _)
  | reset | irq | bh | cancelFinish => rfl

/-- Settles O2: a word with an instruction has RSV = 0, so it is the word of its own fields (`commandWord_fields`). -/
theorem encodeDecodeRoundTrip : Obligations.EncodeDecodeRoundTrip := by
  refine ⟨fun cmd o i h => ?_, fun code i => encode_of_decodeEvent⟩
  obtain ⟨hrsv, hop⟩ := decodeCommand_eq_ok.mp h
  obtain ⟨ht, henc⟩ := decodeOp_spec hop
  rw [commandWord_fields hrsv] at henc
  exact ⟨ht.trans_lt (tgtField_lt cmd), henc⟩

/-- Settles O3: the fields as numbers (`fields_toNat`), and the codes of the table (`decodeOp_isOk`). -/
theorem meaningfulCommandWords : Obligations.MeaningfulCommandWords := by
  intro cmd o
  obtain ⟨hop, htgt, hrsv⟩ := fields_toNat cmd
  refine ⟨?_, fun i h => htgt ▸ (decodeOp_spec (decodeCommand_eq_ok.mp h).2).1⟩
  simp only [decodeCommand_eq_ok, exists_and_left, decodeOp_isOk, hop, hrsv]
  omega

/-- Settles O7: a word of CANCEL does nothing, or its take and no more (`runInput_of_opCancel`). -/
theorem cancelWordsNeverFault : Obligations.CancelWordsNeverFault := by
  intro cmd o s hf hop
  refine ⟨fun hh => (inputEnabled_of_opCancel hf hop).trans (decide_eq_true hh), _, runInput_of_opCancel hf hop, ?_⟩
  split
  · rename_i ht
    obtain ⟨h0, -⟩ := takes_eq_true.mp ht.2
    exact ⟨rfl, hf, fun hn => absurd hn (by simp [ht.1, h0])⟩
  · exact ⟨rfl, hf, fun _ => rfl⟩

/-- Settles O8: a held command is not enabled, so the block waits or takes the BH behind it, which drops the stale bottom half. -/
theorem heldCommandWaits : Obligations.HeldCommandWaits := by
  intro cmd o s hf hlow hhigh h0 hx hbh hs
  have hheld : inputEnabled s.params (.command cmd o) s.block = false := by
    simp [inputEnabled_command hf, commandHeld, opNeedsIdle, hlow, hhigh, h0, hx, hbh]
  have hfree : commandHeld cmd o { s.block with bhFor := 0 } = false := commandHeld_eq_false.mpr fun _ _ _ => rfl
  refine ⟨step_waits hf (by simpa using hheld), clearBh { s with port := [.command cmd o] }, ?_, rfl, rfl, rfl, ?_⟩
  · have hstep := stepRunsDecodedInput [.command cmd o] [] (.event 0xF2) .bh { s with port := [.command cmd o, .event 0xF2] } rfl
      (by simpa using hheld) (by simp [inputEnabled, decodeEvent, eventEnabled, hf, hbh]) rfl
    exact hstep.trans (execBh_of_stale (s := { s with port := [.command cmd o] }) hf hbh hs)
  · exact (inputEnabled_command (b := { s.block with bhFor := 0 }) hf).trans (by simp [hfree])

/-- Settles O59: the invariant keeps the model's own stops away from what an enabled input runs (`runInput_completes`). -/
theorem enabledInputsComplete : Obligations.EnabledInputsComplete := fun _ hi hf =>
  ⟨fun _ => runInput_completes hi.block hf, step_completes hi.block hf⟩

/-- Settles O4: each word is that of an operation code and a target, which decodes by the table. -/
theorem sampleWordsDecode : Obligations.SampleWordsDecode :=
  ⟨decodeCommand_commandWord (op := 2) (t := 1) (by decide) (by decide),
    decodeCommand_commandWord (op := 8) (t := 0) (by decide) (by decide),
    decodeCommand_commandWord (op := 1) (t := 3) (by decide) (by decide),
    decodeCommand_commandWord (op := 6) (t := 2) (by decide) (by decide), rfl, rfl, rfl, rfl⟩

end Sys2Proof.Machine
end

section
/-! PROOFS. Packing modes and groups (40_codecs.md R130 to R132): which sizes the groups of a chunk have, how many there are, and that
chunk by chunk they are the groups of the whole. -/

namespace Sys2Proof.Machine

variable {p : Params} {pm : PMode} {mode len m n k : Nat}

/-! ### The mode SelectMode gives -/

theorem selectMode_of_not_shifted (h : mode ∉ p.shiftedModes) :
    selectMode p mode len = if len % 4 = 0 then .fixed4 else .variable3 := if_neg h

theorem selectMode_of_shifted (h : mode ∈ p.shiftedModes) :
    selectMode p mode len = if len % 3 = 0 then .fixed3Shifted else .variable2Shifted := if_pos h

/-- SelectMode gives a fixed mode to whole numbers of its words alone. -/
theorem bpw_dvd_of_isFixed_selectMode (h : isFixed (selectMode p mode len) = true) : bpw (selectMode p mode len) ∣ len := by
  by_cases hm : mode ∈ p.shiftedModes
  · rw [selectMode_of_shifted hm] at h ⊢
    split at h
    · rename_i hlen
      exact if_pos hlen ▸ Nat.dvd_of_mod_eq_zero hlen
    · cases h
  · rw [selectMode_of_not_shifted hm] at h ⊢
    split at h
    · rename_i hlen
      exact if_pos hlen ▸ Nat.dvd_of_mod_eq_zero hlen
    · cases h

/-! ### The groups of a mode -/

/-- A fixed mode has full words alone, a variable one any size up to a full word (40_codecs.md R133). -/
theorem groupAllowed_iff : groupAllowed pm k = true ↔ 1 ≤ k ∧ k ≤ bpw pm ∧ (isFixed pm = true → k = bpw pm) := by
  cases pm with
  | fixed4 | fixed3Shifted =>
    simp only [groupAllowed, bpw, isFixed, beq_iff_eq, true_imp_iff]
    omega
  | variable3 | variable2Shifted => simp [groupAllowed, bpw, isFixed]

/-- The rows of the table of 40_codecs.md R133: the group sizes of each packing mode. -/
inductive GroupRow : PMode → Nat → Prop where
  | fixedFour : GroupRow .fixed4 4
  | variableOne : GroupRow .variable3 1
  | variableTwo : GroupRow .variable3 2
  | variableThree : GroupRow .variable3 3
  | shiftedThree : GroupRow .fixed3Shifted 3
  | shiftedOne : GroupRow .variable2Shifted 1
  | shiftedTwo : GroupRow .variable2Shifted 2

theorem groupRow_of_allowed (h : groupAllowed pm k = true) : GroupRow pm k := by
  obtain ⟨hlow, hhigh, hfix⟩ := groupAllowed_iff.mp h
  cases pm with
  | fixed4 => exact hfix rfl ▸ .fixedFour
  | fixed3Shifted => exact hfix rfl ▸ .shiftedThree
  | variable3 =>
    have hhigh : k ≤ 3 := hhigh
    interval_cases k
    exacts [.variableOne, .variableTwo, .variableThree]
  | variable2Shifted =>
    have hhigh : k ≤ 2 := hhigh
    interval_cases k
    exacts [.shiftedOne, .shiftedTwo]

/-- The groups of a whole number of words. -/
theorem groups_of_dvd (h : bpw pm ∣ n) : groups pm n = List.replicate (n / bpw pm) (bpw pm) := by
  simp [groups, Nat.mod_eq_zero_of_dvd h]

/-- The groups of n bytes are sizes the mode allows, if a fixed mode has a whole number of words. -/
theorem groupAllowed_of_mem_groups (hn : isFixed pm = true → bpw pm ∣ n) (hk : k ∈ groups pm n) : groupAllowed pm k = true := by
  obtain ⟨hlow, hhigh⟩ := groups_mem hk
  refine groupAllowed_iff.mpr ⟨hlow, hhigh, fun hfix => ?_⟩
  rw [groups_of_dvd (hn hfix)] at hk
  exact List.eq_of_mem_replicate hk

theorem length_groups (pm : PMode) (n : Nat) : (groups pm n).length = n / bpw pm + if n % bpw pm = 0 then 0 else 1 := by
  unfold groups
  split <;> simp

/-- A whole number of words first: its groups come before those of the rest. -/
theorem groups_add (h : bpw pm ∣ m) (n : Nat) : groups pm (m + n) = groups pm m ++ groups pm n := by
  obtain ⟨q, rfl⟩ := h
  rw [groups_of_dvd (Nat.dvd_mul_right ..)]
  have hpos := bpw_pos pm
  simp [groups, Nat.mul_add_div hpos, Nat.mul_div_cancel_left q hpos, ← List.append_assoc]

theorem bpw_dvd_cap (pm : PMode) : bpw pm ∣ cap pm := Nat.dvd_mul_right ..

/-- The groups of the next chunk come before those of what remains after it (40_codecs.md R143). -/
theorem groups_eq_chunk_append (pm : PMode) (n : Nat) :
    groups pm n = groups pm (min n (cap pm)) ++ groups pm (n - min n (cap pm)) := by
  obtain hle | hlt := Nat.le_total n (cap pm)
  · simp [Nat.min_eq_left hle, groups]
  · rw [Nat.min_eq_right hlt, ← groups_add (bpw_dvd_cap pm), Nat.add_sub_cancel' hlt]

end Sys2Proof.Machine
end

section
/-! PROOFS. Slots (40_codecs.md R133 to R135): the bytes of a group as one big-endian number, and back. -/

namespace Sys2Proof.Machine

variable {pm : PMode} {j k : Nat} {bs : List Byte}

/-! ### The big-endian number of a group -/

/-- The number of which byte j of k has the weight 256 ^ (k - 1 - j). -/
def weighted (bs : List Byte) : Nat :=
  ((List.range bs.length).map fun j => (bs.getD j 0).toNat * 2 ^ (8 * (bs.length - 1 - j))).sum

theorem weighted_append_singleton (bs : List Byte) (b : Byte) : weighted (bs ++ [b]) = weighted bs * 256 + b.toNat := by
  have hfront : ∀ j ∈ List.range bs.length, ((bs ++ [b]).getD j 0).toNat * 2 ^ (8 * (bs.length + 1 - 1 - j)) =
      (bs.getD j 0).toNat * 2 ^ (8 * (bs.length - 1 - j)) * 256 := fun j hj => by
    have hlt := List.mem_range.mp hj
    have hexp : 8 * (bs.length + 1 - 1 - j) = 8 * (bs.length - 1 - j) + 8 := by omega
    rw [List.getD_append _ _ _ _ hlt, hexp, Nat.pow_add, Nat.mul_assoc]
  unfold weighted
  rw [List.length_append, List.length_singleton, List.range_succ, List.map_append, List.sum_append, List.map_congr_left hfront,
    List.sum_map_mul_right]
  simp

theorem weighted_lt (bs : List Byte) : weighted bs < 2 ^ (8 * bs.length) := by
  induction bs using List.reverseRecOn with
  | nil => decide
  | append_singleton bs b ih =>
    have hb := b.isLt
    rw [weighted_append_singleton, List.length_append, List.length_singleton, Nat.mul_add, Nat.pow_add]
    omega

/-- The digit of base 256 at the place of a byte is that byte. -/
theorem weighted_div_mod : j < bs.length → weighted bs / 2 ^ (8 * (bs.length - 1 - j)) % 256 = (bs.getD j 0).toNat := by
  induction bs using List.reverseRecOn with
  | nil => exact nofun
  | append_singleton bs b ih =>
    intro hj
    have hb := b.isLt
    rw [List.length_append, List.length_singleton] at hj ⊢
    rw [weighted_append_singleton]
    obtain hlt | rfl : j < bs.length ∨ j = bs.length := by omega
    · have hexp : 8 * (bs.length + 1 - 1 - j) = 8 + 8 * (bs.length - 1 - j) := by omega
      have hdigit : (weighted bs * 256 + b.toNat) / 2 ^ 8 = weighted bs := by omega
      rw [hexp, Nat.pow_add, ← Nat.div_div_eq_div_mul, hdigit, ih hlt, List.getD_append _ _ _ _ hlt]
    · simp
      omega

/-- The bytes of one word do not overflow it. -/
theorem toNat_bigEndian : bs.length ≤ 4 → (bigEndian bs).toNat = weighted bs := by
  induction bs using List.reverseRecOn with
  | nil => exact fun _ => rfl
  | append_singleton bs b ih =>
    intro hlen
    rw [List.length_append, List.length_singleton] at hlen
    have hstep : bigEndian (bs ++ [b]) = bigEndian bs <<< 8 ||| b.setWidth 32 := by simp [bigEndian]
    have hlt : weighted bs < 2 ^ 24 := (weighted_lt bs).trans_le (Nat.pow_le_pow_right (by decide) (by omega))
    have hb := b.isLt
    have hshift : (bigEndian bs <<< 8).toNat = weighted bs <<< 8 := by
      rw [BitVec.toNat_shiftLeft, ih (by omega), Nat.shiftLeft_eq, Nat.mod_eq_of_lt (by omega)]
    have hbyte : (b.setWidth 32).toNat = b.toNat := by
      rw [BitVec.toNat_setWidth, Nat.mod_eq_of_lt (by omega)]
    rw [hstep, weighted_append_singleton, BitVec.toNat_or, hshift, hbyte, ← Nat.shiftLeft_add_eq_or_of_lt hb, Nat.shiftLeft_eq]

@[simp] theorem bigEndian_replicate_zero (k : Nat) : bigEndian (List.replicate k 0#8) = 0#32 := by
  induction k with
  | zero => rfl
  | succ k ih => simpa [bigEndian, List.replicate_succ] using ih

/-! ### The slot of a group -/

/-- The zero bit below the bytes of a shifted slot (40_codecs.md R133). -/
def padBits (pm : PMode) : Nat := if isShifted pm then 1 else 0

theorem isShifted_iff : isShifted pm = true ↔ pm = .fixed3Shifted ∨ pm = .variable2Shifted := by cases pm <;> decide

/-- A slot holds the bytes of its group and the pad bit. -/
theorem nbitsOf_eq (h : groupAllowed pm k = true) : nbitsOf pm k = 8 * k + padBits pm := by
  cases groupRow_of_allowed h <;> rfl

theorem padBits_le (pm : PMode) : padBits pm ≤ 1 := by cases pm <;> decide

/-- The bytes of a slot can be counted from its bits. -/
theorem nbitsOf_div (h : groupAllowed pm k = true) : nbitsOf pm k / 8 = k := by
  have := padBits_le pm
  rw [nbitsOf_eq h]
  omega

/-- A slot fits its word. -/
theorem nbitsOf_le (h : groupAllowed pm k = true) : nbitsOf pm k ≤ 32 := by
  cases groupRow_of_allowed h <;> decide

/-- A slot of a variable mode leaves the length field free. -/
theorem nbitsOf_le_of_variable (h : groupAllowed pm k = true) (hv : isFixed pm = false) : nbitsOf pm k ≤ 24 := by
  cases groupRow_of_allowed h with
  | fixedFour | shiftedThree => cases hv
  | variableOne | variableTwo | variableThree | shiftedOne | shiftedTwo => decide

theorem toNat_slotOf_value (h : groupAllowed pm bs.length = true) :
    (slotOf pm bs).value.toNat = 2 ^ padBits pm * weighted bs := by
  have hfit : 8 * bs.length + padBits pm ≤ 32 := nbitsOf_eq h ▸ nbitsOf_le h
  have hbig := toNat_bigEndian (bs := bs) (by omega)
  cases hs : isShifted pm with
  | false => simp [slotOf, padBits, hs, hbig]
  | true =>
    have hpad : padBits pm = 1 := if_pos hs
    have hlt : weighted bs < 2 ^ 31 := (weighted_lt bs).trans_le (Nat.pow_le_pow_right (by decide) (by omega))
    have hval : (slotOf pm bs).value = bigEndian bs <<< 1 := if_pos hs
    rw [hval, hpad, BitVec.toNat_shiftLeft, hbig, Nat.shiftLeft_eq, Nat.mod_eq_of_lt (by omega), Nat.mul_comm]

/-- The value of a slot has no bit above its bit count. -/
theorem slotOf_value_lt (h : groupAllowed pm bs.length = true) : (slotOf pm bs).value.toNat < 2 ^ nbitsOf pm bs.length := by
  rw [toNat_slotOf_value h, nbitsOf_eq h, Nat.add_comm, Nat.pow_add]
  exact Nat.mul_lt_mul_of_pos_left (weighted_lt bs) (Nat.two_pow_pos _)

theorem getLsbD_slotOf_value_of_le (h : groupAllowed pm bs.length = true) (hj : nbitsOf pm bs.length ≤ j) :
    (slotOf pm bs).value.getLsbD j = false :=
  Nat.testBit_lt_two_pow ((slotOf_value_lt h).trans_le (Nat.pow_le_pow_right (by decide) hj))

/-- A placeholder slot has the value 0 (40_codecs.md R134). -/
theorem placeholder_eq (pm : PMode) (k : Nat) : placeholder pm k = { nbits := nbitsOf pm k, value := 0 } := by
  have hzero : Config.placeholderByte = 0 := rfl
  simp [placeholder, slotOf, hzero]

/-! ### The bytes of a slot -/

/-- Byte j of k lies above the pad bit and the bytes after it (40_codecs.md R135). -/
theorem toNat_unslot_getD (v : Word) (hj : j < k) :
    ((unslot pm k v).getD j 0).toNat = v.toNat / 2 ^ (8 * (k - 1 - j) + padBits pm) % 256 := by
  have hbyte : (unslot pm k v).getD j 0 = ((if isShifted pm then v >>> 1 else v) >>> (8 * (k - 1 - j))).setWidth 8 := by
    simp [unslot, hj]
  rw [hbyte, BitVec.toNat_setWidth, BitVec.toNat_ushiftRight, Nat.shiftRight_eq_div_pow, Nat.add_comm, Nat.pow_add,
    ← Nat.div_div_eq_div_mul]
  unfold padBits
  split
  · rw [BitVec.toNat_ushiftRight, Nat.shiftRight_eq_div_pow]
  · simp

/-- Lists of k bytes whose bytes are equal numbers are equal. -/
theorem bytes_eq_of_toNat {bs cs : List Byte} (hlen : bs.length = cs.length)
    (h : ∀ j < bs.length, (bs.getD j 0).toNat = (cs.getD j 0).toNat) : bs = cs := by
  refine List.ext_getElem hlen fun j hj hj' => BitVec.eq_of_toNat_eq ?_
  simpa [hj, hj'] using h j hj

/-- Unslot of Slot gives the bytes back (40_codecs.md R141). -/
theorem unslot_slotOf (h : groupAllowed pm bs.length = true) : unslot pm bs.length (slotOf pm bs).value = bs := by
  refine bytes_eq_of_toNat (unslot_length ..) fun j hj => ?_
  rw [unslot_length] at hj
  rw [toNat_unslot_getD _ hj, toNat_slotOf_value h, Nat.add_comm, Nat.pow_add, Nat.mul_div_mul_left _ _ (Nat.two_pow_pos _),
    weighted_div_mod hj]

end Sys2Proof.Machine
end

section
/-! PROOFS. Words (40_codecs.md R136, R137; 30_encoding.md R104): the bits of a TX word and of a received slot, under WORD_LAYOUT RI and
under a layout given bit by bit. -/

namespace Sys2Proof.Machine

variable {pm : PMode} {i j k : Nat} {bs : List Byte} {v w : Word}

/-! ### Fields and lists of bits -/

theorem testBit_bitsValue : ∀ (bs : List Bool) (j : Nat), (bitsValue bs).testBit j = bs.getD j false
  | [], j => by simp [bitsValue]
  | b :: bs, 0 => by cases b <;> simp [bitsValue]
  | b :: bs, j + 1 => by
    have hhalf : (b.toNat + 2 * bitsValue bs) / 2 = bitsValue bs := by
      have := b.toNat_le
      omega
    rw [bitsValue, Nat.testBit_succ, hhalf, testBit_bitsValue bs j, List.getD_cons_succ]

/-- A bit of a field is that bit of the word, above the field's lowest. -/
theorem testBit_getField (w : Word) (lo width i : Nat) :
    (getField w lo width).testBit i = (decide (i < width) && w.getLsbD (lo + i)) := by
  simp [getField, Nat.testBit_mod_two_pow, Nat.testBit_shiftRight, BitVec.testBit_toNat]

/-- A field is the number of its bits. -/
theorem getField_eq_of_bits {lo width n : Nat} (hn : n < 2 ^ width) (h : ∀ i < width, w.getLsbD (lo + i) = n.testBit i) :
    getField w lo width = n := by
  refine Nat.eq_of_testBit_eq fun i => ?_
  rw [testBit_getField]
  by_cases hi : i < width
  · simp [hi, h i hi]
  · have hhigh : n.testBit i = false := Nat.testBit_lt_two_pow (hn.trans_le (Nat.pow_le_pow_right (by decide) (by omega)))
    simp [hi, hhigh]

/-! ### A layout given bit by bit -/

theorem map_fits {maps : List WordMap} (hv : (WordLayout.placed maps).valid = true) (hi : i < slotLengths.length) :
    (maps.getD i ⟨[], []⟩).fits (slotLengths.getD i 0) = true := by
  simp only [WordLayout.valid, Bool.and_eq_true, decide_eq_true_eq, List.all_eq_true] at hv
  obtain ⟨hlen, hfits⟩ := hv
  have hi' : i < maps.length := hlen ▸ hi
  have hmem : (maps[i], slotLengths[i]) ∈ maps.zip slotLengths := List.mem_iff_getElem.mpr ⟨i, by simp [hi', hi], by simp⟩
  simpa [hi, hi'] using hfits _ hmem

/-- The place of a packing mode and group size holds the length of its slots. -/
theorem slotLengths_wordMapIndex (h : groupAllowed pm k = true) :
    wordMapIndex pm k < slotLengths.length ∧ slotLengths.getD (wordMapIndex pm k) 0 = nbitsOf pm k := by
  cases groupRow_of_allowed h <;> exact ⟨by decide, rfl⟩

/-- A legal layout has a place for each bit of a slot. -/
theorem length_rx_of_valid {maps : List WordMap} (hv : (WordLayout.placed maps).valid = true) (h : groupAllowed pm k = true) :
    (wordMapOf maps pm k).rx.length = nbitsOf pm k := by
  obtain ⟨hi, hn⟩ := slotLengths_wordMapIndex h
  have hfits := map_fits hv hi
  rw [hn] at hfits
  simp only [WordMap.fits, Bool.and_eq_true, decide_eq_true_eq] at hfits
  obtain ⟨⟨⟨-, hrx⟩, -⟩, -⟩ := hfits
  exact hrx

theorem getLsbD_rxSlot_placed (maps : List WordMap) (pm : PMode) (k : Nat) (w : Word) (hj : j < 32) :
    (rxSlot (.placed maps) pm k w).getLsbD j = ((wordMapOf maps pm k).rx.map w.getLsbD).getD j false := by
  simp only [rxSlot, BitVec.getLsbD_ofNat, testBit_bitsValue, hj, decide_true, Bool.true_and]

theorem getLsbD_txWord_placed {maps : List WordMap} (h : groupAllowed pm bs.length = true) (hj : j < 32) :
    (txWord (.placed maps) pm (slotOf pm bs)).getLsbD j =
      sourceBit (slotOf pm bs).value ((wordMapOf maps pm bs.length).tx.getD j .zero) := by
  have hk : (slotOf pm bs).nbits / 8 = bs.length := nbitsOf_div h
  have hzero : sourceBit (slotOf pm bs).value .zero = false := rfl
  simp only [txWord, hk, BitVec.getLsbD_ofNat, hj, decide_true, Bool.true_and, testBit_bitsValue]
  rw [← hzero, List.getD_map]

/-! ### WORD_LAYOUT RI -/

theorem txWord_ri_of_fixed (hf : isFixed pm = true) (s : Slot) : txWord .ri pm s = s.value := if_pos hf

/-- A word of a variable mode: the slot's value left-justified below bit 24, and its length above (40_codecs.md R136). -/
theorem getLsbD_txWord_ri_of_variable (hv : isFixed pm = false) {s : Slot} (hn : s.nbits ≤ 24)
    (hs : s.value.toNat < 2 ^ s.nbits) (hj : j < 32) :
    (txWord .ri pm s).getLsbD j =
      if j < 24 then decide (24 ≤ j + s.nbits) && s.value.getLsbD (j + s.nbits - 24) else s.nbits.testBit (j - 24) := by
  have hword : txWord .ri pm s = (BitVec.ofNat 32 s.nbits <<< 24) ||| (s.value <<< (24 - s.nbits)) := by simp [txWord, hv]
  have hplace : j - (24 - s.nbits) = j + s.nbits - 24 := by omega
  rw [hword, BitVec.getLsbD_or, BitVec.getLsbD_shiftLeft, BitVec.getLsbD_shiftLeft, hplace]
  split
  · have hle : (!decide (j < 24 - s.nbits)) = decide (24 ≤ j + s.nbits) := by
      rw [← decide_not]
      exact decide_eq_decide.mpr (by omega)
    simp [*]
  · have hhigh : s.value.getLsbD (j + s.nbits - 24) = false :=
      Nat.testBit_lt_two_pow (hs.trans_le (Nat.pow_le_pow_right (by decide) (by omega)))
    have hlen : (BitVec.ofNat 32 s.nbits).getLsbD (j - 24) = s.nbits.testBit (j - 24) := by
      rw [BitVec.getLsbD_ofNat, decide_eq_true (by omega), Bool.true_and]
    rw [hhigh, hlen]
    simp [*]

/-- The length field of a word of a variable mode (30_encoding.md R104). -/
theorem getField_txWord_ri_of_variable (hv : isFixed pm = false) {s : Slot} (hn : s.nbits ≤ 24)
    (hs : s.value.toNat < 2 ^ s.nbits) : getField (txWord .ri pm s) 24 5 = s.nbits := by
  refine getField_eq_of_bits (by omega) fun i hi => ?_
  rw [getLsbD_txWord_ri_of_variable hv hn hs (by omega), if_neg (by omega), Nat.add_sub_cancel_left]

/-- The bits above the length field of a word of a variable mode are 0 (30_encoding.md R104). -/
theorem getField_high_txWord_ri_of_variable (hv : isFixed pm = false) {s : Slot} (hn : s.nbits ≤ 24)
    (hs : s.value.toNat < 2 ^ s.nbits) : getField (txWord .ri pm s) 29 3 = 0 := by
  refine getField_eq_of_bits (by decide) fun i hi => ?_
  have hhigh : s.nbits.testBit (29 + i - 24) = false :=
    Nat.testBit_lt_two_pow (lt_of_lt_of_le (by omega : s.nbits < 2 ^ 5) (Nat.pow_le_pow_right (by decide) (by omega)))
  rw [getLsbD_txWord_ri_of_variable hv hn hs (by omega), if_neg (by omega), hhigh, Nat.zero_testBit]

/-- A received slot is the low bits of its word (40_codecs.md R137). -/
theorem getLsbD_rxSlot_ri (pm : PMode) (k : Nat) (w : Word) (j : Nat) :
    (rxSlot .ri pm k w).getLsbD j = (decide (j < nbitsOf pm k) && w.getLsbD j) := by
  rw [rxSlot, BitVec.getLsbD_and, BitVec.getLsbD_ofNat, Nat.testBit_two_pow_sub_one]
  by_cases hj : j < 32
  · simp [hj, Bool.and_comm]
  · simp [hj, BitVec.getLsbD_of_ge w j (by omega)]

/-- A word whose low bits are those of a slot is received as the slot's value. -/
theorem rxSlot_ri_eq_of_bits (h : groupAllowed pm bs.length = true)
    (hw : ∀ j < nbitsOf pm bs.length, w.getLsbD j = (slotOf pm bs).value.getLsbD j) :
    rxSlot .ri pm bs.length w = (slotOf pm bs).value := by
  refine BitVec.eq_of_getLsbD_eq fun j _ => ?_
  rw [getLsbD_rxSlot_ri]
  by_cases hj : j < nbitsOf pm bs.length
  · simp [hj, hw j hj]
  · simp [hj, getLsbD_slotOf_value_of_le h (Nat.le_of_not_lt hj)]

theorem toNat_rxSlot_ri (pm : PMode) (k : Nat) (w : Word) :
    (rxSlot .ri pm k w).toNat = w.toNat % 2 ^ nbitsOf pm k := by
  refine Nat.eq_of_testBit_eq fun j => ?_
  rw [BitVec.testBit_toNat, getLsbD_rxSlot_ri, Nat.testBit_mod_two_pow, BitVec.testBit_toNat]

/-! ### WORD_LAYOUT RI bit by bit -/

/-- The bit map of RI is the map of each packing mode and group size. -/
theorem wordMapOf_riMaps (h : groupAllowed pm k = true) : wordMapOf riMaps pm k = riMap pm k := by
  cases groupRow_of_allowed h <;> rfl

/-- The map of RI places the bits of a slot where the formula does (40_codecs.md R136). -/
theorem sourceBit_riMap (h : groupAllowed pm bs.length = true) (hj : j < 32) :
    sourceBit (slotOf pm bs).value ((riMap pm bs.length).tx.getD j .zero) = (txWord .ri pm (slotOf pm bs)).getLsbD j := by
  have hn : (slotOf pm bs).nbits = nbitsOf pm bs.length := rfl
  cases hf : isFixed pm with
  | true =>
    rw [txWord_ri_of_fixed hf]
    by_cases hb : j < nbitsOf pm bs.length
    · simp [riMap, hf, hj, hb, sourceBit]
    · rw [getLsbD_slotOf_value_of_le h (Nat.le_of_not_lt hb)]
      simp [riMap, hf, hj, hb, sourceBit]
  | false =>
    rw [getLsbD_txWord_ri_of_variable hf (nbitsOf_le_of_variable h hf) (slotOf_value_lt h) hj, hn]
    simp only [riMap, hf, Bool.false_eq_true, if_false]
    by_cases hlow : j < 24
    · by_cases hb : 24 ≤ j + nbitsOf pm bs.length <;> simp [hj, hlow, hb, sourceBit]
    · cases hb : (nbitsOf pm bs.length).testBit (j - 24) <;> simp [hj, hlow, hb, sourceBit]

end Sys2Proof.Machine
end

section
/-! PROOFS. The codec operations (40_codecs.md R138 to R140): the events of a write, and the bytes an extract leaves in memory. -/

namespace Sys2Proof.Machine

variable {pm : PMode} {j k : Nat}

/-! ### Walks in parts -/

/-- A walk of m + n bytes is a walk of m bytes and then one of n. -/
theorem walk_split {sp : Nat} : ∀ {m n : Nat} {cur : Cursor} {r : List Nat × Cursor}, Cursor.walk sp (m + n) cur = .next r →
    ∃ mid, Cursor.walk sp m cur = .next (r.1.take m, mid) ∧ Cursor.walk sp n mid = .next (r.1.drop m, r.2)
  | 0, n, cur, r, h => ⟨cur, rfl, by simpa using h⟩
  | m + 1, n, cur, r, h => by
    rw [Nat.add_right_comm] at h
    obtain ⟨l, cur', q, hs, hlt, hq, rfl⟩ := walk_succ_eq_next.mp h
    obtain ⟨mid, hfront, hback⟩ := walk_split hq
    exact ⟨mid, walk_succ_eq_next.mpr ⟨l, cur', _, hs, hlt, hfront, rfl⟩, hback⟩

/-! ### CodecWrite and PlaceholderWrite -/

/-- A codec write whose cursor walks over the bytes of its groups completes, with the events of those bytes (40_codecs.md R138). -/
theorem codecWriteGroups_of_walk : ∀ {ks : List Nat} {cur : Cursor} {s : State} {r : List Nat × Cursor},
    Cursor.walk s.params.addrSpace ks.sum cur = .next r →
    ∃ u, codecWriteGroups pm ks cur s = .next (r.2, u) ∧
      u.trace = s.trace ++ pushEvents s.params.wordLayout pm s.mem ks r.1
  | [], cur, s, r, h => by
    cases h
    exact ⟨s, rfl, by simp [pushEvents]⟩
  | k :: ks, cur, s, r, h => by
    rw [List.sum_cons] at h
    obtain ⟨mid, hfront, hback⟩ := walk_split h
    have hcopy := copyOut_eq_next (s := s).mpr ⟨_, hfront, rfl⟩
    obtain ⟨u, hu, ht⟩ := codecWriteGroups_of_walk
      (s := regWrite .fifoHold (txWord s.params.wordLayout pm (slotOf pm (readBytes (r.1.take k) s))) (memReads (r.1.take k) s))
      (ks := ks) (by simpa using hback)
    exact ⟨u, andThen_eq_next.mpr ⟨_, hcopy, hu⟩, by simp [ht, pushEvents, readBytes]⟩

theorem placeholderGroups_trace : ∀ (ks : List Nat) (s : State),
    (placeholderGroups pm ks s).trace = s.trace ++ placeholderEvents s.params.wordLayout pm ks
  | [], s => by simp [placeholderGroups, placeholderEvents]
  | k :: ks, s => by
    rw [placeholderGroups, placeholderGroups_trace]
    simp [placeholderEvents, placeholder_eq]

/-! ### Bytes written to memory -/

theorem memWrites_trace (cs : List Host.Cell) (s : State) :
    (memWrites cs s).trace = s.trace ++ cs.map fun c => .memWrite c.1 c.2 := (memWrites_spec cs s).2.2.2.2.2.1

theorem memWrites_append : ∀ (cs ds : List Host.Cell) (s : State), memWrites (cs ++ ds) s = memWrites ds (memWrites cs s)
  | [], _, _ => rfl
  | c :: cs, ds, s => memWrites_append cs ds (memWrite c.1 c.2 s)

/-- What writes leave in memory depends on what memory held, and on nothing else of the state. -/
theorem memWrites_mem_congr {s t : State} (h : s.mem = t.mem) (cs : List Host.Cell) : (memWrites cs s).mem = (memWrites cs t).mem := by
  obtain ⟨-, -, -, -, -, -, hs⟩ := memWrites_spec cs s
  obtain ⟨-, -, -, -, -, -, ht⟩ := memWrites_spec cs t
  rw [hs, ht, h]

/-- Bytes written at addresses that differ from each other read back. -/
theorem memWrites_read_zip {as : List Nat} {bs : List Byte} {s : State} {j : Nat} (hm : Memory.wf s.mem = true) (hnd : as.Nodup)
    (hj : j < as.length) (hj' : j < bs.length) : Memory.read (memWrites (as.zip bs) s).mem (as.getD j 0) = bs.getD j 0 := by
  induction as generalizing bs s j with
  | nil => cases hj
  | cons a as ih =>
    cases bs with
    | nil => cases hj'
    | cons b bs =>
      obtain ⟨hnew, hnd⟩ := List.nodup_cons.mp hnd
      have hm' : Memory.wf (memWrite a b s).mem = true := Memory.wf_write hm a b
      rw [List.zip_cons_cons, memWrites]
      cases j with
      | zero =>
        have hfresh : ∀ c ∈ as.zip bs, c.1 ≠ a := fun c hc hca => hnew (hca ▸ (List.of_mem_zip hc).1)
        exact (memWrites_read_of_not_mem hm' hfresh).trans ((Memory.read_write hm ..).trans (if_pos rfl))
      | succ j => exact ih hm' hnd (Nat.lt_of_succ_lt_succ hj) (Nat.lt_of_succ_lt_succ hj')

/-! ### CodecExtract -/

/-- An extract whose cursor walks over k addresses completes, and writes the bytes of the word there (40_codecs.md R140). -/
theorem codecExtract_of_walk {w : Word} {cur : Cursor} {s : State} {r : List Nat × Cursor}
    (h : Cursor.walk s.params.addrSpace k cur = .next r) :
    codecExtract pm k w cur s = .next (r.2, memWrites (r.1.zip (unslot pm k (rxSlot s.params.wordLayout pm k w))) s) :=
  copyIn_eq_next.mpr ⟨r, by rwa [unslot_length], rfl⟩

/-- A byte of a word received under WORD_LAYOUT RI (40_codecs.md R135, R137). -/
theorem toNat_unslot_rxSlot_ri_getD (h : groupAllowed pm k = true) (w : Word) (hj : j < k) :
    ((unslot pm k (rxSlot .ri pm k w)).getD j 0).toNat = w.toNat / 2 ^ (8 * (k - 1 - j) + padBits pm) % 256 := by
  have hn : nbitsOf pm k = (8 * (k - 1 - j) + padBits pm) + (8 + 8 * j) := by
    rw [nbitsOf_eq h]
    omega
  rw [toNat_unslot_getD _ hj, toNat_rxSlot_ri, hn, Nat.pow_add 2 _ (8 + 8 * j), Nat.mod_mul_right_div_self, Nat.pow_add 2 8]
  exact Nat.mod_mul_right_mod ..

end Sys2Proof.Machine
end

section
/-! PROOFS. The reference core (log 6) over one read: the placeholders of a chunk bring the next MISO bytes into its RX FIFO, and a drain
stores them (95_test_vectors.md 0.2; 40_codecs.md R137, R139 to R141). -/

namespace Sys2Proof.Machine

variable {pm : PMode} {p : Params} {s : State} {c0 c1 others : Word} {rx : List Word} {miso : List Byte} {k : Nat}

/-! ### The control words it reads -/

theorem getLsbD_fieldMask (lo width j : Nat) :
    (fieldMask lo width).getLsbD j = (decide (j < 32) && (decide (lo ≤ j) && decide (j < lo + width))) := by
  rw [fieldMask, BitVec.getLsbD_ofNat, Nat.testBit_shiftLeft, Nat.testBit_two_pow_sub_one]
  by_cases hlo : lo ≤ j
  · simp [hlo, Nat.sub_lt_iff_lt_add' hlo]
  · simp [hlo]

/-- Clearing a field keeps every bit outside it. -/
theorem getLsbD_clearField (w : Word) (lo width j : Nat) :
    (clearField w lo width).getLsbD j = (w.getLsbD j && !(decide (lo ≤ j) && decide (j < lo + width))) := by
  rw [clearField, BitVec.getLsbD_and, BitVec.getLsbD_not, getLsbD_fieldMask]
  by_cases hj : j < 32
  · simp [hj]
  · simp [BitVec.getLsbD_of_ge w j (Nat.le_of_not_lt hj)]

/-- A word of ZeroWidth has no serial length of its own (41_control_compiler.md R166). -/
theorem shiftLenOf_zeroWidth (l : RegLayout) (w : Word) : shiftLenOf l (zeroWidth l w) = 0 := by
  refine getField_eq_of_bits (by decide) fun i hi => ?_
  simp [zeroWidth, getLsbD_clearField, hi]

theorem clearFifoOf_zeroWidth (l : RegLayout) (w : Word) : clearFifoOf l (zeroWidth l w) = false := by
  simp [clearFifoOf, zeroWidth, getLsbD_clearField]

theorem testBit_flag (b : Bool) (i : Nat) : (flag b).testBit i = (b && decide (i = 0)) := by
  by_cases hi : i = 0
  · cases b <;> simp [flag, hi]
  · cases b <;> simp [flag, hi, testBit_one_of_ne]

/-- The low bits of a compiled word under REG_LAYOUT RI, up to its chip-select pattern (30_encoding.md R100). -/
theorem getLsbD_img0_ri (hl : p.layout = RegLayout.ri) (tc : TargetConfig) (pm : PMode) {j : Nat} (hj : j < 17) :
    (img0 p tc pm).getLsbD j = ((pmodeShiftLen pm).testBit j || decide (j = 6) ||
      (decide (j = 7) && (dataModeBits p tc.mode).invertClk) || (decide (j = 8) && (dataModeBits p tc.mode).outRising) ||
      (decide (j = 10) && (dataModeBits p tc.mode).inRising) || decide (j = 11) || (decide (j = 14) && pmodeVarWidth pm)) := by
  have hbit : ∀ (b : Bool) (lo : Nat), (flag b <<< lo).testBit j = (decide (j = lo) && b) := fun b lo => by
    rw [Nat.testBit_shiftLeft, testBit_flag]
    by_cases h : j = lo
    · simp [h]
    · by_cases hle : lo ≤ j
      · have : j - lo ≠ 0 := by omega
        simp [h, this]
      · simp [h, hle]
  have hhigh : ∀ (x lo : Nat), 17 ≤ lo → (x <<< lo).testBit j = false := fun x lo hlo => by
    rw [Nat.testBit_shiftLeft, decide_eq_false (by omega), Bool.false_and]
  have h32 : j < 32 := by omega
  rw [img0, hl, pack0, BitVec.getLsbD_ofNat]
  simp [Nat.testBit_or, hbit, hhigh, RegLayout.ri, compile, compileShape, h32]

/-- The fields of a compiled word that say how long a FIFO word is, and that it is pushed (41_control_compiler.md R161). -/
theorem img0_ri (hl : p.layout = RegLayout.ri) (tc : TargetConfig) (pm : PMode) :
    clearFifoOf p.layout (img0 p tc pm) = false ∧ varWidthOf p.layout (img0 p tc pm) = pmodeVarWidth pm ∧
      shiftLenOf p.layout (img0 p tc pm) = pmodeShiftLen pm := by
  have hclear : RegLayout.ri.clearFifo = 9 := rfl
  have hvar : RegLayout.ri.varWidth = 14 := rfl
  have hlow : RegLayout.ri.shiftLen = 0 := rfl
  have hbound : pmodeShiftLen pm < 2 ^ 6 := by cases pm <;> decide
  have hzero : ∀ {j}, 6 ≤ j → (pmodeShiftLen pm).testBit j = false := fun hj =>
    Nat.testBit_lt_two_pow (hbound.trans_le (Nat.pow_le_pow_right (by decide) hj))
  rw [clearFifoOf, varWidthOf, hl, hclear, hvar, getLsbD_img0_ri hl tc pm (by decide), getLsbD_img0_ri hl tc pm (by decide)]
  refine ⟨by simp [hzero], by simp [hzero], getField_eq_of_bits hbound fun i hi => ?_⟩
  rw [hlow, Nat.zero_add, getLsbD_img0_ri hl tc pm (by omega)]
  have hne : ∀ n, 6 ≤ n → i ≠ n := fun n hn => by omega
  simp [hne]

/-! ### The words it gives -/

/-- The reference core under a compiled word clocks a placeholder of k bytes for as many bits as its slot has (30_encoding.md R104). -/
theorem serialBits_placeholder (hl : p.layout = RegLayout.ri) (tc : TargetConfig) (h : groupAllowed pm k = true) :
    serialBits p.layout (img0 p tc pm) (txWord .ri pm (placeholder pm k)) = nbitsOf pm k := by
  obtain ⟨-, hvar, hlen⟩ := img0_ri hl tc pm
  rw [serialBits, hvar, hlen, placeholder_eq]
  cases pm with
  | fixed4 | fixed3Shifted => rfl
  | variable3 | variable2Shifted =>
    exact getField_txWord_ri_of_variable rfl (nbitsOf_le_of_variable h rfl) (Nat.two_pow_pos _)

theorem length_misoBytes (miso : List Byte) (k : Nat) : (misoBytes miso k).length = k := by simp [misoBytes]

theorem misoBytes_add (miso : List Byte) (m n : Nat) : misoBytes miso (m + n) = misoBytes miso m ++ misoBytes (miso.drop m) n := by
  simp [misoBytes, List.range_add]

theorem getD_misoBytes {j : Nat} (miso : List Byte) (hj : j < k) : (misoBytes miso k).getD j 0 = miso.getD j 0 := by
  simp [misoBytes, hj]

/-- A word as long as the slot of k bytes brings the slot of the next k MISO bytes. -/
theorem misoWord_nbitsOf (h : groupAllowed pm k = true) (miso : List Byte) :
    misoWord miso (nbitsOf pm k) = (slotOf pm (misoBytes miso k)).value := by
  have hpad : nbitsOf pm k % 8 = padBits pm := by
    have := padBits_le pm
    rw [nbitsOf_eq h]
    omega
  rw [misoWord, nbitsOf_div h, hpad]
  cases hs : isShifted pm <;> simp [padBits, slotOf, hs]

/-- The bytes of a word that brings the slot of the next k MISO bytes are those bytes (40_codecs.md R141). -/
theorem unslot_rxSlot_misoBytes (h : groupAllowed pm k = true) (miso : List Byte) :
    unslot pm k (rxSlot .ri pm k (slotOf pm (misoBytes miso k)).value) = misoBytes miso k := by
  have hlen := length_misoBytes miso k
  have hallowed : groupAllowed pm (misoBytes miso k).length = true := hlen.symm ▸ h
  have hslot := rxSlot_ri_eq_of_bits hallowed fun _ _ => rfl
  have hbytes := unslot_slotOf hallowed
  rw [hlen] at hslot hbytes
  rw [hslot, hbytes]

/-- The slot values of the next MISO bytes, in groups. -/
def misoSlots (pm : PMode) : List Nat → List Byte → List Word
  | [], _ => []
  | k :: ks, miso => (slotOf pm (misoBytes miso k)).value :: misoSlots pm ks (miso.drop k)

/-! ### What it does at the ports -/

/-- A reference core that is not busy, hides no word, and answers every mapping OK. -/
def readyCore (c0 c1 : Word) (rx : List Word) (miso : List Byte) (others : Word) : RefCore :=
  { cntl0 := c0, cntl1 := c1, rx := rx, miso := miso, busyReads := 0, others := others, hidden := false, mapAnswers := [] }

theorem regValue_of_core {c : RefCore} (hc : s.core = some c) (r : CoreReg) : regValue r s = c.value s.params r := by
  simp [regValue, hc]

theorem regRead_core {c : RefCore} (hc : s.core = some c) (r : CoreReg) : (regRead r s).core = some (c.afterRead r) := by
  simp [regRead, coreAfterRead, hc]

theorem ien_core (hc : s.core = some (readyCore c0 c1 rx miso others)) (v : Word) :
    (ien v s).core = some (readyCore c0 v rx miso others) := by
  simp [ien, hc, RefCore.write, readyCore]

theorem shape_core (hc : s.core = some (readyCore c0 c1 rx miso others)) (v : Word) :
    (shape v s).core = some (readyCore v c1 (if clearFifoOf s.params.layout v then [] else rx) miso others) := by
  simp [shape, hc, RefCore.write, readyCore]

/-- A pushed word brings an RX word of its serial length. -/
theorem push_core (hc : s.core = some (readyCore c0 c1 rx miso others)) (hclear : clearFifoOf s.params.layout c0 = false) {w : Word}
    {n : Nat} (hn : serialBits s.params.layout c0 w = n) :
    (regWrite .fifoHold w s).core = some (readyCore c0 c1 (rx ++ [misoWord miso n]) (miso.drop (n / 8)) others) := by
  simp [hc, RefCore.write, RefCore.push, readyCore, hclear, hn]

/-- A core whose done interrupt is enabled raises this engine's bit (30_encoding.md R103). -/
theorem irqMine_of_readyCore (hv : s.params.valid = true) (hc : s.core = some (readyCore c0 (ieOn s.params) rx miso others)) :
    irqMine s = true := by
  have hbit : s.params.irqMineBit < 32 := by
    simp only [Params.valid, Bool.and_eq_true, decide_eq_true_eq] at hv
    obtain ⟨⟨⟨⟨-, hbit⟩, -⟩, -⟩, -⟩ := hv
    exact hbit
  simp [irqMine, regValue_of_core hc, RefCore.value, readyCore, doneIeOf_ieOn hv, mineOf, getLsbD_fieldMask_one, hbit]

theorem mapAnswer_of_readyCore (hc : s.core = some (readyCore c0 c1 rx miso others)) (c : Chain) :
    mapAnswer c s = chainFits s.params.addrSpace c := by
  simp [mapAnswer, mapDraw, hc, readyCore]

theorem mapChain_core (hc : s.core = some (readyCore c0 c1 rx miso others)) (c : Chain) : (mapChain c s).core = s.core := by
  simp [mapChain, coreAfterMap, hc, readyCore]

theorem mapChains_core : ∀ (cs : List Chain) {s : State}, s.core = some (readyCore c0 c1 rx miso others) →
    (mapChains cs s).2.core = s.core
  | [], _, _ => rfl
  | c :: cs, s, hc => by
    have hmap := mapChain_core hc c
    unfold mapChains
    split
    · exact (mapChains_core cs (hmap.trans hc)).trans hmap
    · exact hmap

/-- A poll of a core that is not busy leaves it as it is. -/
theorem pollLoop_core : ∀ (n : Nat) {s : State}, s.core = some (readyCore c0 c1 rx miso others) → (pollLoop n s).2.core = s.core
  | 0, _, _ => rfl
  | n + 1, s, hc => by
    have hstat : (regRead .stat s).core = s.core := (regRead_core hc .stat).trans hc.symm
    unfold pollLoop
    split
    · exact (pollLoop_core (s := stall 3 (regRead .stat s)) n (hstat.trans hc)).trans hstat
    · exact hstat

/-- The assertion of the line takes back the one word its trigger brings, which holds no MISO byte (42_chip_select.md R190, R193). -/
theorem assertCs_core (hc : s.core = some (readyCore c0 c1 [] miso others)) (img : Word) :
    (assertCs img s).core = some (readyCore img (ieOff s.params) [] miso others) := by
  have htrigger : serialBits s.params.layout (zeroWidth s.params.layout img) 0 = 0 := by
    simp [serialBits, shiftLenOf_zeroWidth, getField]
  have hready := shape_core (ien_core hc (ieOff s.params)) (zeroWidth s.params.layout img)
  have hpush := push_core hready (clearFifoOf_zeroWidth _ img) htrigger
  have hpoll := (pollLoop_core s.params.pollRetries hpush).trans hpush
  have hpop := regRead_core (shape_core hpoll img) .fifoIo
  refine hpop.trans ?_
  split <;> simp [RefCore.afterRead, readyCore, clearFifoOf_zeroWidth]

/-- An issue on a line that is not asserted leaves the core ready under the compiled word (43_transfer_state_machine.md R226). -/
theorem issued_core {t : Nat} {h : Handle} {x : Transfer} {tc : TargetConfig} (hcs : s.block.cs ≠ .asserted)
    (hc : s.core = some (readyCore c0 c1 [] miso others)) :
    (issued t h x tc s).core =
      some (readyCore (img0 s.params tc (selectMode s.params tc.mode x.firstLength)) (ieOff s.params) [] miso others) := by
  obtain ⟨hp, hb, -⟩ := mapChains_spec x.chains s
  have hmap := (mapChains_core x.chains hc).trans hc
  have hline : (onBlock (requestRecord s.params h t tc x) (mapChains x.chains s).2).block.cs ≠ .asserted := by
    simpa [requestRecord, hb] using hcs
  rw [issued, issueStart, setX_core, hp, reshapeOrAssert, if_neg hline,
    assertCs_core (s := onBlock (requestRecord s.params h t tc x) (mapChains x.chains s).2) hmap, onBlock_params, hp]

/-- The placeholders of a chunk bring the slots of the next MISO bytes. -/
theorem placeholderGroups_core (tc : TargetConfig) : ∀ {ks : List Nat} {s : State} {rx : List Word} {miso : List Byte},
    s.params.layout = RegLayout.ri → s.params.wordLayout = .ri → (∀ k ∈ ks, groupAllowed pm k = true) →
    s.core = some (readyCore (img0 s.params tc pm) c1 rx miso others) →
    (placeholderGroups pm ks s).core =
      some (readyCore (img0 s.params tc pm) c1 (rx ++ misoSlots pm ks miso) (miso.drop ks.sum) others)
  | [], s, rx, miso, _, _, _, hc => by simpa [placeholderGroups, misoSlots] using hc
  | k :: ks, s, rx, miso, hl, hw, hks, hc => by
    have hk := hks k List.mem_cons_self
    have hpush := push_core hc (img0_ri hl tc pm).1 (serialBits_placeholder hl tc hk)
    rw [misoWord_nbitsOf hk, nbitsOf_div hk, ← hw] at hpush
    have hrest := placeholderGroups_core tc (s := regWrite .fifoHold (txWord s.params.wordLayout pm (placeholder pm k)) s) hl hw
      (fun k' hk' => hks k' (List.mem_cons_of_mem _ hk')) hpush
    rw [placeholderGroups, hrest]
    simp [misoSlots]

/-- The pump of a read chunk under its compiled word (43_transfer_state_machine.md R232). -/
theorem pumpRead_core {tc : TargetConfig} (hl : s.params.layout = RegLayout.ri) (hw : s.params.wordLayout = .ri)
    (hks : ∀ k ∈ groups s.block.pmode (readChunk s.block), groupAllowed s.block.pmode k = true)
    (hc : s.core = some (readyCore (img0 s.params tc s.block.pmode) c1 [] miso others)) :
    (pumpRead s).core = some (readyCore (img0 s.params tc s.block.pmode) c1
      (misoSlots s.block.pmode (groups s.block.pmode (readChunk s.block)) miso) (miso.drop (readChunk s.block)) others) := by
  have hpump := placeholderGroups_core tc hl hw hks hc
  rwa [groups_sum] at hpump

/-! ### A drain of what it gives -/

/-- A popped word of a read phase goes through the read cursor. -/
theorem takeWord_of_walk {w : Word} {r : List Nat × Cursor} (hph : readPhase s.block.xstate = true)
    (h : Cursor.walk s.params.addrSpace k s.block.rd = .next r) :
    takeWord k w s = .next (countRead r.2 k
      (memWrites (r.1.zip (unslot s.block.pmode k (rxSlot s.params.wordLayout s.block.pmode k w))) s)) := by
  rw [takeWord, if_pos hph, codecExtract_of_walk h]
  rfl

/-- A word that shows is popped and taken. -/
theorem drainLoop_cons {ks : List Nat} {v : State} (hshow : rxEmptyOf s.params.layout (regValue .stat s) = false)
    (h : takeWord k (regValue .fifoIo (regRead .stat s)) (setInflight ks (regRead .fifoIo (regRead .stat s))) = .next v) :
    drainLoop (k :: ks) s = drainLoop ks v := by
  rw [drainLoop, if_neg (Bool.not_eq_true _ ▸ hshow), h]
  rfl

/-- A core that holds a word and is not busy shows it (30_encoding.md R103). -/
theorem rxEmptyOf_readyCore (l : RegLayout) (w : Word) :
    rxEmptyOf l ((readyCore c0 c1 (w :: rx) miso others).statWord l) = false := by
  simp [rxEmptyOf, RefCore.statWord, RefCore.rxEmpty, readyCore]

/-- A drain of slots of MISO bytes pops them all and stores their bytes where the read cursor walks (43_transfer_state_machine.md R231;
40_codecs.md R141). -/
theorem drainLoop_misoSlots {rest : List Byte} : ∀ {ks : List Nat} {s : State} {miso : List Byte} {r : List Nat × Cursor},
    s.params.wordLayout = .ri → readPhase s.block.xstate = true → (∀ k ∈ ks, groupAllowed s.block.pmode k = true) →
    Cursor.walk s.params.addrSpace ks.sum s.block.rd = .next r →
    s.core = some (readyCore c0 c1 (misoSlots s.block.pmode ks miso) rest others) →
    ∃ t, drainLoop ks s = .next (.full, t) ∧ t.mem = (memWrites (r.1.zip (misoBytes miso ks.sum)) s).mem
  | [], s, miso, r, _, _, _, h, _ => by
    cases h
    exact ⟨s, rfl, rfl⟩
  | k :: ks, s, miso, r, hw, hph, hks, h, hc => by
    have hk := hks k List.mem_cons_self
    rw [List.sum_cons] at h
    obtain ⟨mid, hfront, hback⟩ := walk_split h
    have hstat := regRead_core hc .stat
    have hpop := regRead_core hstat .fifoIo
    have hword : regValue .fifoIo (regRead .stat s) = (slotOf s.block.pmode (misoBytes miso k)).value := regValue_of_core hstat .fifoIo
    have hbytes : unslot s.block.pmode k (rxSlot s.params.wordLayout s.block.pmode k (regValue .fifoIo (regRead .stat s))) =
        misoBytes miso k := by
      rw [hword, hw, unslot_rxSlot_misoBytes hk]
    have htake := takeWord_of_walk (k := k) (w := regValue .fifoIo (regRead .stat s))
      (s := setInflight ks (regRead .fifoIo (regRead .stat s))) (by simpa using hph) (by simpa using hfront)
    simp only [setInflight_block, setInflight_params, regRead_block, regRead_params, hbytes] at htake
    have hshow : rxEmptyOf s.params.layout (regValue .stat s) = false := by
      rw [regValue_of_core hc]
      exact rxEmptyOf_readyCore ..
    have hcore : (setInflight ks (regRead .fifoIo (regRead .stat s))).core =
      some (readyCore c0 c1 (misoSlots s.block.pmode ks (miso.drop k)) rest others) := hpop
    obtain ⟨t, ht, hmem⟩ := drainLoop_misoSlots (ks := ks) (miso := miso.drop k) (rest := rest) (r := (r.1.drop k, r.2))
      (s := countRead mid k (memWrites ((r.1.take k).zip (misoBytes miso k)) (setInflight ks (regRead .fifoIo (regRead .stat s)))))
      (by simpa using hw) (by simpa using hph) (by simpa using fun k' hk' => hks k' (List.mem_cons_of_mem _ hk'))
      (by simpa using hback) (by simpa using hcore)
    refine ⟨t, (drainLoop_cons hshow htake).trans ht, ?_⟩
    have htaken : (r.1.take k).length = (misoBytes miso k).length := by
      rw [length_misoBytes]
      exact (walk_spec hfront).1
    have hzip : r.1.zip (misoBytes miso (k :: ks).sum) =
        (r.1.take k).zip (misoBytes miso k) ++ (r.1.drop k).zip (misoBytes (miso.drop k) ks.sum) := by
      rw [← List.zip_append htaken, List.take_append_drop, ← misoBytes_add, List.sum_cons]
    have hkeep : (setInflight ks (regRead .fifoIo (regRead .stat s))).mem = s.mem := by simp
    rw [hmem, hzip, memWrites_append]
    exact memWrites_mem_congr ((countRead_mem ..).trans (memWrites_mem_congr hkeep _)) _

end Sys2Proof.Machine
end

section
/-! PROOFS. A read of one chunk, step by step: its issue, the interrupt that drains it, and its bottom half (43_transfer_state_machine.md
R223, R230; 44_completion_cancel.md R270). -/

namespace Sys2Proof.Machine

variable {s : State} {h : Handle} {t : Nat}

/-- A transfer that passes every test starts. -/
theorem transfer_of_checks {x : Transfer} {tc : TargetConfig} (hs : CanIssue s) (h0 : h ≠ 0) (ht : t < s.params.numTargetSlots)
    (htc : targetAt s.block t = some tc) (hc : ∀ c ∈ issueChecks t x s.block, c.1 = false) (hm : (mapChains x.chains s).1 = true) :
    exec (x.command t h) s = andThen (firstChunk x (issued t h x tc s)) fun v => .next (issueEnd v) := by
  obtain ⟨hf, hx, hbh⟩ := hs
  obtain ⟨cmd, he⟩ := exec_transfer t h x s
  rw [he, issueGate_pass _ hf h0 fun _ => ⟨hx, hbh⟩, targetGate_pass _ ht, checkIssue_pass htc (firstFailing_none.mpr hc) hm]
  rfl

/-- An interrupt of a read whose last words show drains them and ends the transfer (43_transfer_state_machine.md R230, R235). -/
theorem execIrq_of_lastRead {d : State} (hf : s.block.fault = none) (hx : s.block.xstate = .read) (hs : s.block.slot ≠ 0)
    (hbh : s.block.bhFor = 0) (hmine : irqMine s = true) (hd : drain (regRead .irqstat s) = .next (.full, d))
    (hdx : d.block.xstate = .read) (hall : d.block.rdTotal ≤ d.block.rdDone) :
    exec .irq s = .next (claim true (done d)) := by
  have haside : standsAside s.block = false := by simp [standsAside, hx, hs, hbh]
  have hadv : advance d = .next (done d) := by
    unfold advance
    rw [hdx]
    exact if_neg (Nat.not_lt.mpr hall)
  simp only [exec, execIrq, unlessStuck_pass hf, haside, Bool.false_eq_true, if_false, hmine, if_true, irqAdvance, hd, andThen_next,
    hadv]

/-- The bottom half of a read whose counts match its total (44_completion_cancel.md R270, R272). -/
theorem execBh_of_read (hf : s.block.fault = none) (hbh : s.block.bhFor ≠ 0) (hs : s.block.slot = s.block.bhFor)
    (hx : s.block.xstate = .read) (hall : s.block.rdDone = s.block.rdTotal) :
    exec .bh s = .next (bhFinish s.block.bhFor (s.block.rdDone, 0, s.block.rdDone) (taken (clearBh s))) := by
  have htake : takes s.block.bhFor (clearBh s) = true := takes_eq_true.mpr ⟨hbh, hs⟩
  have hcounts : counts (clearBh s).block = some (s.block.rdDone, 0, s.block.rdDone) := by simp [counts, hx]
  have hmatch : countsMatch (clearBh s).block = true := by simp [countsMatch, countsWrite, hx, hall]
  simp only [exec, execBh, unlessStuck_pass hf, if_neg hbh, bhFor, htake, hcounts, hmatch, if_true]

/-- A drain that popped every word of a read phase counts their bytes (43_transfer_state_machine.md R231). -/
theorem drain_full_block {d : State} (hph : readPhase s.block.xstate = true) (h : drain s = .next (.full, d)) :
    ∃ cur, d.block = { s.block with inflight := [], rd := cur, rdDone := s.block.rdDone + s.block.inflight.sum } := by
  obtain ⟨-, -, -, popped, rest, -, cur, hi, hfull, -, hb, -⟩ := drainLoop_spec h rfl
  obtain rfl := hfull.mp rfl
  rw [List.append_nil] at hi
  refine ⟨cur, ?_⟩
  rw [hb, storedBytes, if_pos hph, hi]

theorem length_chainAddrs (c : Chain) : (chainAddrs c).length = total c := by
  induction c with
  | nil => rfl
  | cons l c ih => simp [ih]

/-- A fresh cursor walks over its whole chain. -/
theorem walk_fresh_total {space : Nat} {c : Chain} (hfit : chainFits space c = true) :
    ∃ cur, Cursor.walk space (total c) (Cursor.fresh c) = .next (chainAddrs c, cur) := by
  obtain ⟨as, cur, hw, -⟩ := walk_of_at (n := total c) (fresh_at hfit) (by omega)
  obtain ⟨rfl, -⟩ := walk_ahead (Nat.zero_le _) hw
  rw [ahead_fresh, List.take_of_length_le (length_chainAddrs c).le] at hw
  exact ⟨cur, hw⟩

/-- A chunk is a length the port can carry. -/
theorem cap_le_lenMax (pm : PMode) : cap pm ≤ Config.lenMax := by cases pm <;> decide

/-! ### The three steps with the reference core -/

/-- A read of a chain r whose one chunk is in flight: the reference core holds the slots of the next MISO bytes, with its done
interrupt enabled. -/
structure OneChunkRead (h : Handle) (r : Chain) (miso : List Byte) (s : State) : Prop where
  valid : s.params.valid = true
  layout : s.params.wordLayout = .ri
  fits : chainFits s.params.addrSpace r = true
  core : ∃ c0 rest others,
    s.core = some (readyCore c0 (ieOn s.params) (misoSlots s.block.pmode s.block.inflight miso) rest others)
  fault : s.block.fault = none
  tag : s.block.xstate = .read
  slot : s.block.slot = h ∧ h ≠ 0
  bhFor : s.block.bhFor = 0
  locked : s.block.locked = false
  cursor : s.block.rd = Cursor.fresh r
  counts : s.block.rdDone = 0 ∧ s.block.rdTotal = total r
  inflight : s.block.inflight.sum = total r ∧ ∀ k ∈ s.block.inflight, groupAllowed s.block.pmode k = true

section Issue

variable {r : Chain} {tc : TargetConfig} {c0 c1 others : Word} {miso : List Byte}

/-- A READ of at most one chunk passes its tests, the mapping among them. -/
theorem execRead_starts (hs : CanIssue s) (hc : s.core = some (readyCore c0 c1 [] miso others)) (hl : s.block.locked = false)
    (h0 : h ≠ 0) (ht : t < s.params.numTargetSlots) (htc : targetAt s.block t = some tc)
    (hfit : chainFits s.params.addrSpace r = true) (hpos : 1 ≤ total r)
    (hcap : total r ≤ cap (selectMode s.params tc.mode (total r))) :
    exec (.read t h r) s = .next (issueEnd (pumpRead (issued t h (.read r) tc s))) := by
  have hlen := hcap.trans (cap_le_lenMax _)
  have hchecks : ∀ c ∈ issueChecks t (.read r) s.block, c.1 = false := by
    simp [issueChecks, hl, Transfer.malformed, Transfer.delayed, Transfer.chains, Transfer.unequal, hlen, Nat.ne_of_gt hpos]
  have hmapped : (mapChains (Transfer.read r).chains s).1 = true := by
    simp [mapChains, Transfer.chains, mapAnswer_of_readyCore hc, hfit]
  exact transfer_of_checks (x := .read r) hs h0 ht htc hchecks hmapped

/-- The mode of an issued read, and its first chunk where the whole length fits it. -/
theorem issuedRead_chunk (t : Nat) (h : Handle) (hcap : total r ≤ cap (selectMode s.params tc.mode (total r))) :
    (issued t h (.read r) tc s).block.pmode = selectMode s.params tc.mode (total r) ∧
      readChunk (issued t h (.read r) tc s).block = total r := by
  obtain ⟨v0, v1, hb⟩ := issued_block t h (.read r) tc s
  rw [hb]
  exact ⟨rfl, Nat.min_eq_left hcap⟩

/-- What a READ of at most one chunk leaves is a read with its one chunk in flight. -/
theorem issuedRead_oneChunk (hv : s.params.valid = true) (hreg : s.params.layout = RegLayout.ri) (hword : s.params.wordLayout = .ri)
    (hs : CanIssue s) (hcs : s.block.cs ≠ .asserted) (hc : s.core = some (readyCore c0 c1 [] miso others))
    (hl : s.block.locked = false) (h0 : h ≠ 0) (hfit : chainFits s.params.addrSpace r = true)
    (hcap : total r ≤ cap (selectMode s.params tc.mode (total r))) :
    OneChunkRead h r miso (issueEnd (pumpRead (issued t h (.read r) tc s))) := by
  have hcore := issued_core (t := t) (h := h) (x := .read r) (tc := tc) hcs hc
  have hparams := issued_params t h (.read r) tc s
  obtain ⟨hmode, hchunk⟩ := issuedRead_chunk (s := s) t h hcap
  obtain ⟨v0, v1, hb⟩ := issued_block t h (.read r) tc s
  generalize issued t h (.read r) tc s = v at *
  have hallowed : ∀ k ∈ groups v.block.pmode (total r), groupAllowed v.block.pmode k = true := fun k => by
    rw [hmode]
    exact groupAllowed_of_mem_groups bpw_dvd_of_isFixed_selectMode
  have hpump := pumpRead_core (tc := tc) (hparams ▸ hreg) (hparams ▸ hword) (hchunk.symm ▸ hallowed)
    (by rw [hmode, hparams]; exact hcore)
  have hend := ien_core hpump (ieOn (pumpRead v).params)
  have hblock : (issueEnd (pumpRead v)).block =
      { v.block with inflight := groups v.block.pmode (total r), shadow1 := ieOn s.params, cancelable := true } := by
    simp [issueEnd, hchunk, hparams]
  have hpar : (issueEnd (pumpRead v)).params = s.params := by simp [issueEnd, hparams]
  exact {
    valid := hpar ▸ hv
    layout := hpar ▸ hword
    fits := hpar ▸ hfit
    core := ⟨_, _, _, by simpa [hblock, hchunk, issueEnd] using hend⟩
    fault := by rw [hblock, hb]; exact hs.1
    tag := by rw [hblock, hb]; rfl
    slot := by rw [hblock, hb]; exact ⟨rfl, h0⟩
    bhFor := by rw [hblock, hb]; exact hs.2.2
    locked := by rw [hblock, hb]; exact hl
    cursor := by rw [hblock, hb]; rfl
    counts := by rw [hblock, hb]; exact ⟨rfl, rfl⟩
    inflight := by rw [hblock]; exact ⟨groups_sum .., hallowed⟩ }

end Issue

/-- Its interrupt stores the MISO bytes in the chain and queues the bottom half. -/
theorem OneChunkRead.irq {r : Chain} {miso : List Byte} (hr : OneChunkRead h r miso s) :
    ∃ v, exec .irq s = .next v ∧ v.mem = (memWrites ((chainAddrs r).zip (misoBytes miso (total r))) s).mem ∧
      v.block.fault = none ∧ v.block.bhFor = h ∧ v.block.slot = h ∧ v.block.xstate = .read ∧ v.block.rdDone = total r ∧
      v.block.rdTotal = total r ∧ v.block.cs = .releasing := by
  obtain ⟨c0, rest, others, hc⟩ := hr.core
  obtain ⟨cur, hw⟩ := walk_fresh_total hr.fits
  have hph : readPhase s.block.xstate = true := by rw [hr.tag]; rfl
  have hcore : (regRead .irqstat s).core = s.core := (regRead_core hc .irqstat).trans hc.symm
  obtain ⟨d, hd, hmem⟩ := drainLoop_misoSlots (s := regRead .irqstat s) (ks := s.block.inflight) (miso := miso) (rest := rest)
    (by simpa using hr.layout) (by simpa using hph) (by simpa using hr.inflight.2)
    (by simpa [hr.cursor, hr.inflight.1] using hw) (by rw [regRead_block]; exact hcore.trans hc)
  have hdrain : drain (regRead .irqstat s) = .next (.full, d) := by rw [drain, regRead_block]; exact hd
  obtain ⟨cur', hb⟩ := drain_full_block (by simpa using hph) hdrain
  rw [regRead_block, hr.counts.1, hr.inflight.1, Nat.zero_add] at hb
  have hirq := execIrq_of_lastRead hr.fault hr.tag (hr.slot.1 ▸ hr.slot.2) hr.bhFor (irqMine_of_readyCore hr.valid hc) hdrain
    (by rw [hb]; exact hr.tag) (by rw [hb]; exact hr.counts.2.le)
  have hfree : ¬d.block.locked = true := by simp [hb, hr.locked]
  refine ⟨claim true (done d), hirq, ?_, ?_⟩
  · rw [claim_mem, done_mem, hmem, hr.inflight.1]
    exact memWrites_mem_congr (regRead_mem ..) _
  · rw [claim_block, done_block, if_neg hfree, hb]
    exact ⟨hr.fault, hr.slot.1, hr.slot.1, hr.tag, rfl, hr.counts.2, rfl⟩

end Sys2Proof.Machine
end

section
/-! PROOFS. The statements of the family 40_codecs.md. -/

namespace Sys2Proof.Machine

/-- Settles O20: the two tables of the rule, by whether the data mode is shifted. -/
theorem selectModeRule : Obligations.SelectModeRule := fun _ _ _ =>
  ⟨fun h hl => (selectMode_of_not_shifted h).trans (if_pos hl), fun h hl => (selectMode_of_not_shifted h).trans (if_neg hl),
    fun h hl => (selectMode_of_shifted h).trans (if_pos hl), fun h hl => (selectMode_of_shifted h).trans (if_neg hl)⟩

/-- Settles O21: before and after whole chunks a fixed mode has whole words (`bpw_dvd_of_isFixed_selectMode`), and a chunk is either
whole words or all that remains (`groups_eq_chunk_append`). -/
theorem chunkGroups : Obligations.ChunkGroups := by
  intro p mode len moved hlt pm ⟨q, hq⟩ n
  have hfixed : isFixed pm = true → bpw pm ∣ n := fun hfix => by
    have hmoved : bpw pm ∣ moved := hq ▸ Dvd.dvd.mul_left (bpw_dvd_cap pm) q
    have hrest : bpw pm ∣ len - moved := Nat.dvd_sub (bpw_dvd_of_isFixed_selectMode hfix) hmoved
    obtain hn | hn : n = len - moved ∨ n = cap pm := min_choice ..
    · exact hn ▸ hrest
    · exact hn ▸ bpw_dvd_cap pm
  have hpos : 1 ≤ n := Nat.le_min.mpr ⟨Nat.sub_pos_of_lt hlt, cap_pos pm⟩
  have hne : groups pm n ≠ [] := fun h => by
    have := groups_sum pm n
    simp [h] at this
    omega
  exact ⟨fun k => groupAllowed_of_mem_groups hfixed, groups_sum pm n, List.length_pos_iff.mpr hne,
    groups_length (Nat.min_le_right ..), groups_eq_chunk_append pm _, length_groups pm _⟩

/-- Settles O22: the value is the big-endian number of the bytes, doubled where there is a pad bit (`toNat_slotOf_value`). -/
theorem slotOfGroup : Obligations.SlotOfGroup := by
  intro pm bs h
  refine ⟨by cases pm <;> rfl, ?_⟩
  have hpad : 2 ^ padBits pm = if pm = .fixed3Shifted ∨ pm = .variable2Shifted then 2 else 1 := by cases pm <;> rfl
  rw [toNat_slotOf_value h, hpad]
  rfl

/-- Settles O23: a received word is the slot's value where its low bits are (`rxSlot_ri_eq_of_bits`), and the value gives the bytes back
(`unslot_slotOf`). -/
theorem slotRoundTrip : Obligations.SlotRoundTrip := by
  intro pm bs w h
  refine ⟨unslot_slotOf h, fun hw => ?_, fun hfix => ?_, fun maps hv j hj => ?_⟩
  · rw [rxSlot_ri_eq_of_bits h hw, unslot_slotOf h]
  · rw [txWord_ri_of_fixed hfix]
    exact rxSlot_ri_eq_of_bits h fun _ _ => rfl
  · have hrx : j < (wordMapOf maps pm bs.length).rx.length := by rwa [length_rx_of_valid hv h]
    rw [getLsbD_rxSlot_placed _ _ _ _ (hj.trans_le (nbitsOf_le h))]
    simp [hrx]

/-- Settles O24: a fixed word is the slot's value, which ends at its bit count; the bits of a variable one are
`getLsbD_txWord_ri_of_variable`. -/
theorem txWordBits : Obligations.TxWordBits := by
  intro pm bs h w
  refine ⟨fun hfix j _ => ?_, fun hvar => ?_, fun maps _ j hj => getLsbD_txWord_placed h hj⟩
  · have hw : w = (slotOf pm bs).value := txWord_ri_of_fixed hfix _
    have hn : (slotOf pm bs).nbits = nbitsOf pm bs.length := rfl
    by_cases hj : j < nbitsOf pm bs.length
    · simp [hw, hn, hj]
    · simp [hw, hn, hj, getLsbD_slotOf_value_of_le h (Nat.le_of_not_lt hj)]
  · have hn := nbitsOf_le_of_variable h hvar
    have hs := slotOf_value_lt h
    exact ⟨getField_high_txWord_ri_of_variable hvar hn hs, getField_txWord_ri_of_variable hvar hn hs, hn, fun j hj =>
      (getLsbD_txWord_ri_of_variable hvar hn hs (by omega)).trans (if_pos hj)⟩

/-- Settles O25: bit by bit, each bit of a word and of a received slot comes from where the map of RI names. -/
theorem referenceLayoutIsAPlacement : Obligations.ReferenceLayoutIsAPlacement := by
  refine ⟨by decide, fun pm bs w h => ⟨?_, ?_⟩⟩
  · refine BitVec.eq_of_getLsbD_eq fun j hj => ?_
    rw [getLsbD_txWord_placed h hj, wordMapOf_riMaps h, sourceBit_riMap h hj]
  · refine BitVec.eq_of_getLsbD_eq fun j hj => ?_
    rw [getLsbD_rxSlot_placed _ _ _ _ hj, wordMapOf_riMaps h, getLsbD_rxSlot_ri]
    by_cases hb : j < nbitsOf pm bs.length <;> simp [riMap, hb]

/-- Settles O26: the walk over n bytes is the walks over the groups (`walk_split`), each read and pushed in turn. -/
theorem codecWriteTrace : Obligations.CodecWriteTrace := by
  intro pm cur n s as cur' h
  obtain ⟨u, hu, ht⟩ := codecWriteGroups_of_walk (pm := pm) (ks := groups pm n) (by rwa [groups_sum])
  obtain ⟨hp, hb, hm, hport, -⟩ := codecWriteGroups_spec hu
  exact ⟨u, hu, ht, hb, hm, hp, hport⟩

/-- Settles O27: a placeholder slot has the value 0 (`placeholder_eq`), and one is pushed for each group. -/
theorem placeholderWriteTrace : Obligations.PlaceholderWriteTrace := by
  intro pm n s
  obtain ⟨hp, hb, hm, hport, -⟩ := placeholderGroups_spec (pm := pm) (groups pm n) s
  exact ⟨placeholderGroups_trace _ s, hb, hm, hp, hport⟩

/-- Settles O28: an extract is the writes of the word's bytes at the addresses of the walk (`codecExtract_of_walk`), and the bytes lie in
the word where `toNat_unslot_rxSlot_ri_getD` says. -/
theorem codecExtractStores : Obligations.CodecExtractStores := by
  intro pm k w cur s as cur' h hw hm
  obtain ⟨hlen, -, -⟩ := walk_spec hw
  have hbytes := unslot_length pm k (rxSlot s.params.wordLayout pm k w)
  have hpad : padBits pm = if pm = .fixed3Shifted ∨ pm = .variable2Shifted then 1 else 0 := by simp [padBits, isShifted_iff]
  refine ⟨_, _, codecExtract_of_walk hw, rfl, hbytes, fun hri j hj => ?_, memWrites_trace _ s, by simp, by simp, by simp,
    fun a ha => ?_, fun hnd j hj => ?_⟩
  · rw [hri, toNat_unslot_rxSlot_ri_getD h w hj, hpad]
  · exact memWrites_read_of_not_mem hm fun c hc hca => ha (hca ▸ (List.of_mem_zip hc).1)
  · exact memWrites_read_zip hm hnd (hlen.symm ▸ hj) (hj.trans_eq hbytes.symm)

/-- Settles O60: the READ puts its chunk in flight (`issuedRead_oneChunk`), the interrupt stores the bytes (`OneChunkRead.irq`), and the
bottom half completes the transfer and leaves memory alone. -/
theorem readDeliversMisoBytes : Obligations.ReadDeliversMisoBytes := by
  intro t h r tc s c hi hs hp hc hbusy hhidden hrx hmap hl h0 ht htc hfit hpos hcap hnd
  have hready : s.core = some (readyCore c.cntl0 c.cntl1 [] c.miso c.others) := by
    rw [hc, readyCore, ← hbusy, ← hhidden, ← hrx, ← hmap]
  have hcs : s.block.cs ≠ .asserted := by simp [hi.block.line.1 hs.2.1 hl]
  have hu := execRead_starts hs hready hl h0 (hp ▸ ht) htc hfit hpos hcap
  have hread := issuedRead_oneChunk (t := t) hi.params (hp ▸ rfl) (hp ▸ rfl) hs hcs hready hl h0 hfit hcap
  obtain ⟨v, hv, hvm, hf, hbh, hslot, hx, hdone, htotal, hcs⟩ := hread.irq
  have hw := execBh_of_read hf (hbh ▸ h0) (hslot.trans hbh.symm) hx (hdone.trans htotal.symm)
  rw [hbh, hdone] at hw
  have hmem : (bhFinish h (total r, 0, total r) (taken (clearBh v))).mem =
      (memWrites ((chainAddrs r).zip (misoBytes c.miso (total r))) s).mem := by
    simpa [bhFinish, releaseOrRearm_frame, hvm] using memWrites_mem_congr (transfer_mem (x := .read r) hu) _
  refine ⟨_, v, _, hu, hv, hw, by simp [bhFinish], by simp [bhFinish], by simp [bhFinish, releaseOrRearm_block, hcs], fun j hj => ?_,
    fun a ha => ?_⟩
  · rw [hmem, memWrites_read_zip hi.memory hnd (hj.trans_eq (length_chainAddrs r).symm) (hj.trans_eq (length_misoBytes ..).symm),
      getD_misoBytes _ hj]
  · have hother : ∀ b ∈ (chainAddrs r).zip (misoBytes c.miso (total r)), b.1 ≠ a := fun b hb hba =>
      ha (hba ▸ (List.of_mem_zip hb).1)
    rw [hmem, memWrites_read_of_not_mem hi.memory hother]

end Sys2Proof.Machine
end

section
/-! PROOFS. The control-register compiler and CONNECT: the divisor, the word modifiers bit by bit, the fields of a compiled word under
REG_LAYOUT RI, and what CONNECT answers past its gates (41_control_compiler.md R161 to R171; 30_encoding.md R100, R101). -/

namespace Sys2Proof.Machine

variable {p : Params} {tc : TargetConfig} {j : Nat}

/-! ### The divisor -/

/-- Div(f) is at most d where d is the greatest divisor there is, or its clock is at most f. -/
theorem clockDiv_le_iff {sys f d : Nat} (hf : 0 < f) : clockDiv sys f ≤ d ↔ 4095 ≤ d ∨ sys ≤ 2 * (d + 1) * f := by
  have hceil : (sys + (2 * f - 1)) / (2 * f) ≤ d + 1 ↔ sys ≤ 2 * f * (d + 1) := by
    rw [← ceilDiv_le_iff_le_mul (by omega), Nat.ceilDiv_eq_add_pred_div, Nat.add_sub_assoc (by omega)]
  rw [clockDiv, min_le_iff, Nat.sub_le_iff_le_add, hceil, Nat.mul_right_comm]
  rfl

/-! ### The word modifiers -/

theorem getLsbD_zeroWidth (l : RegLayout) (v : Word) (j : Nat) : (zeroWidth l v).getLsbD j =
    if l.shiftLen ≤ j ∧ j < l.shiftLen + 6 then false else if j = l.clearFifo then false else v.getLsbD j := by
  have hone : l.clearFifo ≤ j ∧ j < l.clearFifo + 1 ↔ j = l.clearFifo := by omega
  simp only [zeroWidth, getLsbD_clearField, ← Bool.decide_and, hone]
  by_cases hlen : l.shiftLen ≤ j ∧ j < l.shiftLen + 6
  · simp [hlen]
  · by_cases hclear : j = l.clearFifo <;> simp [hlen, hclear]

theorem getLsbD_fifoReset (l : RegLayout) (v : Word) (hj : j < 32) :
    (fifoReset l v).getLsbD j = if j = l.clearFifo then true else v.getLsbD j := by
  rw [fifoReset, getLsbD_setBit]
  by_cases hclear : j = l.clearFifo
  · simp [hclear, hclear ▸ hj]
  · simp [hclear, Ne.symm hclear]

/-! ### The fields of a compiled word -/

theorem testBit_pmodeShiftLen (pm : PMode) (hj : 6 ≤ j) : (pmodeShiftLen pm).testBit j = false := by
  have hlt : pmodeShiftLen pm < 2 ^ 6 := by cases pm <;> decide
  exact Nat.testBit_lt_two_pow (hlt.trans_le (Nat.pow_le_pow_right (by decide) hj))

theorem pmodeVarWidth_eq (pm : PMode) : pmodeVarWidth pm = (decide (pm = .variable3) || decide (pm = .variable2Shifted)) := by
  cases pm <;> rfl

/-- CSPAT(l) has its only 0 at the line l. -/
theorem testBit_csPattern {line : Nat} (hline : line < 3) (i : Nat) :
    (csPattern line).testBit i = (decide (i < 3) && decide (i ≠ line)) := by
  rw [csPattern, Nat.testBit_xor, show 0b111 = 2 ^ 3 - 1 from rfl, Nat.testBit_two_pow_sub_one, Nat.one_shiftLeft,
    Nat.testBit_two_pow]
  by_cases hi : i = line
  · simp [hi, hline]
  · simp [hi, Ne.symm hi]

/-- Between SHIFT_LEN and the chip-select pattern lie the flags, with zeros between them. -/
theorem getLsbD_img0_ri_flags (hl : p.layout = RegLayout.ri) (tc : TargetConfig) (pm : PMode) (hlow : 6 ≤ j) (hj : j < 17) :
    (img0 p tc pm).getLsbD j = (decide (j = 6) || (decide (j = 7) && (dataModeBits p tc.mode).invertClk) ||
      (decide (j = 8) && (dataModeBits p tc.mode).outRising) || (decide (j = 10) && (dataModeBits p tc.mode).inRising) ||
      decide (j = 11) || (decide (j = 14) && pmodeVarWidth pm)) := by
  rw [getLsbD_img0_ri hl tc pm hj, testBit_pmodeShiftLen pm hlow, Bool.false_or]

/-- Above the flags lie the chip-select pattern and the divisor. -/
theorem getLsbD_img0_ri_high (hl : p.layout = RegLayout.ri) (tc : TargetConfig) (pm : PMode) (hlow : 17 ≤ j) (hj : j < 32) :
    (img0 p tc pm).getLsbD j = ((csPattern tc.csLine).testBit (j - 17) ||
      (decide (20 ≤ j) && (clockDiv p.sysClkHz tc.clkHz.toNat).testBit (j - 20))) := by
  have hflag : ∀ (b : Bool) (lo : Nat), lo < 17 → (flag b <<< lo).testBit j = false := fun b lo hlo => by
    have hne : j - lo ≠ 0 := by omega
    simp [Nat.testBit_shiftLeft, testBit_flag, hne]
  have hshift := testBit_pmodeShiftLen pm (hlow.trans' (by decide : 6 ≤ 17))
  rw [img0, hl, pack0, BitVec.getLsbD_ofNat]
  simp [Nat.testBit_or, hflag, hshift, RegLayout.ri, compile, compileShape, hlow, hj, Nat.testBit_shiftLeft]

/-- The two reserved fields among the flags are 0. -/
theorem getField_img0_ri_reserved (hl : p.layout = RegLayout.ri) (tc : TargetConfig) (pm : PMode) {lo : Nat}
    (hlo : lo = 12 ∨ lo = 15) : getField (img0 p tc pm) lo 2 = 0 := by
  refine getField_eq_of_bits (by decide) fun i hi => ?_
  have hbit : lo + i = 12 ∨ lo + i = 13 ∨ lo + i = 15 ∨ lo + i = 16 := by omega
  rw [getLsbD_img0_ri_flags hl tc pm (by omega) (by omega)]
  obtain h | h | h | h := hbit <;> simp [h]

theorem testBit_cs_img0_ri (hl : p.layout = RegLayout.ri) (hline : tc.csLine < 3) (pm : PMode) {i : Nat} (hi : i < 3) :
    (getField (img0 p tc pm) 17 3).testBit i = decide (i ≠ tc.csLine) := by
  have hbelow : ¬ 20 ≤ 17 + i := by omega
  rw [testBit_getField, getLsbD_img0_ri_high hl tc pm (by omega) (by omega)]
  simp [hi, hbelow, testBit_csPattern hline]

theorem speed_img0_ri (hl : p.layout = RegLayout.ri) (hline : tc.csLine < 3) (pm : PMode) :
    getField (img0 p tc pm) 20 12 = clockDiv p.sysClkHz tc.clkHz.toNat := by
  refine getField_eq_of_bits (Nat.lt_succ_of_le (min_le_left ..)) fun i hi => ?_
  have habove : ¬ 20 + i - 17 < 3 := by omega
  rw [getLsbD_img0_ri_high hl tc pm (by omega) (by omega)]
  simp [habove, testBit_csPattern hline]

theorem ieOff_ri (hl : p.layout = RegLayout.ri) : ieOff p = 0x00000002 := by
  rw [ieOff, hl]
  rfl

theorem ieOn_ri (hl : p.layout = RegLayout.ri) : ieOn p = 0x00000042 := by
  rw [ieOn, ieOff_ri hl, hl]
  rfl

/-! ### CONNECT -/

theorem slotInUse_iff {t : Nat} {b : Block} :
    slotInUse t b = true ↔ (b.xstate ≠ .invalid ∧ b.tgt = t) ∨ (b.locked = true ∧ b.lockTgt = t) := by
  simp [slotInUse]

/-- Past the gates CONNECT completes inline, in order: the slot in use, the failing check, the new configuration. -/
theorem execConnect_of_gates {t : Nat} {h : Handle} {s : State} (d : Descriptor) (hf : s.block.fault = none) (h0 : h ≠ 0)
    (ht : t < s.params.numTargetSlots) : execConnect t h d s = .next
      (if slotInUse t s.block then completeInline h .invalidDeviceState s
       else (connectCheck s.params d).elim (completeInline h .success (setTarget t (targetOf d) s)) (completeInline h · s)) := by
  rw [execConnect, issueGate_pass (needsIdle := false) _ hf h0 nofun, targetGate_pass _ ht]
  split
  · rfl
  · cases connectCheck s.params d <;> rfl

end Sys2Proof.Machine
end

section
/-! PROOFS. The statements of the family 41_control_compiler.md. -/

namespace Sys2Proof.Machine

/-- Settles O12: past the gates the answer is `execConnect_of_gates`, and its list of checks is the statement's chain. -/
theorem connectInstallsTarget : Obligations.ConnectInstallsTarget := by
  intro t h d s hf h0 ht completed refusal
  have hexec : exec (.connect t h d) s = execConnect t h d s := rfl
  have hcheck : connectCheck s.params d = refusal := by
    simp only [connectCheck, connectChecks, firstFailing, Bool.or_eq_true, decide_eq_true_eq]
    rfl
  simp only [hexec, execConnect_of_gates d hf h0 ht, hcheck, slotInUse_iff]
  congr 1
  split
  · rfl
  · cases refusal <;> rfl

/-- Settles O17: SHIFT_LEN is `img0_ri`, the flags are the bits `getLsbD_img0_ri_flags` gives, and each other field has its lemma. -/
theorem compiledWordFields : Obligations.CompiledWordFields := by
  intro p tc pm hl hline w
  have hlen : getField w 0 6 = pmodeShiftLen pm := by simpa [shiftLenOf, hl, RegLayout.ri] using (img0_ri hl tc pm).2.2
  have hflag {j : Nat} (hlow : 6 ≤ j) (hj : j < 17) := getLsbD_img0_ri_flags hl tc pm hlow hj
  refine ⟨hlen.trans (by cases pm <;> rfl), ?msbOut, ?invertClk, ?outRising, ?clearFifo, ?inRising, ?enable,
    getField_img0_ri_reserved hl tc pm (.inl rfl), ?varWidth, getField_img0_ri_reserved hl tc pm (.inr rfl),
    fun _ => testBit_cs_img0_ri hl hline pm, speed_img0_ri hl hline pm, ieOff_ri hl, ieOn_ri hl⟩
  case varWidth => exact (hflag (by decide) (by decide)).trans (by simp [pmodeVarWidth_eq])
  all_goals exact (hflag (by decide) (by decide)).trans (by simp)

/-- Settles O18: each clause is one direction of `clockDiv_le_iff`. -/
theorem clockDivisorIsLeast : Obligations.ClockDivisorIsLeast := by
  intro sys f hf
  refine ⟨(clockDiv_le_iff hf).mpr (.inl le_rfl), fun hlt => ?_, fun d hd => ?_⟩
  · exact ((clockDiv_le_iff hf).mp le_rfl).resolve_left (Nat.not_le_of_lt hlt)
  · exact Nat.lt_of_not_le fun hle => Nat.not_le_of_lt hd ((clockDiv_le_iff hf).mpr (.inr hle))

/-- Settles O19: ZeroWidth and FifoReset bit by bit; that the layout is legal is not needed. -/
theorem wordModifiersKeepOtherBits : Obligations.WordModifiersKeepOtherBits := fun l v j _ hj =>
  ⟨getLsbD_zeroWidth l v j, getLsbD_fifoReset l v hj⟩

end Sys2Proof.Machine
end

section
/-! PROOFS. The chip-select sequencer: the events of the busy poll, of asserting the line and of releasing it, none of them a
completion, and LOCK and UNLOCK past their gates (42_chip_select.md R190 to R201). -/

namespace Sys2Proof.Machine

/-! ### The busy poll -/

/-- The events of busy reads of STAT, a stall after each (42_chip_select.md R191). -/
abbrev busyReads (vs : List Word) : List Event := vs.flatMap fun v => [.regRead .stat v, .stall 3]

/-- A poll of at most n reads ends with the first one that is not busy, or after n busy ones. -/
theorem pollLoop_bounded : ∀ (n : Nat) (s : State), ∃ vs : List Word, (∀ v ∈ vs, busyOf s.params.layout v = true) ∧
    (((pollLoop n s).1 = .done ∧ vs.length < n ∧ ∃ v, busyOf s.params.layout v = false ∧
        (pollLoop n s).2.trace = s.trace ++ busyReads vs ++ [.regRead .stat v]) ∨
     ((pollLoop n s).1 = .exhausted ∧ vs.length = n ∧ (pollLoop n s).2.trace = s.trace ++ busyReads vs))
  | 0, s => ⟨[], by simp, .inr ⟨rfl, rfl, by simp [pollLoop]⟩⟩
  | n + 1, s => by
    unfold pollLoop
    split
    next hbusy =>
      obtain ⟨vs, hvs, hend⟩ := pollLoop_bounded n (stall 3 (regRead .stat s))
      simp only [stall_params, regRead_params, stall_trace, regRead_trace] at hvs hend
      refine ⟨regValue .stat s :: vs, List.forall_mem_cons.mpr ⟨hbusy, hvs⟩, ?_⟩
      obtain ⟨hdone, hlt, v, hv, htr⟩ | ⟨hex, hlen, htr⟩ := hend
      · exact .inl ⟨hdone, by simpa using hlt, v, hv, by simp [htr]⟩
      · exact .inr ⟨hex, by simpa using hlen, by simp [htr]⟩
    next hidle =>
      exact ⟨[], by simp, .inl ⟨rfl, by simp, regValue .stat s, by simpa using hidle, by simp⟩⟩

theorem pollBusy_trace (s : State) : ∃ poll, PollTrace s.params poll ∧ (pollBusy s).2.trace = s.trace ++ poll := by
  obtain ⟨vs, hvs, ⟨-, hlt, v, hv, htr⟩ | ⟨-, hlen, htr⟩⟩ := pollLoop_bounded s.params.pollRetries s
  · exact ⟨_, ⟨vs, hvs, .inl ⟨hlt, v, hv, rfl⟩⟩, htr.trans (List.append_assoc ..)⟩
  · exact ⟨_, ⟨vs, hvs, .inr ⟨hlen, rfl⟩⟩, htr⟩

/-! ### The line -/

theorem assertCs_trace (img : Word) (s : State) :
    ∃ es, AssertTrace s.params img es ∧ (assertCs img s).trace = s.trace ++ es := by
  have hbegin : (assertCsBegin img s).trace = s.trace ++
      [.regWrite .cntl1 (ieOff s.params), .regWrite .cntl0 (zeroWidth s.params.layout img), .regWrite .fifoHold 0] := by
    simp [assertCsBegin]
  obtain ⟨poll, hpoll, htr⟩ := pollBusy_trace (assertCsBegin img s)
  exact ⟨_, ⟨poll, regValue .fifoIo (shape img (pollBusy (assertCsBegin img s)).2), hpoll, rfl⟩, by
    simp [assertCs, assertCsComplete, htr, hbegin]⟩

theorem deassertBegin_trace (s : State) : (deassertBegin s).trace =
    s.trace ++ [.regWrite .cntl0 (zeroWidth s.params.layout s.block.shadow0), .regWrite .fifoIo 0] := by simp [deassertBegin]

theorem deassertComplete_trace (s : State) : ∃ poll, PollTrace s.params poll ∧ (deassertComplete s).trace =
    s.trace ++ poll ++ [.regWrite .cntl0 (fifoReset s.params.layout s.block.shadow0)] := by
  obtain ⟨poll, hpoll, htr⟩ := pollBusy_trace s
  exact ⟨poll, hpoll, by simp [deassertComplete, htr]⟩

/-! ### No completion -/

/-- The event is no completion record. -/
abbrev isQuiet (e : Event) : Bool := !isCompletion e

theorem PollTrace.all_isQuiet {p : Params} {es : List Event} (h : PollTrace p es) : es.all isQuiet = true := by
  have hbusy (vs : List Word) : (busyReads vs).all isQuiet = true := by simp [isCompletion]
  obtain ⟨vs, -, ⟨-, v, -, rfl⟩ | ⟨-, rfl⟩⟩ := h
  · rw [List.all_append, hbusy]
    rfl
  · exact hbusy vs

theorem AssertTrace.all_isQuiet {p : Params} {img : Word} {es : List Event} (h : AssertTrace p img es) :
    es.all isQuiet = true := by
  obtain ⟨poll, v, hpoll, rfl⟩ := h
  rw [List.all_append, List.all_append, hpoll.all_isQuiet]
  rfl

/-- Before its completion LOCK completes nothing. -/
theorem lockTarget_emits (t : Nat) (h : Handle) (tc : TargetConfig) (s : State) :
    ∃ u, Emits isQuiet s u ∧ lockTarget t h tc s = completeInline h .success u := by
  obtain ⟨es, hes, htr⟩ := assertCs_trace (img0 s.params tc (selectMode s.params tc.mode 1)) s
  have hrearm := Emits.trans ⟨es, htr, hes.all_isQuiet⟩ (.one (fifoRearm_trace _) rfl)
  exact ⟨setLock t _, hrearm.trans (.of_eq rfl), rfl⟩

/-- Before its completion UNLOCK completes nothing. -/
theorem unlockTarget_emits (h : Handle) (s : State) :
    ∃ u, Emits isQuiet s u ∧ unlockTarget h s = completeInline h .success u := by
  obtain ⟨poll, hpoll, htr⟩ := deassertComplete_trace (deassertBegin s)
  have hend : Emits isQuiet (deassertBegin s) (deassertComplete (deassertBegin s)) :=
    ⟨_, htr.trans (List.append_assoc ..), by rw [List.all_append, hpoll.all_isQuiet]; rfl⟩
  have hrelease := Emits.trans ⟨_, deassertBegin_trace s, rfl⟩ hend
  exact ⟨clearLock (deassertCs s), hrelease.trans (.of_eq rfl), rfl⟩

/-! ### LOCK and UNLOCK past their gates -/

theorem lockTarget_block (t : Nat) (h : Handle) (tc : TargetConfig) (s : State) : (lockTarget t h tc s).block =
    { s.block with
      shadow0 := fifoReset s.params.layout (img0 s.params tc (selectMode s.params tc.mode 1)), shadow1 := ieOff s.params,
      cs := .asserted, locked := true, lockTgt := t } := by simp [lockTarget]

theorem unlockTarget_block (h : Handle) (s : State) : (unlockTarget h s).block =
    { s.block with
      shadow0 := fifoReset s.params.layout (zeroWidth s.params.layout s.block.shadow0), cs := .released, locked := false } := by
  simp [unlockTarget, deassertCs]

section Gates

variable {t : Nat} {h : Handle} {s : State} (hs : CanIssue s) (h0 : h ≠ 0) (ht : t < s.params.numTargetSlots)

include hs h0 ht

/-- Past the gates LOCK answers, in order: the empty slot, the held lock, the assertion. -/
theorem exec_lock_of_canIssue : exec (.lock t h) s = .next
    ((targetAt s.block t).elim (completeInline h .invalidParameter s) fun tc =>
      if s.block.locked then completeInline h .invalidDeviceState s else lockTarget t h tc s) := by
  obtain ⟨hf, hidle⟩ := hs
  rw [exec, execLock, issueGate_pass _ hf h0 fun _ => hidle, targetGate_pass _ ht]
  cases targetAt s.block t with
  | none => rfl
  | some tc => exact (apply_ite Host.Outcome.next ..).symm

/-- Past the gates UNLOCK answers, in order: nothing held, another target held, the release. -/
theorem exec_unlock_of_canIssue : exec (.unlock t h) s = .next
    (if s.block.locked = false then completeInline h .success s
     else if s.block.lockTgt ≠ t then completeInline h .invalidDeviceState s else unlockTarget h s) := by
  obtain ⟨hf, hidle⟩ := hs
  rw [exec, execUnlock, issueGate_pass _ hf h0 fun _ => hidle, targetGate_pass _ ht, apply_ite Host.Outcome.next,
    apply_ite Host.Outcome.next]

theorem exec_lock_of_free {tc : TargetConfig} (htc : targetAt s.block t = some tc) (hl : s.block.locked = false) :
    exec (.lock t h) s = .next (lockTarget t h tc s) := by
  simp [exec_lock_of_canIssue hs h0 ht, htc, hl]

theorem exec_unlock_of_held (hl : s.block.locked = true) (hsame : s.block.lockTgt = t) :
    exec (.unlock t h) s = .next (unlockTarget h s) := by
  simp [exec_unlock_of_canIssue hs h0 ht, hl, hsame]

end Gates

end Sys2Proof.Machine
end

section
/-! PROOFS. The statements of the family 42_chip_select.md. -/

namespace Sys2Proof.Machine

/-- Settles O13: the poll is `pollLoop` with the bound of the parameters. -/
theorem pollIsBounded : Obligations.PollIsBounded := fun s =>
  ⟨pollBusy_block s, pollBusy_mem s, pollBusy_params s, pollBusy_port s, pollLoop_bounded s.params.pollRetries s⟩

/-- Settles O14: the cases are those of `exec_lock_of_canIssue`, the events of the assertion those of `assertCs_trace`. -/
theorem lockAssertsLine : Obligations.LockAssertsLine := by
  intro t h s hs h0 ht
  have hexec := exec_lock_of_canIssue hs h0 ht
  refine ⟨fun hnone => ?empty, fun tc htc => ⟨fun hl => ?held, fun hl => ?free⟩⟩
  case empty => rw [hexec, hnone]; rfl
  case held => rw [hexec, htc, Option.elim_some, if_pos hl]; rfl
  case free =>
    intro img
    obtain ⟨es, hes, htr⟩ := assertCs_trace img s
    refine ⟨lockTarget t h tc s, es, exec_lock_of_free hs h0 ht htc hl, lockTarget_block t h tc s, ?_, ?_, ?_, hes, ?_⟩
    all_goals simp [lockTarget, img, htr]

/-- Settles O15: the cases are those of `exec_unlock_of_canIssue`, the events of the release those of its two halves. -/
theorem unlockReleasesLine : Obligations.UnlockReleasesLine := by
  intro t h s hs h0 ht
  have hexec := exec_unlock_of_canIssue hs h0 ht
  refine ⟨fun hl => ?free, fun hl hother => ?other, fun hl hsame => ?held⟩
  case free => rw [hexec, if_pos hl]; rfl
  case other => rw [hexec, if_neg (by simp [hl]), if_pos hother]; rfl
  case held =>
    intro w
    obtain ⟨poll, hpoll, htr⟩ := deassertComplete_trace (deassertBegin s)
    refine ⟨unlockTarget h s, poll, exec_unlock_of_held hs h0 ht hl hsame, unlockTarget_block h s, ?_, ?_, ?_,
      by simpa using hpoll, ?_⟩
    all_goals simp [unlockTarget, deassertCs, w, htr, deassertBegin_trace]

/-- Settles O16: the block LOCK leaves is idle and locked for the target, so UNLOCK finds it fit and releases the line. -/
theorem lockThenUnlock : Obligations.LockThenUnlock := by
  intro t h h' tc s hs h0 h0' ht htc hl
  have hlock := exec_lock_of_free hs h0 ht htc hl
  have hblock := lockTarget_block t h tc s
  have hparams : (lockTarget t h tc s).params = s.params := by simp [lockTarget]
  obtain ⟨u, ⟨fs, hfs, hfsQuiet⟩, hu⟩ := lockTarget_emits t h tc s
  generalize lockTarget t h tc s = a at *
  have ha : CanIssue a := by rw [CanIssue, hblock]; exact hs
  have hunlock := exec_unlock_of_held ha h0' (hparams ▸ ht) (by rw [hblock]) (by rw [hblock])
  have hblock' := unlockTarget_block h' a
  obtain ⟨v, ⟨es, hes, hesQuiet⟩, hv⟩ := unlockTarget_emits h' a
  refine ⟨a, unlockTarget h' a, fs, es, hlock, hunlock, ?fault, ?locked, ?line, ?events, hfsQuiet, ?events', hesQuiet⟩
  case fault => rw [hblock']; exact ha.1
  case locked | line => rw [hblock']
  case events => rw [hu, completeInline_trace, hfs]
  case events' => rw [hv, completeInline_trace, hes]

end Sys2Proof.Machine
end

section
/-! PROOFS. The transfer commands past their gates: the events of an issue, in their order, and the block it leaves
(43_transfer_state_machine.md R222 to R232). -/

namespace Sys2Proof.Machine

variable {s : State} {t : Nat} {h : Handle} {x : Transfer} {tc : TargetConfig}

/-! ### Mapping the chains -/

/-- Chains whose answers are all OK leave one event each, and the next chain is asked after them. -/
theorem mapChains_append : ∀ {before : List Chain} {s : State}, (mapChains before s).1 = true →
    (mapChains before s).2.trace = s.trace ++ before.map (fun c => .mapChain c true) ∧
    ∀ cs, mapChains (before ++ cs) s = mapChains cs (mapChains before s).2
  | [], s, _ => ⟨by simp [mapChains], fun _ => rfl⟩
  | c :: before, s, h => by
    simp only [mapChains, List.cons_append] at h ⊢
    split at h
    · rename_i hc
      obtain ⟨htr, happ⟩ := mapChains_append h
      exact ⟨by simp [hc, htr], fun cs => by simp [hc, happ]⟩
    · cases h

/-! ### The events of an issue -/

theorem reshapeOrAssert_trace (img : Word) (s : State) :
    ∃ es, ShapeTrace s.params s.block.cs img es ∧ (reshapeOrAssert img s).trace = s.trace ++ es := by
  unfold reshapeOrAssert
  split
  next hcs => exact ⟨_, .inl ⟨hcs, rfl⟩, shape_trace img s⟩
  next hcs =>
    obtain ⟨es, hes, htr⟩ := assertCs_trace img s
    exact ⟨es, .inr ⟨hcs, hes⟩, htr⟩

/-- The shape word of a transfer: the compiled word of its target in the mode of its first phase (43_transfer_state_machine.md
R226). -/
abbrev issueImage (p : Params) (tc : TargetConfig) (x : Transfer) : Word := img0 p tc (selectMode p tc.mode x.firstLength)

/-- Before its first chunk a transfer has mapped its chains and shaped the core. -/
theorem issued_trace (hm : (mapChains x.chains s).1 = true) :
    ∃ es, ShapeTrace s.params s.block.cs (issueImage s.params tc x) es ∧
      (issued t h x tc s).trace = s.trace ++ x.chains.map (fun c => .mapChain c true) ++ es := by
  obtain ⟨hp, hb, -⟩ := mapChains_spec x.chains s
  obtain ⟨es, hes, htr⟩ := reshapeOrAssert_trace (issueImage s.params tc x)
    (onBlock (requestRecord s.params h t tc x) (mapChains x.chains s).2)
  refine ⟨es, by simpa [hp, hb, requestRecord] using hes, ?_⟩
  rw [issued, setX_trace, issueStart, hp, htr, onBlock_trace, (mapChains_append hm).1]

theorem issued_port : (issued t h x tc s).port = s.port := by
  rw [issued, setX_port, (issueStart_spec h t tc x _).2.2.2, (mapChains_spec _ s).2.2.2.1]

/-- The block a transfer leaves, but for its first chunk (43_transfer_state_machine.md R226, R228). -/
def startedBlock (p : Params) (h : Handle) (t : Nat) (tc : TargetConfig) (x : Transfer) (b : Block) : Block :=
  { requestRecord p h t tc x b with
    xstate := x.firstState, cancelable := true, shadow0 := issueImage p tc x, shadow1 := ieOn p, cs := .asserted }

/-- IssueEnd of what an issue and its first chunk leave. -/
theorem issueEnd_block {v : State} {cur : Cursor} {n : Nat} {ks : List Nat} (hp : v.params = s.params)
    (hv : v.block = { (issued t h x tc s).block with wr := cur, wrDone := n, inflight := ks }) :
    (issueEnd v).block = { startedBlock s.params h t tc x s.block with wr := cur, wrDone := n, inflight := ks } := by
  obtain ⟨hpar, hb, -⟩ := mapChains_spec x.chains s
  simp [issueEnd, hv, hp, issued, issueStart_spec, hpar, hb, startedBlock]

theorem issueEnd_trace (s : State) : (issueEnd s).trace = s.trace ++ [.regWrite .cntl1 (ieOn s.params)] := ien_trace _ s

/-! ### Chunks -/

/-- From s to u the block becomes, and the events appended are, what P says. -/
def Performs (P : Block → List Event → Prop) (s u : State) : Prop := ∃ es, P u.block es ∧ u.trace = s.trace ++ es

/-- A write pump whose cursor is at its counts completes. -/
theorem pumpWrite_performs (hat : s.block.wr.At s.params.addrSpace s.block.wrDone s.block.wrTotal) :
    ∃ u, pumpWrite s = .next u ∧ Performs (PumpedWrite s.params s.mem s.block) s u := by
  obtain ⟨as, cur, hw, -⟩ := walk_of_at (n := writeChunk s.block) hat (Nat.min_le_left _ _)
  obtain ⟨v, hv, htr⟩ := codecWriteGroups_of_walk (s := s) (ks := groups s.block.pmode (writeChunk s.block)) (pm := s.block.pmode)
    (by rw [groups_sum]; exact hw)
  obtain ⟨-, hb, -⟩ := codecWriteGroups_spec hv
  exact ⟨_, andThen_eq_next.mpr ⟨_, hv, rfl⟩, _, ⟨as, cur, hw, by rw [onBlock_block, hb], rfl⟩, htr⟩

theorem pumpRead_trace (s : State) : (pumpRead s).trace =
    s.trace ++ placeholderEvents s.params.wordLayout s.block.pmode (pumpedRead s.block).inflight := placeholderGroups_trace _ s

theorem pumpRead_performs (s : State) : Performs (PumpedRead s.params s.block) s (pumpRead s) :=
  ⟨_, ⟨pumpRead_block s, rfl⟩, pumpRead_trace s⟩

theorem firstChunk_port {v : State} (h : firstChunk x s = .next v) : v.port = s.port := by
  cases x with
  | read r =>
    cases h
    exact pumpRead_port s
  | write | sequence | fullDuplex => exact (pumpWrite_spec h).2.2.1

/-! ### Transfers that pass their checks -/

/-- What an issue is asked to find: a block and operands that pass every check of R221, the mapping among them. -/
structure Passes (t : Nat) (h : Handle) (x : Transfer) (tc : TargetConfig) (s : State) : Prop where
  idle : CanIssue s
  handle : h ≠ 0
  index : t < s.params.numTargetSlots
  target : targetAt s.block t = some tc
  checks : ∀ c ∈ issueChecks t x s.block, c.1 = false
  mapped : (mapChains x.chains s).1 = true

/-- A lock on the target, a well-formed transfer, and chains of 1 to 2^32 - 1 bytes pass checks 2 to 7 of R221. -/
theorem Passes.of_chains (hs : CanIssue s) (h0 : h ≠ 0) (ht : t < s.params.numTargetSlots) (htc : targetAt s.block t = some tc)
    (hl : s.block.locked = true → s.block.lockTgt = t) (hform : x.malformed = false) (hdelay : x.delayed = false)
    (hequal : x.unequal = false) (hlen : ∀ c ∈ x.chains, 1 ≤ total c ∧ total c ≤ Config.lenMax)
    (hm : (mapChains x.chains s).1 = true) : Passes t h x tc s := by
  refine ⟨hs, h0, ht, htc, ?_, hm⟩
  have hlock : (s.block.locked && decide (s.block.lockTgt ≠ t)) = false := by simpa using hl
  have hshort : ∀ c ∈ x.chains, total c ≤ Config.lenMax := fun c hc => (hlen c hc).2
  have hfull : ∀ c ∈ x.chains, total c ≠ 0 := fun c hc => Nat.ne_of_gt (hlen c hc).1
  simpa [issueChecks, hlock, hform, hdelay, hequal] using ⟨hl, hshort, hfull⟩

/-- A transfer that starts, from s to u: its frame, its block and its events, where the first chunk leaves the write cursor and count
and the words in flight as given, and `shaping` are the events that shape the core (43_transfer_state_machine.md R222 to R228). -/
def Starts (t : Nat) (h : Handle) (x : Transfer) (tc : TargetConfig) (s : State) (wr : Cursor) (wrDone : Nat) (inflight : List Nat)
    (chunk : List Event) (u : State) (shaping : List Event) : Prop :=
  exec (x.command t h) s = .next u ∧
  u.block = { startedBlock s.params h t tc x s.block with wr := wr, wrDone := wrDone, inflight := inflight } ∧
  u.mem = s.mem ∧ u.params = s.params ∧ u.port = s.port ∧ ShapeTrace s.params s.block.cs (issueImage s.params tc x) shaping ∧
  u.trace = s.trace ++ x.chains.map (fun c => .mapChain c true) ++ shaping ++ chunk ++ [.regWrite .cntl1 (ieOn s.params)]

/-- A transfer that passes its checks starts, with the first chunk it answers. -/
theorem Passes.starts (hp : Passes t h x tc s) {v : State} {cur : Cursor} {n : Nat} {ks : List Nat} {chunk : List Event}
    (hv : firstChunk x (issued t h x tc s) = .next v)
    (hb : v.block = { (issued t h x tc s).block with wr := cur, wrDone := n, inflight := ks })
    (htr : v.trace = (issued t h x tc s).trace ++ chunk) : ∃ u es, Starts t h x tc s cur n ks chunk u es := by
  obtain ⟨hpar, hmem, -⟩ := firstChunk_spec hv
  rw [issued_params] at hpar
  obtain ⟨es, hes, hshape⟩ := issued_trace (t := t) (h := h) (tc := tc) hp.mapped
  refine ⟨issueEnd v, es, ?_, issueEnd_block hpar hb, hmem.trans (issued_mem ..), hpar, (firstChunk_port hv).trans issued_port, hes,
    ?_⟩
  · rw [transfer_of_checks hp.idle hp.handle hp.index hp.target hp.checks hp.mapped, hv, andThen_next]
  · rw [issueEnd_trace, hpar, htr, hshape]

/-- One that sends bytes first pushes the words of its first chunk (43_transfer_state_machine.md R222, R224, R225). -/
theorem Passes.starts_write (hp : Passes t h x tc s) (hx : firstChunk x = pumpWrite) :
    let pm := selectMode s.params tc.mode x.firstLength
    let n := min (total x.wchain) (cap pm)
    ∃ u as cur es, Cursor.walk s.params.addrSpace n (Cursor.fresh x.wchain) = .next (as, cur) ∧
      Starts t h x tc s cur n (groups pm n) (pushEvents s.params.wordLayout pm s.mem (groups pm n) as) u es := by
  intro pm n
  obtain ⟨v0, v1, hb⟩ := issued_block t h x tc s
  have hat := issued_wrAt (h := h) (t := t) (tc := tc) (issueChecks_pass hp.checks).2.1 hp.mapped
  obtain ⟨v, hv, _, ⟨as, cur, hw, hvb, rfl⟩, hvt⟩ := pumpWrite_performs ((issued_params t h x tc s).symm ▸ hat)
  rw [hb, issued_params] at hw
  rw [hb, issued_params, issued_mem] at hvt
  obtain ⟨u, es, hu⟩ := hp.starts (hx ▸ hv) (cur := cur) (n := n) (ks := groups pm n)
    (hvb.trans (by rw [hb]; simp [requestRecord, n, pm])) hvt
  exact ⟨u, as, cur, es, hw, hu⟩

/-- A READ pushes one chunk of placeholders (43_transfer_state_machine.md R223, R232). -/
theorem Passes.starts_read {r : Chain} (hp : Passes t h (.read r) tc s) :
    let pm := selectMode s.params tc.mode (total r)
    let n := min (total r) (cap pm)
    ∃ u es, Starts t h (.read r) tc s (Cursor.fresh []) 0 (groups pm n) (placeholderEvents s.params.wordLayout pm (groups pm n)) u
      es := by
  intro pm n
  obtain ⟨v0, v1, hb⟩ := issued_block t h (.read r) tc s
  refine hp.starts rfl ?_ ?_
  · rw [pumpRead_block, hb]
    rfl
  · rw [pumpRead_trace, issued_params, hb]
    rfl

end Sys2Proof.Machine
end

section
/-! PROOFS. A transfer that fails a check (43_transfer_state_machine.md R221): the model's list of checks gives the codes of the
table, and a chain whose mapping fails ends the asking. -/

namespace Sys2Proof.Machine

variable {s : State} {t : Nat} {h : Handle} {x : Transfer}

/-- A phase list is one W phase and then one R phase, or has no chains to give. -/
theorem sequenceParts_cases (ps : List Phase) :
    (wellShaped ps = false ∧ sequenceParts ps = none) ∨ ∃ w r d e, ps = [⟨.w, w, d⟩, ⟨.r, r, e⟩] := by
  match ps with
  | [⟨.w, w, d⟩, ⟨.r, r, e⟩] => exact .inr ⟨w, r, d, e, rfl⟩
  | [⟨.w, _, _⟩, ⟨.w, _, _⟩] | [⟨.r, _, _⟩, ⟨_, _, _⟩] => exact .inl ⟨rfl, rfl⟩
  | [] | [⟨.w, _, _⟩] | [⟨.r, _, _⟩] => exact .inl ⟨rfl, rfl⟩
  | ⟨.w, _, _⟩ :: ⟨.w, _, _⟩ :: _ :: _ | ⟨.w, _, _⟩ :: ⟨.r, _, _⟩ :: _ :: _ | ⟨.r, _, _⟩ :: _ :: _ :: _ =>
    exact .inl ⟨rfl, rfl⟩

/-- Checks 1 to 7 as the table words them are the target lookup and the first of the model's list that fails. -/
theorem issueRefusal_eq (b : Block) (t : Nat) (x : Transfer) :
    issueRefusal b t x = (targetAt b t).elim (some .invalidParameter) fun _ => firstFailing (issueChecks t x b) := by
  unfold issueRefusal
  cases targetAt b t with
  | none => rfl
  | some tc =>
    cases x with
    | write c | read c =>
      simp [issueChecks, firstFailing, Transfer.malformed, Transfer.delayed, Transfer.chains, Transfer.unequal,
        issueRefusal.lengthRefusal]
    | fullDuplex w r =>
      simp [issueChecks, firstFailing, Transfer.malformed, Transfer.delayed, Transfer.chains, Transfer.unequal]
    | sequence ps =>
      obtain ⟨hshape, hparts⟩ | ⟨w, r, d, e, rfl⟩ := sequenceParts_cases ps
      · simp [issueChecks, firstFailing, Transfer.malformed, hshape, hparts]
      · simp [issueChecks, firstFailing, Transfer.malformed, Transfer.delayed, Transfer.chains, Transfer.unequal, sequenceParts,
          wellShaped]

/-- A transfer that no check of 1 to 7 refuses asks for its chains in their order. -/
theorem asked_eq_chains {b : Block} (h : issueRefusal b t x = none) : x.asked = x.chains := by
  cases x with
  | write | read | fullDuplex => rfl
  | sequence ps =>
    obtain ⟨hshape, hparts⟩ | ⟨w, r, d, e, rfl⟩ := sequenceParts_cases ps
    · rw [issueRefusal_eq] at h
      cases htc : targetAt b t with
      | none => simp [htc] at h
      | some tc =>
        have hc := firstFailing_none.mp (by simpa [htc] using h)
        have hform := (issueChecks_pass hc).2.1
        simp [Transfer.malformed, hparts] at hform
    · rfl

/-- Past the gates a transfer is CheckIssue. -/
theorem exec_transfer_of_canIssue (hs : CanIssue s) (h0 : h ≠ 0) (ht : t < s.params.numTargetSlots) :
    ∃ go, exec (x.command t h) s = checkIssue t h x s go := by
  obtain ⟨hf, hidle⟩ := hs
  obtain ⟨cmd, he⟩ := exec_transfer t h x s
  exact ⟨_, by rw [he, issueGate_pass _ hf h0 fun _ => hidle, targetGate_pass _ ht]⟩

/-- CheckIssue refuses with the code of the first check that fails, and otherwise maps the chains. -/
theorem checkIssue_eq (go : TargetConfig → State → Res State) :
    (∀ st, issueRefusal s.block t x = some st → checkIssue t h x s go = .next (completeInline h st s)) ∧
    (issueRefusal s.block t x = none → (mapChains x.chains s).1 = false →
      checkIssue t h x s go = .next (completeInline h .insufficientResources (mapChains x.chains s).2)) := by
  rw [issueRefusal_eq]
  unfold checkIssue
  cases targetAt s.block t with
  | none => simp
  | some tc => cases firstFailing (issueChecks t x s.block) <;> simp +contextual

/-- A chain that is not mapped ends the asking, with FAIL as the last event of the port. -/
theorem mapChains_fail {before after : List Chain} {c : Chain} (hok : (mapChains before s).1 = true)
    (hfail : mapAnswer c (mapChains before s).2 = false) :
    (mapChains (before ++ c :: after) s).1 = false ∧
    (mapChains (before ++ c :: after) s).2.trace = s.trace ++ before.map (fun c => .mapChain c true) ++ [.mapChain c false] := by
  obtain ⟨htr, happ⟩ := mapChains_append hok
  simp [happ, mapChains, hfail, htr]

end Sys2Proof.Machine
end

section
/-! PROOFS. The interrupt top half (43_transfer_state_machine.md R230 to R246): the events of a drain word by word, those of Advance,
and the IRQ step put together from them. -/

namespace Sys2Proof.Machine

variable {s u v w : State} {k : Nat}

/-! ### The branches of the step -/

theorem exec_irq_of_aside (hf : s.block.fault = none) (ha : standsAside s.block = true) : exec .irq s = .next (irqAside s) := by
  rw [exec, execIrq, unlessStuck_pass hf, if_pos ha]

theorem exec_irq_of_live (hf : s.block.fault = none) (ha : standsAside s.block = false) (hm : irqMine s = true) :
    exec .irq s = irqAdvance (regRead .irqstat s) := by
  rw [exec, execIrq, unlessStuck_pass hf, if_neg (Bool.not_eq_true _ ▸ ha), if_pos hm]

/-- An interrupt of another engine is declined, whatever the block does (43_transfer_state_machine.md R230). -/
theorem exec_irq_of_notMine (hf : s.block.fault = none) (hm : irqMine s = false) :
    exec .irq s = .next (claim false (regRead .irqstat s)) := by
  cases ha : standsAside s.block with
  | true => simp [exec_irq_of_aside hf ha, irqAside, hm]
  | false => simp [exec, execIrq, unlessStuck_pass hf, ha, hm]

theorem irqAdvance_of_part (hd : drain s = .next (.part, v)) : irqAdvance s = .next (claim true v) := by
  rw [irqAdvance, hd]
  rfl

theorem irqAdvance_of_full (hd : drain s = .next (.full, v)) (hw : advance v = .next w) :
    irqAdvance s = .next (claim true w) := by
  rw [irqAdvance, hd, andThen_next, hw]
  rfl

/-! ### Drain -/

/-- The events by which a popped word is stored: in a read phase, its bytes at the addresses `as`; otherwise it is dropped
(43_transfer_state_machine.md R231, R233). -/
def storeEvents (l : WordLayout) (pm : PMode) (stores : Bool) (k : Nat) (x : Word) (as : List Nat) : List Event :=
  if stores then (as.zip (unslot pm k (rxSlot l pm k x))).map (fun c => .memWrite c.1 c.2) else []

/-- A popped word moves the read cursor over the bytes stored, and its events are their stores. -/
theorem takeWord_next {x : Word} (h : takeWord k x s = .next v) : ∃ as cur,
    Cursor.walk s.params.addrSpace (storedBytes s.block.xstate [k]) s.block.rd = .next (as, cur) ∧
    v.params = s.params ∧
    v.block = { s.block with rd := cur, rdDone := s.block.rdDone + storedBytes s.block.xstate [k] } ∧
    v.trace = s.trace ++ storeEvents s.params.wordLayout s.block.pmode (readPhase s.block.xstate) k x as := by
  cases hph : readPhase s.block.xstate with
  | false =>
    obtain rfl : s = v := by simpa [takeWord_of_not_readPhase hph] using h
    exact ⟨[], s.block.rd, by simp [storedBytes, hph, walk_zero], rfl, by simp [storedBytes, hph], by simp [storeEvents]⟩
  | true =>
    obtain ⟨-, -, -, ⟨hno, -⟩ | ⟨-, r, hr, -⟩⟩ := takeWord_spec h
    · simp [hph] at hno
    · cases (takeWord_of_walk hph hr).symm.trans h
      exact ⟨r.1, r.2, by simpa [storedBytes, hph] using hr, by simp, by simp [storedBytes, hph],
        by simp [storeEvents, memWrites_trace]⟩

/-- The events of a drain word by word: the first word's, and then those of the rest at the addresses after its own. -/
theorem drainEvents_cons {l : WordLayout} {pm : PMode} {x : XState} {ks : List Nat} {y : Word × Word} {vs : List (Word × Word)}
    {as bs : List Nat} (has : as.length = storedBytes x [k]) :
    drainEvents l pm (readPhase x) (k :: ks) (y :: vs) (as ++ bs) =
      [.regRead .stat y.1, .regRead .fifoIo y.2] ++ storeEvents l pm (readPhase x) k y.2 as ++
        drainEvents l pm (readPhase x) ks vs bs := by
  cases hph : readPhase x with
  | false =>
    obtain rfl : as = [] := by simpa [storedBytes, hph] using has
    simp [drainEvents, storeEvents]
  | true =>
    obtain rfl : as.length = k := by simpa [storedBytes, hph] using has
    simp [drainEvents, storeEvents]

theorem storedBytes_cons (x : XState) (k : Nat) (ks : List Nat) :
    storedBytes x (k :: ks) = storedBytes x [k] + storedBytes x ks := by
  unfold storedBytes
  split <;> simp

/-- How a drain answers r: the words popped, the values read for each, the addresses their bytes go to, and the events, which end
early exactly on a STAT read that shows RX_EMPTY (43_transfer_state_machine.md R231). -/
structure Drains (s : State) (popped : List Nat) (vs : List (Word × Word)) (as : List Nat) (r : DrainResult × State) : Prop where
  inflight : s.block.inflight = popped ++ r.2.block.inflight
  values : vs.length = popped.length
  shown : ∀ y ∈ vs, rxEmptyOf s.params.layout y.1 = false
  walk : Cursor.walk s.params.addrSpace (storedBytes s.block.xstate popped) s.block.rd = .next (as, r.2.block.rd)
  ended : ∃ es, r.2.trace = s.trace ++ drainEvents s.params.wordLayout s.block.pmode (readPhase s.block.xstate) popped vs as ++ es ∧
    ((r.1 = .full ∧ r.2.block.inflight = [] ∧ es = []) ∨
     (r.1 = .part ∧ r.2.block.inflight ≠ [] ∧ ∃ y, rxEmptyOf s.params.layout y = true ∧ es = [.regRead .stat y]))

theorem drainLoop_drains : ∀ {ks : List Nat} {s : State} {r : DrainResult × State}, s.block.inflight = ks →
    drainLoop ks s = .next r → ∃ popped vs as, Drains s popped vs as r
  | [], s, r, hi, h => by
    cases h
    exact ⟨[], [], [], by simp, rfl, by simp, by simp [walk_zero], [], by simp [drainEvents], .inl ⟨rfl, hi, rfl⟩⟩
  | k :: ks, s, r, hi, h => by
    by_cases hempty : rxEmptyOf s.params.layout (regValue .stat s) = true
    · rw [drainLoop, if_pos hempty] at h
      cases h
      exact ⟨[], [], [], by simp, rfl, by simp, by simp [walk_zero], [_], by simp [drainEvents],
        .inr ⟨rfl, by simp [hi], _, hempty, rfl⟩⟩
    · rw [drainLoop, if_neg hempty] at h
      obtain ⟨v, hv, h⟩ := andThen_eq_next.mp h
      obtain ⟨bs, cur, hw, hp, hb, htr⟩ := takeWord_next hv
      simp only [setInflight_params, setInflight_block, setInflight_trace, regRead_params, regRead_block, regRead_trace]
        at hw hp hb htr
      obtain ⟨popped, vs, as, hd⟩ := drainLoop_drains (by rw [hb]) h
      obtain ⟨hinflight, hvalues, hshown, hwalk, es, hes, hended⟩ := hd
      rw [hp, hb] at hwalk hes
      rw [hp] at hshown hended
      refine ⟨k :: popped, (regValue .stat s, regValue .fifoIo (regRead .stat s)) :: vs, bs ++ as, ?_, by simp [hvalues],
        List.forall_mem_cons.mpr ⟨Bool.not_eq_true _ ▸ hempty, hshown⟩, ?_, es, ?_, hended⟩
      · rw [hi, List.cons_append, ← hinflight, hb]
      · rw [storedBytes_cons]
        exact walk_add hw hwalk
      · rw [drainEvents_cons (walk_spec hw).1, hes, htr]
        simp

theorem drain_drains {r : DrainResult × State} (h : drain s = .next r) : ∃ popped vs as, Drains s popped vs as r :=
  drainLoop_drains rfl h

/-- The block after a drain, and the memory it leaves alone. -/
theorem Drains.frame {popped : List Nat} {vs : List (Word × Word)} {as : List Nat} {r : DrainResult × State}
    (hd : Drains s popped vs as r) (h : drain s = .next r) (hm : Memory.wf s.mem = true) :
    r.2.block = { s.block with inflight := r.2.block.inflight, rd := r.2.block.rd,
                               rdDone := s.block.rdDone + storedBytes s.block.xstate popped } ∧
    ∀ a, a ∉ as → Memory.read r.2.mem a = Memory.read s.mem a := by
  obtain ⟨-, -, -, popped', rest, as', cur, hi, -, hw, hb, hwf, -⟩ := drainLoop_spec h rfl
  have hrest : r.2.block.inflight = rest := by rw [hb]
  obtain rfl : popped' = popped := List.append_cancel_right (hi.symm.trans (hrest ▸ hd.inflight))
  cases hw.symm.trans hd.walk
  exact ⟨by rw [hrest]; exact hb, (hwf hm).2⟩

/-! ### Advance -/

theorem done_performs (s : State) : Performs (DoneOf s.params s.block) s (done s) := by
  cases hl : s.block.locked with
  | true => exact ⟨_, .inl ⟨hl, by simp [done_block, hl], rfl⟩, by simp [done, hl]⟩
  | false => exact ⟨_, .inr ⟨hl, by simp [done_block, hl], rfl⟩, by simp [done, hl, deassertBegin_trace]⟩

/-- ReadInit of a connected target, from whichever tag it is entered. -/
theorem readInit_performs (x : XState) (ht : (targetAt s.block s.block.tgt).isSome = true) :
    ∃ u, readInit (setX x s) = .next u ∧ Performs (ReadInitOf s.params s.block) s u := by
  obtain ⟨tc, htc⟩ := Option.isSome_iff_exists.mp ht
  have hread : readInit (setX x s) = .next (readInitFor tc (setX x s)) := by
    have htc : targetAt (setX x s).block (setX x s).block.tgt = some tc := htc
    rw [readInit, htc]
  exact ⟨_, hread, _, ⟨tc, _, htc, ⟨readInitFor_block tc _, rfl⟩, rfl⟩, by simp [readInitFor, pumpRead_trace]; rfl⟩

/-- A phase with bytes left performs its pump, one without what ends it. -/
theorem performs_pumpOrElse {m n : Nat} {pump rest : Res State} {P Q : Block → List Event → Prop}
    (hpump : ∃ u, pump = .next u ∧ Performs P s u) (hrest : ∃ u, rest = .next u ∧ Performs Q s u) :
    ∃ u, (if m < n then pump else rest) = .next u ∧
      Performs (fun c es => (m < n ∧ P c es) ∨ (n ≤ m ∧ Q c es)) s u := by
  by_cases h : m < n
  · obtain ⟨u, hu, es, hes, htr⟩ := hpump
    exact ⟨u, (if_pos h).trans hu, es, .inl ⟨h, hes⟩, htr⟩
  · obtain ⟨u, hu, es, hes, htr⟩ := hrest
    exact ⟨u, (if_neg h).trans hu, es, .inr ⟨Nat.le_of_not_lt h, hes⟩, htr⟩

/-- Advance of a running request (43_transfer_state_machine.md R235). -/
theorem advance_performs (ho : Owned s.params s.block) (hp : Progress s.params s.block) :
    ∃ u, advance s = .next u ∧ Performs (Advanced s.params s.mem s.block) s u := by
  have hwrite := pumpWrite_performs hp.wrAt
  have hread : ∃ u, Host.Outcome.next (pumpRead s) = (.next u : Res State) ∧ _ := ⟨_, rfl, pumpRead_performs s⟩
  have hdone : ∃ u, Host.Outcome.next (done s) = (.next u : Res State) ∧ _ := ⟨_, rfl, done_performs s⟩
  have hinit := readInit_performs .sequenceReadInit ho.target
  have hlive := hp.live
  unfold advance Advanced
  cases hx : s.block.xstate with
  | invalid => exact absurd hx hlive
  | write | fullDuplex => exact performs_pumpOrElse hwrite hdone
  | read | sequenceRead => exact performs_pumpOrElse hread hdone
  | sequenceWrite => exact performs_pumpOrElse hwrite hinit
  | sequenceReadInit => rwa [setX_self hx] at hinit

theorem Advances.port (h : Advances s u) : u.port = s.port := by
  cases h with
  | pumpedWrite hx hu => exact (pumpWrite_spec hu).2.2.1
  | idle | pumpedRead | wroteAll | readAll => simp
  | turned => simp [readInitFor]

/-! ### Drain and Advance -/

/-- What follows a drain: with words left one claim, and otherwise Advance (43_transfer_state_machine.md R230, R234). -/
theorem Drains.irqAdvance {popped : List Nat} {vs : List (Word × Word)} {as : List Nat} {res : DrainResult}
    (hdr : Drains s popped vs as (res, v)) (hd : drain s = .next (res, v)) (hpar : v.params = s.params)
    (ho : Owned s.params v.block) (hp : Progress s.params v.block) :
    ∃ w es, Machine.irqAdvance s = .next (claim true w) ∧ w.params = v.params ∧ w.port = v.port ∧ w.mem = v.mem ∧
      w.trace = s.trace ++ drainEvents s.params.wordLayout s.block.pmode (readPhase s.block.xstate) popped vs as ++ es ∧
      ((v.block.inflight ≠ [] ∧ w.block = v.block ∧ ∃ y, rxEmptyOf s.params.layout y = true ∧ es = [.regRead .stat y]) ∨
       (v.block.inflight = [] ∧ Advanced s.params v.mem v.block w.block es)) := by
  obtain ⟨es, htr, ⟨rfl, hrest, rfl⟩ | ⟨rfl, hrest, hy⟩⟩ := hdr.ended
  · rw [List.append_nil] at htr
    obtain ⟨w, hw, es, hes, hwt⟩ := advance_performs (hpar ▸ ho) (hpar ▸ hp)
    have hadv := advance_next hw
    rw [hpar] at hes
    exact ⟨w, es, irqAdvance_of_full hd hw, hadv.frame.1, hadv.port, hadv.frame.2, hwt.trans (congrArg (· ++ es) htr),
      .inr ⟨hrest, hes⟩⟩
  · exact ⟨v, es, irqAdvance_of_part hd, rfl, rfl, rfl, htr, .inl ⟨hrest, rfl, hy⟩⟩

end Sys2Proof.Machine
end

section
/-! PROOFS. How many events of each kind an IRQ step makes (43_transfer_state_machine.md R242): a bound for each part of the step,
added up part by part. -/

namespace Sys2Proof.Machine

/-! ### Kinds of events -/

/-- The event reads a core register. -/
def isRegRead : Event → Bool
  | .regRead _ _ => true
  | _ => false

/-- The event writes a control word. -/
def isControlWrite : Event → Bool
  | .regWrite .cntl0 _ => true
  | .regWrite .cntl1 _ => true
  | _ => false

/-- The event pushes a release trigger (42_chip_select.md R195). -/
def isTrigger : Event → Bool
  | .regWrite .fifoIo _ => true
  | _ => false

/-- The event reads a byte of buffer memory. -/
def isMemRead : Event → Bool
  | .memRead _ _ => true
  | _ => false

/-- The event writes a byte of buffer memory. -/
def isMemWrite : Event → Bool
  | .memWrite _ _ => true
  | _ => false

/-- How many events of each kind that R242 bounds. -/
structure Budget where
  reads     : Nat := 0
  pushes    : Nat := 0
  controls  : Nat := 0
  triggers  : Nat := 0
  memReads  : Nat := 0
  memWrites : Nat := 0

/-- A list has at most as many events of each kind. -/
structure Budget.Covers (b : Budget) (es : List Event) : Prop where
  reads : es.countP isRegRead ≤ b.reads
  pushes : es.countP isHoldPush ≤ b.pushes
  controls : es.countP isControlWrite ≤ b.controls
  triggers : es.countP isTrigger ≤ b.triggers
  memReads : es.countP isMemRead ≤ b.memReads
  memWrites : es.countP isMemWrite ≤ b.memWrites

section Budgets

variable {b c : Budget} {es fs : List Event}

/-- Both budgets together. -/
def Budget.plus (b c : Budget) : Budget :=
  { reads := b.reads + c.reads, pushes := b.pushes + c.pushes, controls := b.controls + c.controls,
    triggers := b.triggers + c.triggers, memReads := b.memReads + c.memReads, memWrites := b.memWrites + c.memWrites }

/-- The budget n times. -/
def Budget.times (n : Nat) (b : Budget) : Budget :=
  { reads := n * b.reads, pushes := n * b.pushes, controls := n * b.controls, triggers := n * b.triggers,
    memReads := n * b.memReads, memWrites := n * b.memWrites }

theorem Budget.Covers.append (h : b.Covers es) (h' : c.Covers fs) : (b.plus c).Covers (es ++ fs) := by
  constructor <;> rw [List.countP_append]
  · exact Nat.add_le_add h.reads h'.reads
  · exact Nat.add_le_add h.pushes h'.pushes
  · exact Nat.add_le_add h.controls h'.controls
  · exact Nat.add_le_add h.triggers h'.triggers
  · exact Nat.add_le_add h.memReads h'.memReads
  · exact Nat.add_le_add h.memWrites h'.memWrites

/-- A larger budget covers as well. -/
theorem Budget.Covers.mono (h : b.Covers es) (hle : b.reads ≤ c.reads ∧ b.pushes ≤ c.pushes ∧ b.controls ≤ c.controls ∧
    b.triggers ≤ c.triggers ∧ b.memReads ≤ c.memReads ∧ b.memWrites ≤ c.memWrites) : c.Covers es := by
  obtain ⟨h1, h2, h3, h4, h5, h6⟩ := hle
  exact ⟨h.reads.trans h1, h.pushes.trans h2, h.controls.trans h3, h.triggers.trans h4, h.memReads.trans h5, h.memWrites.trans h6⟩

theorem covers_nil (b : Budget) : b.Covers [] :=
  ⟨Nat.zero_le _, Nat.zero_le _, Nat.zero_le _, Nat.zero_le _, Nat.zero_le _, Nat.zero_le _⟩

/-- Events made one for each entry of a list, each inside one budget. -/
theorem covers_map {α : Type} (f : α → Event) (hf : ∀ a, b.Covers [f a]) : ∀ as : List α, (b.times as.length).Covers (as.map f)
  | [] => covers_nil _
  | a :: as => ((hf a).append (covers_map f hf as)).mono (by simp [Budget.plus, Budget.times, Nat.succ_mul]; omega)

theorem covers_regRead (r : CoreReg) (v : Word) : Budget.Covers { reads := 1 } [.regRead r v] :=
  ⟨le_rfl, le_rfl, le_rfl, le_rfl, le_rfl, le_rfl⟩

theorem covers_push (v : Word) : Budget.Covers { pushes := 1 } [.regWrite .fifoHold v] :=
  ⟨le_rfl, le_rfl, le_rfl, le_rfl, le_rfl, le_rfl⟩

theorem covers_cntl0 (v : Word) : Budget.Covers { controls := 1 } [.regWrite .cntl0 v] :=
  ⟨le_rfl, le_rfl, le_rfl, le_rfl, le_rfl, le_rfl⟩

theorem covers_cntl1 (v : Word) : Budget.Covers { controls := 1 } [.regWrite .cntl1 v] :=
  ⟨le_rfl, le_rfl, le_rfl, le_rfl, le_rfl, le_rfl⟩

theorem covers_trigger (v : Word) : Budget.Covers { triggers := 1 } [.regWrite .fifoIo v] :=
  ⟨le_rfl, le_rfl, le_rfl, le_rfl, le_rfl, le_rfl⟩

theorem covers_memRead (a : Nat) (v : Byte) : Budget.Covers { memReads := 1 } [.memRead a v] :=
  ⟨le_rfl, le_rfl, le_rfl, le_rfl, le_rfl, le_rfl⟩

theorem covers_memWrite (a : Nat) (v : Byte) : Budget.Covers { memWrites := 1 } [.memWrite a v] :=
  ⟨le_rfl, le_rfl, le_rfl, le_rfl, le_rfl, le_rfl⟩

theorem covers_claim (m : Bool) : Budget.Covers {} [.claim m] := ⟨le_rfl, le_rfl, le_rfl, le_rfl, le_rfl, le_rfl⟩

end Budgets

/-! ### The parts of an IRQ step -/

section Parts

variable {p : Params} {l : WordLayout} {pm : PMode} {m : Memory} {b c : Block} {es : List Event}

theorem storeEvents_covers {st : Bool} {k : Nat} (x : Word) (as : List Nat) :
    Budget.Covers { memWrites := k } (storeEvents l pm st k x as) := by
  unfold storeEvents
  split
  · exact (covers_map (fun c : Host.Cell => Event.memWrite c.1 c.2) (fun c => covers_memWrite c.1 c.2) _).mono
      (by simp [Budget.times, unslot_length])
  · exact covers_nil _

/-- Each word popped costs two register reads, and at most a write for each of its bytes (43_transfer_state_machine.md R231). -/
theorem drainEvents_covers (st : Bool) : ∀ (ks : List Nat) (vs : List (Word × Word)) (as : List Nat),
    Budget.Covers { reads := 2 * ks.length, memWrites := ks.sum } (drainEvents l pm st ks vs as)
  | [], _, _ => covers_nil _
  | _ :: _, [], _ => covers_nil _
  | k :: ks, v :: vs, as => by
    have hpop := (covers_regRead .stat v.1).append (covers_regRead .fifoIo v.2)
    refine ((hpop.append (storeEvents_covers v.2 (as.take k))).append (drainEvents_covers st ks vs _)).mono ?_
    simp [Budget.plus]
    omega

/-- Each group costs one push, and a read for each of its bytes (40_codecs.md R138). -/
theorem pushEvents_covers : ∀ (ks as : List Nat),
    Budget.Covers { pushes := ks.length, memReads := ks.sum } (pushEvents l pm m ks as)
  | [], _ => covers_nil _
  | k :: ks, as => by
    have hbytes := covers_map (fun a => Event.memRead a (Memory.read m a)) (fun a => covers_memRead a _) (as.take k)
    have hword := covers_push (txWord l pm (slotOf pm ((as.take k).map (Memory.read m))))
    refine (hbytes.append (hword.append (pushEvents_covers ks (as.drop k)))).mono ?_
    simp [Budget.plus, Budget.times]
    omega

theorem placeholderEvents_covers (ks : List Nat) : Budget.Covers { pushes := ks.length } (placeholderEvents l pm ks) :=
  (covers_map _ (fun _ => covers_push _) ks).mono (by simp [Budget.times])

/-- What one Advance may cost: a chunk pushed and read from memory, two control words and a trigger. -/
abbrev advanceBudget : Budget := { pushes := 16, controls := 2, triggers := 1, memReads := 64 }

theorem cap_le (pm : PMode) : cap pm ≤ 64 := by cases pm <;> decide

theorem PumpedWrite.covers (h : PumpedWrite p m b c es) : advanceBudget.Covers es := by
  obtain ⟨as, cur, -, -, rfl⟩ := h
  have hcap := Nat.min_le_right (b.wrTotal - b.wrDone) (cap b.pmode)
  refine (pushEvents_covers _ as).mono ⟨Nat.zero_le _, groups_length hcap, Nat.zero_le _, Nat.zero_le _, ?_, Nat.zero_le _⟩
  rw [groups_sum]
  exact hcap.trans (cap_le _)

theorem pumpedRead_covers (b : Block) : Budget.Covers { pushes := 16 } (placeholderEvents l pm (pumpedRead b).inflight) :=
  (placeholderEvents_covers _).mono ⟨le_rfl, groups_length (Nat.min_le_right _ _), le_rfl, le_rfl, le_rfl, le_rfl⟩

theorem PumpedRead.covers (h : PumpedRead p b c es) : advanceBudget.Covers es := by
  obtain ⟨-, rfl⟩ := h
  exact (pumpedRead_covers b).mono (by decide)

theorem DoneOf.covers (h : DoneOf p b c es) : advanceBudget.Covers es := by
  obtain ⟨-, -, rfl⟩ | ⟨-, -, rfl⟩ := h
  · exact (covers_cntl1 _).mono (by decide)
  · exact ((covers_cntl1 _).append ((covers_cntl0 _).append (covers_trigger _))).mono (by decide)

theorem ReadInitOf.covers (h : ReadInitOf p b c es) : advanceBudget.Covers es := by
  obtain ⟨tc, front, -, ⟨-, rfl⟩, rfl⟩ := h
  exact (((covers_cntl0 _).append (covers_cntl0 _)).append (pumpedRead_covers _)).mono (by decide)

theorem Advanced.covers (h : Advanced p m b c es) : advanceBudget.Covers es := by
  unfold Advanced at h
  split at h
  · exact h.elim
  · exact h.elim (·.2.covers) (·.2.covers)
  · exact h.elim (·.2.covers) (·.2.covers)
  · exact h.elim (·.2.covers) (·.2.covers)
  · exact h.covers
  · exact h.elim (·.2.covers) (·.2.covers)
  · exact h.elim (·.2.covers) (·.2.covers)

end Parts

/-- What one IRQ step may cost (43_transfer_state_machine.md R242). -/
abbrev irqBudget : Budget :=
  { reads := 1 + 2 * 16 + 1, pushes := 16, controls := 2, triggers := 1, memReads := 4 * 16, memWrites := 4 * 16 }

/-- A step of an invariant block that drains: the words popped fit the FIFO and the chunk. -/
theorem drained_covers {b : Block} (hb : InflightFits b) {popped rest : List Nat} (hi : b.inflight = popped ++ rest) {q : Word}
    {l : WordLayout} {st : Bool} {vs : List (Word × Word)} {as : List Nat} {es : List Event}
    (hes : (∃ y, es = [.regRead .stat y]) ∨ advanceBudget.Covers es) :
    irqBudget.Covers ([.regRead .irqstat q] ++ drainEvents l b.pmode st popped vs as ++ es ++ [.claim true]) := by
  obtain ⟨hlen, hsum, -⟩ := hb
  have hcap := cap_le b.pmode
  rw [hi, List.length_append, Config.fifoDepth] at hlen
  rw [hi, List.sum_append] at hsum
  have hdrain := (covers_regRead .irqstat q).append (drainEvents_covers (l := l) (pm := b.pmode) st popped vs as)
  obtain ⟨y, rfl⟩ | hadv := hes
  · refine ((hdrain.append (covers_regRead .stat y)).append (covers_claim true)).mono ?_
    simp [Budget.plus]
    omega
  · refine ((hdrain.append hadv).append (covers_claim true)).mono ?_
    simp [Budget.plus]
    omega

theorem boundedKinds_of_isTopHalf (e : Event) (h : isTopHalf e = true) :
    (!isStall e && !isCompletion e && !isMapQuery e) = true := by
  cases e with
  | stall | complete | mapChain => cases h
  | _ => rfl

end Sys2Proof.Machine
end

section
/-! PROOFS. The tag: only the issue of a transfer, the turn to the read phase, an end of the request and RESET write it
(43_transfer_state_machine.md R240). -/

namespace Sys2Proof.Machine

variable {s u v : State}

theorem tagMoves_self (i : Instr) (x : XState) : tagMoves i x x = true := by simp [tagMoves]

theorem Declined.xstate (hd : Declined s u) : u.block.xstate = s.block.xstate := by
  cases hd with
  | raised | completed => rfl
  | unmapped cs => exact congrArg Block.xstate (mapChains_spec cs s).2.1

theorem Issues.xstate {n : Nat} {h : Handle} {x : Transfer} {tc : TargetConfig} (hx : Issues n h x tc s v) :
    (issueEnd v).block.xstate = x.firstState := by
  obtain ⟨-, -, cur, k, ks, hv⟩ := firstChunk_spec hx.chunk
  obtain ⟨v0, v1, hb⟩ := issued_block n h x tc s
  simp [issueEnd, hv, hb]

/-- The table takes an idle block to the first state of a well-formed transfer. -/
theorem tagMoves_command {x : Transfer} (hform : x.malformed = false) (n : Nat) (h : Handle) :
    tagMoves (x.command n h) .invalid x.firstState = true := by
  cases x with
  | write | read | fullDuplex => rfl
  | sequence ps =>
    obtain ⟨-, hparts⟩ | ⟨w, r, d, e, rfl⟩ := sequenceParts_cases ps
    · simp [Transfer.malformed, hparts] at hform
    · by_cases h1 : total w = 1 <;>
        simp [tagMoves, Transfer.command, Transfer.firstState, Transfer.wchain, sequenceParts, h1]

theorem transfer_tagMoves {n : Nat} {h : Handle} {x : Transfer} (hx : exec (x.command n h) s = .next u) :
    tagMoves (x.command n h) s.block.xstate u.block.xstate = true := by
  obtain hd | ⟨tc, v, hs, rfl⟩ := transfer_next hx
  · rw [hd.xstate]
    exact tagMoves_self _ _
  · rw [hs.xstate, hs.idle]
    exact tagMoves_command (issueChecks_pass hs.checks).2.1 n h

theorem done_xstate (s : State) : (done s).block.xstate = s.block.xstate := by
  rw [done_block]
  split <;> rfl

/-- Advance keeps the tag, or turns a sequence from its write phase to its read phase (43_transfer_state_machine.md R246). -/
theorem Advances.tagMoves (h : Advances s u) : Machine.tagMoves .irq s.block.xstate u.block.xstate = true := by
  cases h with
  | idle => exact tagMoves_self _ _
  | pumpedWrite hx hu =>
    obtain ⟨-, -, -, -, cur, -, hb⟩ := pumpWrite_spec hu
    rw [hb]
    exact tagMoves_self _ _
  | pumpedRead =>
    rw [pumpRead_block]
    exact tagMoves_self _ _
  | wroteAll | readAll =>
    rw [done_xstate]
    exact tagMoves_self _ _
  | turned hx =>
    have hturn : s.block.xstate = .sequenceWrite ∨ s.block.xstate = .sequenceReadInit := hx.imp_left And.left
    obtain hx | hx := hturn <;> simp [Machine.tagMoves, readInitFor, hx]

theorem Interrupts.tagMoves (h : Interrupts s u) : Machine.tagMoves .irq s.block.xstate u.block.xstate = true := by
  have hdrain : ∀ {r}, drain (regRead .irqstat s) = .next r → r.2.block.xstate = s.block.xstate := fun hd => by
    obtain ⟨-, -, -, _, _, _, _, -, -, -, hb, -⟩ := drainLoop_spec hd rfl
    simp [hb]
  cases h with
  | aside =>
    have hsame : (irqAside s).block.xstate = s.block.xstate := by
      unfold irqAside
      split <;> simp
    rw [hsame]
    exact tagMoves_self _ _
  | notMine =>
    rw [claim_block, regRead_block]
    exact tagMoves_self _ _
  | drainedPart ha hd =>
    rw [claim_block, hdrain hd]
    exact tagMoves_self _ _
  | drainedFull ha hd hw => exact hdrain hd ▸ hw.tagMoves

theorem BottomHalf.xstate (h : BottomHalf s u) : u.block.xstate = s.block.xstate ∨ u.block.xstate = .invalid := by
  cases h with
  | stale | mismatched => exact .inl rfl
  | finished => exact .inr (by simp [bhFinish])

end Sys2Proof.Machine
end

section
/-! PROOFS. The statements of the family 43_transfer_state_machine.md. -/

namespace Sys2Proof.Machine

/-- Settles O31: a WRITE that passes its checks is `Passes.starts_write`. -/
theorem writeIssues : Obligations.WriteIssues := by
  intro t h w tc s hs h0 ht htc hl hpos hlen hmap
  have hp : Passes t h (.write w) tc s := .of_chains hs h0 ht htc hl rfl rfl rfl (by simp [Transfer.chains, hpos, hlen])
    (by simp [Transfer.chains, mapChains, hmap])
  exact hp.starts_write rfl

/-- Settles O32: a READ that passes its checks is `Passes.starts_read`. -/
theorem readIssues : Obligations.ReadIssues := by
  intro t h r tc s hs h0 ht htc hl hpos hlen hmap
  have hp : Passes t h (.read r) tc s := .of_chains hs h0 ht htc hl rfl rfl rfl (by simp [Transfer.chains, hpos, hlen])
    (by simp [Transfer.chains, mapChains, hmap])
  exact hp.starts_read

/-- Settles O33: a SEQUENCE that passes its checks sends its write phase first (`Passes.starts_write`). -/
theorem sequenceIssues : Obligations.SequenceIssues := by
  intro t h w r d tc s hs h0 ht htc hl hwpos hwlen hrpos hrlen hwmap hrmap
  have hp : Passes t h (.sequence [⟨.w, w, 0⟩, ⟨.r, r, d⟩]) tc s := .of_chains hs h0 ht htc hl rfl rfl rfl
    (by simp [Transfer.chains, sequenceParts, hwpos, hwlen, hrpos, hrlen])
    (by simp [Transfer.chains, sequenceParts, mapChains, hwmap, hrmap])
  exact hp.starts_write rfl

/-- Settles O34: a FULL_DUPLEX that passes its checks sends bytes first (`Passes.starts_write`). -/
theorem fullDuplexIssues : Obligations.FullDuplexIssues := by
  intro t h w r tc s hs h0 ht htc hl hpos hlen heq hwmap hrmap
  have hp : Passes t h (.fullDuplex w r) tc s := .of_chains hs h0 ht htc hl rfl rfl (by simp [Transfer.unequal, heq])
    (by simp [Transfer.chains, hpos, hlen, ← heq]) (by simp [Transfer.chains, mapChains, hwmap, hrmap])
  exact hp.starts_write rfl

/-- Settles O35: the table's checks are the model's (`issueRefusal_eq`), and what follows them is the mapping of the chains. -/
theorem transferRefusals : Obligations.TransferRefusals := by
  intro x t h s hs h0 ht
  obtain ⟨go, hexec⟩ := exec_transfer_of_canIssue (x := x) hs h0 ht
  obtain ⟨hrefused, hunmapped⟩ := checkIssue_eq (s := s) (t := t) (h := h) (x := x) go
  rw [hexec]
  refine ⟨hrefused, fun hnone before after c hasked hok hfail => ?_⟩
  rw [asked_eq_chains hnone] at hasked
  obtain ⟨hno, htr⟩ := mapChains_fail (after := after) hok hfail
  rw [← hasked] at hno htr
  obtain ⟨hp, hb, hm, hport, -⟩ := mapChains_spec x.chains s
  exact ⟨_, hunmapped hnone hno, hb, hm, hp, hport, by simp [htr]⟩

/-- Settles O36: a decline or the stand-aside, by the mine bit of the value read. -/
theorem irqWithNothingToAdvance : Obligations.IrqWithNothingToAdvance := by
  intro s hf q
  refine ⟨fun hm => ⟨_, exec_irq_of_notMine hf hm, ?_⟩, fun hm hidle => ?_⟩
  · simp [q]
  · have ha : standsAside s.block = true := by simpa [standsAside, or_assoc] using hidle
    have hmine : irqMine s = true := hm
    exact ⟨_, exec_irq_of_aside hf ha, by simp [irqAside, hmine, q]⟩

/-- Settles O37: the drain answers and Advance follows it (`Drains.irqAdvance`), and every step accounts for its events. -/
theorem irqDrainsAndAdvances : Obligations.IrqDrainsAndAdvances := by
  intro s hi hf hx hs hbh hmine
  have ha : standsAside s.block = false := by simp [standsAside, hx, hs, hbh]
  have hexec := exec_irq_of_live hf ha hmine
  have hinv : Inv (regRead .irqstat s) := hi.of_block (by simp) (by simp) (by simpa using hi.block)
  obtain ⟨ho, hp⟩ := hinv.block.owned (by simpa using ha)
  obtain ⟨⟨res, v⟩, hd, -⟩ := drainLoop_of_at rfl hp.rdAt hp.stored_le
  have hd : drain (regRead .irqstat s) = .next (res, v) := hd
  obtain ⟨popped, vs, as, hdr⟩ := drain_drains hd
  obtain ⟨hb, hframe⟩ := hdr.frame hd hinv.memory
  obtain ⟨hpar, hport, -⟩ := drainLoop_spec hd rfl
  obtain ⟨hp', -⟩ := drain_progress hd hp
  obtain ⟨w, es, hw, hwpar, hwport, hwmem, hwtr, hend⟩ := hdr.irqAdvance hd hpar (hb ▸ { ho with }) hp'
  simp only [regRead_params, regRead_block, regRead_port, regRead_mem, regRead_trace] at hb hframe hpar hport hwtr hend
  obtain ⟨-, fs, htr, -, hreplay⟩ := exec_accounts (hexec.trans hw)
  refine ⟨claim true w, popped, v.block.inflight, as, v.block.rd, vs, es, hexec.trans hw, hwpar.trans hpar, hwport.trans hport,
    by simpa using hdr.inflight, by simpa using hdr.walk, hdr.values, by simpa using hdr.shown, by simp [hwtr], ?_, ?_, ?_⟩
  · rw [← hb, claim_mem, hwmem]
    exact hend
  · rw [htr, List.drop_left]
    exact hreplay
  · rw [claim_mem, hwmem]
    exact hframe

/-- Settles O38: word by word (`drain_drains`). -/
theorem drainTrace : Obligations.DrainTrace := by
  intro s t res h
  obtain ⟨popped, vs, as, hinflight, hvalues, hshown, hwalk, es, htr, hend⟩ := drain_drains h
  refine ⟨popped, t.block.inflight, as, t.block.rd, vs, hinflight, rfl, hvalues, hwalk, rfl, hshown, ?_⟩
  obtain ⟨hfull, hrest, rfl⟩ | ⟨hpart, hrest, y, hy, rfl⟩ := hend
  · exact .inl ⟨hfull, hrest, by simpa using htr⟩
  · exact .inr ⟨hpart, hrest, y, hy, htr⟩

/-- Settles O39: a step that drains is within the budget of its parts (`drained_covers`), and any other is three events at most. -/
theorem irqStepIsBounded : Obligations.IrqStepIsBounded := by
  intro s u hi h
  have hf : s.block.fault = none := by
    cases hf : s.block.fault with
    | none => rfl
    | some f => simp [exec_stuck hf] at h
  obtain ⟨-, es, htr, hkinds, -⟩ := exec_accounts h
  have hcover : irqBudget.Covers es := by
    have hevents : ∀ {v fs}, exec .irq s = .next v → v.trace = s.trace ++ fs → irqBudget.Covers fs → irqBudget.Covers es := by
      intro v fs hv hfs hc
      cases h.symm.trans hv
      exact List.append_cancel_left (hfs.symm.trans htr) ▸ hc
    obtain ⟨hother, haside⟩ := irqWithNothingToAdvance s hf
    cases hm : mineOf s.params (regValue .irqstat s) with
    | false =>
      obtain ⟨v, hv, -, -, -, -, hfs⟩ := hother hm
      exact hevents hv hfs (((covers_regRead _ _).append (covers_claim _)).mono (by decide))
    | true =>
      by_cases hidle : s.block.xstate = .invalid ∨ s.block.slot = 0 ∨ s.block.bhFor ≠ 0
      · obtain ⟨v, hv, -, -, -, -, hfs⟩ := haside hm hidle
        exact hevents hv hfs (((covers_regRead _ _).append ((covers_cntl1 _).append (covers_claim _))).mono (by decide))
      · obtain ⟨hx, hs, hbh⟩ : s.block.xstate ≠ .invalid ∧ s.block.slot ≠ 0 ∧ s.block.bhFor = 0 := by simpa using hidle
        obtain ⟨v, popped, rest, as, cur, vs, fs, hv, -, -, hinflight, -, -, -, hfs, hend, -⟩ :=
          irqDrainsAndAdvances s hi hf hx hs hbh hm
        refine hevents hv (by simpa using hfs) (drained_covers hi.block.inflight hinflight ?_)
        exact hend.imp (fun ⟨_, _, y, _, hy⟩ => ⟨y, hy⟩) fun ⟨_, hadv⟩ => hadv.covers
  exact ⟨es, htr, hcover.reads, hcover.pushes, hcover.controls, hcover.triggers, hcover.memReads, hcover.memWrites,
    all_of_imp hkinds boundedKinds_of_isTopHalf⟩

/-- Settles O54: only an IRQ step may write memory, and only by the drain of a read phase. -/
theorem onlyReadPhasesWriteMemory : Obligations.OnlyReadPhasesWriteMemory := by
  intro i s u h hcase
  by_cases hi : i = .irq
  · subst hi
    have hph : readPhase s.block.xstate = false := hcase.resolve_left fun hne => hne rfl
    obtain hm | ⟨r, hd, hm⟩ := (execIrq_interrupts h).mem
    · exact hm
    · obtain ⟨-, -, -, _, _, _, _, -, -, -, -, -, -, hsame⟩ := drainLoop_spec hd rfl
      rw [hm, hsame (by simpa using hph), regRead_mem]
  · exact exec_mem_of_ne_irq hi h

/-- Settles O56: a transfer enters its first state, an interrupt may turn to the read phase, the ends leave the block idle, and
nothing else writes the tag. -/
theorem tagTransitions : Obligations.TagTransitions := by
  intro i s u h
  have hkept : u.block.xstate = s.block.xstate → tagMoves i s.block.xstate u.block.xstate = true := fun hx => by
    rw [hx]
    exact tagMoves_self _ _
  cases i with
  | connect n h' d =>
    obtain hd | ⟨-, rfl⟩ := execConnect_next h
    · exact hkept hd.xstate
    · exact hkept rfl
  | write n h' w => exact transfer_tagMoves (x := .write w) h
  | read n h' r => exact transfer_tagMoves (x := .read r) h
  | sequence n h' ps => exact transfer_tagMoves (x := .sequence ps) h
  | fullDuplex n h' w r => exact transfer_tagMoves (x := .fullDuplex w r) h
  | lock n h' =>
    obtain hd | ⟨tc, -, -, rfl⟩ := execLock_next h
    · exact hkept hd.xstate
    · exact hkept (by rw [lockTarget_block])
  | unlock n h' =>
    obtain hd | ⟨-, rfl⟩ := execUnlock_next h
    · exact hkept hd.xstate
    · exact hkept (by rw [unlockTarget_block])
  | cancel n h' =>
    obtain rfl | ⟨-, rfl⟩ := execCancel_next (t := n) h <;> exact hkept rfl
  | reset =>
    cases h
    exact Bool.or_eq_true_iff.mpr (.inr rfl)
  | irq => exact (execIrq_interrupts h).tagMoves
  | bh =>
    obtain hx | hx := (execBh_next h).xstate
    · exact hkept hx
    · simp [tagMoves, hx]
  | cancelFinish =>
    obtain ⟨-, rfl⟩ := execCancelFinish_next h
    exact Bool.or_eq_true_iff.mpr (.inr rfl)

end Sys2Proof.Machine
end

section
/-! PROOFS. The bottom half and the cancel cleanup: what each does past its tests, the events of ending a request, and that a pending
bottom half plays no part in the cleanup (44_completion_cancel.md R270 to R283). -/

namespace Sys2Proof.Machine

variable {s : State}

/-! ### The bottom half -/

/-- A bottom half whose handle is in the slot takes the request, and its counts decide between the end and the fault
(44_completion_cancel.md R270, R273). -/
theorem exec_bh_of_taken (hf : s.block.fault = none) (hbh : s.block.bhFor ≠ 0) (hs : s.block.slot = s.block.bhFor)
    {c : Nat × Nat × Nat} (hc : counts s.block = some c) :
    exec .bh s = .next (if countsMatch s.block then bhFinish s.block.bhFor c (taken (clearBh s))
      else raise (mismatchOf s.block) (taken (clearBh s))) := by
  have ht : takes s.block.bhFor (clearBh s) = true := takes_eq_true.mpr ⟨hbh, hs⟩
  have hc : counts (clearBh s).block = some c := hc
  rw [exec, execBh, unlessStuck_pass hf, if_neg hbh, bhFor, if_pos ht, hc]
  exact (apply_ite Host.Outcome.next ..).symm

theorem releaseOrRearm_port (s : State) : (releaseOrRearm s).port = s.port := by
  unfold releaseOrRearm
  split <;> simp

/-- A line in release is polled before the FIFOs are reset; any other is left as it is. -/
theorem releaseOrRearm_trace (s : State) :
    ∃ es, ((s.block.cs = .releasing ∧ PollTrace s.params es) ∨ (s.block.cs ≠ .releasing ∧ es = [])) ∧
      (releaseOrRearm s).trace = s.trace ++ es ++ [.regWrite .cntl0 (fifoReset s.params.layout s.block.shadow0)] := by
  unfold releaseOrRearm
  split
  next hcs =>
    obtain ⟨poll, hpoll, htr⟩ := deassertComplete_trace s
    exact ⟨poll, .inl ⟨hcs, hpoll⟩, htr⟩
  next hcs => exact ⟨[], .inr ⟨hcs, rfl⟩, by simp⟩

theorem releaseOrRearm_emits (s : State) : Emits isQuiet s (releaseOrRearm s) := by
  obtain ⟨es, hes, htr⟩ := releaseOrRearm_trace s
  refine ⟨_, htr.trans (List.append_assoc ..), ?_⟩
  rw [List.all_append]
  obtain ⟨-, hpoll⟩ | ⟨-, rfl⟩ := hes
  · rw [hpoll.all_isQuiet]
    rfl
  · rfl

theorem bhFinish_block (h : Handle) (c : Nat × Nat × Nat) (s : State) : (bhFinish h c s).block =
    { s.block with
      xstate := .invalid, shadow0 := fifoReset s.params.layout s.block.shadow0,
      cs := if s.block.cs = .releasing then .released else s.block.cs } := by
  rw [bhFinish, complete_block, setX_block, releaseOrRearm_block]

/-- Before its completion the end of a bottom half completes nothing. -/
theorem bhFinish_emits (h : Handle) (c : Nat × Nat × Nat) (s : State) : ∃ v, Emits isQuiet s v ∧
    (bhFinish h c s).trace = v.trace ++ [.complete ⟨h, .success, c.1, c.2.1, c.2.2⟩] :=
  ⟨_, releaseOrRearm_emits s, rfl⟩

/-! ### The cancel cleanup -/

theorem exec_cancelFinish (hf : s.block.fault = none) (hc : s.block.cancelFor ≠ 0) :
    exec .cancelFinish s = .next (cancelCleanup s) := by
  simp only [exec, execCancelFinish, unlessStuck_pass hf, if_neg hc]

/-- The three branches of the cleanup, by the line and the lock of the block b: `poll` are the events of a poll, `es` those of the
branch, `w` the shape word and `c` the record of the line it leaves (44_completion_cancel.md R283; 42_chip_select.md R195 to R197). -/
def CleansUp (l : RegLayout) (b : Block) (poll es : List Event) (w : Word) (c : CsState) : Prop :=
  let z := zeroWidth l (fifoReset l b.shadow0)
  (b.cs = .releasing ∧ w = fifoReset l b.shadow0 ∧ c = .released ∧ es = poll ++ [.regWrite .cntl0 w]) ∨
  (b.cs ≠ .releasing ∧ b.locked = false ∧ w = fifoReset l z ∧ c = .released ∧
    es = [.regWrite .cntl0 (fifoReset l b.shadow0), .regWrite .cntl0 z, .regWrite .fifoIo 0] ++ poll ++ [.regWrite .cntl0 w]) ∨
  (b.cs ≠ .releasing ∧ b.locked = true ∧ w = fifoReset l b.shadow0 ∧ c = b.cs ∧ es = [.regWrite .cntl0 w])

theorem cancelRelease_cleansUp (s : State) :
    ∃ es poll w c, PollTrace s.params poll ∧ CleansUp s.params.layout s.block poll es w c ∧
      (cancelRelease s).block = { s.block with shadow0 := w, cs := c } ∧ (cancelRelease s).port = s.port ∧
      (cancelRelease s).trace = s.trace ++ es := by
  unfold cancelRelease
  split
  next hcs =>
    obtain ⟨poll, hpoll, htr⟩ := deassertComplete_trace s
    exact ⟨_, poll, _, _, hpoll, .inl ⟨hcs, rfl, rfl, rfl⟩, deassertComplete_block s, deassertComplete_port s,
      htr.trans (List.append_assoc ..)⟩
  next hcs =>
    split
    next hl =>
      obtain ⟨poll, hpoll, htr⟩ := deassertComplete_trace (deassertBegin (fifoRearm s))
      exact ⟨_, poll, _, _, by simpa using hpoll, .inr (.inl ⟨hcs, hl, rfl, rfl, rfl⟩), by simp, by simp,
        by simp [htr, deassertBegin_trace]⟩
    next hl =>
      obtain ⟨poll, hpoll, -⟩ := pollBusy_trace s
      exact ⟨_, poll, _, _, hpoll, .inr (.inr ⟨hcs, by simpa using hl, rfl, rfl, rfl⟩), fifoRearm_block s, fifoRearm_port s,
        fifoRearm_trace s⟩

theorem cancelRelease_emits (s : State) : Emits isQuiet s (cancelRelease s) := by
  obtain ⟨es, poll, w, c, hpoll, hclean, -, -, htr⟩ := cancelRelease_cleansUp s
  refine ⟨es, htr, ?_⟩
  obtain ⟨-, -, -, rfl⟩ | ⟨-, -, -, -, rfl⟩ | ⟨-, -, -, -, rfl⟩ := hclean
  · rw [List.all_append, hpoll.all_isQuiet]
    rfl
  · rw [List.all_append, List.all_append, hpoll.all_isQuiet]
    rfl
  · rfl

/-- Before its completion the cleanup of a cancel completes nothing. -/
theorem cancelCleanup_emits (s : State) : ∃ v, Emits isQuiet s v ∧
    (cancelCleanup s).trace = v.trace ++ [.complete ⟨s.block.cancelFor, .cancelled, 0, 0, 0⟩] := by
  have hquiet : Emits isQuiet s (ien (ieOff s.params) s) := .one (ien_trace _ s) rfl
  exact ⟨_, hquiet.trans (cancelRelease_emits _), rfl⟩

theorem cancelCleanup_block (s : State) : ∃ v c, (cancelCleanup s).block =
    { s.block with shadow0 := v, shadow1 := ieOff s.params, cs := c, xstate := .invalid, inflight := [], cancelFor := 0 } := by
  obtain ⟨v, hb⟩ := cancelRelease_block (ien (ieOff s.params) s)
  exact ⟨_, _, by simp only [cancelCleanup, completeInline_block, forgetRequest_block, hb, ien_block]; rfl⟩

/-! ### Dropping a pending bottom half commutes with the cleanup -/

theorem regRead_clearBh (r : CoreReg) (s : State) : regRead r (clearBh s) = clearBh (regRead r s) := by
  obtain ⟨p, b, m, core, n, port, trace⟩ := s
  cases core <;> rfl

theorem pollLoop_clearBh : ∀ (n : Nat) (s : State), pollLoop n (clearBh s) = ((pollLoop n s).1, clearBh (pollLoop n s).2)
  | 0, _ => rfl
  | n + 1, s => by
    have hvalue : regValue .stat (clearBh s) = regValue .stat s := rfl
    unfold pollLoop
    rw [clearBh_params, hvalue, regRead_clearBh]
    split
    · exact pollLoop_clearBh n (stall 3 (regRead .stat s))
    · rfl

theorem deassertComplete_clearBh (s : State) : deassertComplete (clearBh s) = clearBh (deassertComplete s) := by
  have hpoll : (pollBusy (clearBh s)).2 = clearBh (pollBusy s).2 := congrArg Prod.snd (pollLoop_clearBh s.params.pollRetries s)
  rw [deassertComplete, hpoll]
  rfl

theorem cancelRelease_clearBh (s : State) : cancelRelease (clearBh s) = clearBh (cancelRelease s) := by
  have hpolled := deassertComplete_clearBh (deassertBegin (fifoRearm s))
  unfold cancelRelease
  by_cases hcs : s.block.cs = .releasing
  · rw [if_pos hcs]
    exact (if_pos hcs).trans (deassertComplete_clearBh s)
  · rw [if_neg hcs]
    refine (if_neg hcs).trans ?_
    by_cases hl : s.block.locked = false
    · rw [if_pos hl]
      exact (if_pos hl).trans hpolled
    · rw [if_neg hl]
      exact if_neg hl

theorem cancelCleanup_clearBh (s : State) : cancelCleanup (clearBh s) = clearBh (cancelCleanup s) := by
  have hrelease := cancelRelease_clearBh (ien (ieOff s.params) s)
  exact congrArg (fun v => completeInline s.block.cancelFor .cancelled (forgetRequest v)) hrelease

/-- After a cancel took the request, the stale bottom half and the cleanup lead to one state in either order (44_completion_cancel.md
R281). -/
theorem exec_bh_cancelFinish_comm (hf : s.block.fault = none) (hbh : s.block.bhFor ≠ 0) (hs : s.block.slot ≠ s.block.bhFor)
    (hc : s.block.cancelFor ≠ 0) :
    exec .bh s = .next (clearBh s) ∧ exec .cancelFinish (clearBh s) = .next (cancelCleanup (clearBh s)) ∧
      exec .cancelFinish s = .next (cancelCleanup s) ∧ exec .bh (cancelCleanup s) = .next (cancelCleanup (clearBh s)) := by
  obtain ⟨w, c, hb⟩ := cancelCleanup_block s
  have hdropped : exec .bh (cancelCleanup s) = .next (clearBh (cancelCleanup s)) := by
    refine execBh_of_stale ?_ ?_ ?_ <;> rw [hb]
    · exact hf
    · exact hbh
    · exact hs
  rw [← cancelCleanup_clearBh] at hdropped
  exact ⟨execBh_of_stale hf hbh hs, exec_cancelFinish (s := clearBh s) hf hc, exec_cancelFinish hf hc, hdropped⟩

end Sys2Proof.Machine
end

section
/-! PROOFS. The fault a step raises and the ends of a request it reports: what a command that names a handle can do, which operations
keep the owner of the live request and the fault, and the ends reported for a handle with those still owed (44_completion_cancel.md
R273, R282; 20_memory.md R72; 60_exceptions.md R305). -/

namespace Sys2Proof.Machine

variable {p : Params} {b : Block} {s t u v : State} {h k : Handle}

/-! ### Commands that name a handle -/

/-- What a command that names handle k can do: a host-protocol fault, a completion of k inline, or its own effect. It says what
`Declined` leaves open: the handle it completes, and which faults it raises. -/
inductive Commands (k : Handle) (s : State) : State → Prop where
  | zeroHandle (cmd : Word) : Commands k s (raise (.zeroHandle cmd) s)
  | busy (cmd : Word) : Commands k s (raise (.busy cmd k) s)
  | refused (st : Status) : Commands k s (completeInline k st s)
  | unmapped (cs : List Chain) (st : Status) : Commands k s (completeInline k st (mapChains cs s).2)
  | connected (n : Nat) (tc : TargetConfig) : Commands k s (completeInline k .success (setTarget n tc s))
  | locked (n : Nat) (tc : TargetConfig) : Commands k s (lockTarget n k tc s)
  | unlocked : Commands k s (unlockTarget k s)
  | started {n : Nat} {x : Transfer} {tc : TargetConfig} {v : State} (hs : Issues n k x tc s v) : Commands k s (issueEnd v)

/-- The gates of a command raise a host-protocol fault or refuse its target, or its own part runs. -/
theorem Commands.of_gates {n : Bool} {cmd : Word} {m : Nat} {body : State → Res State}
    (hx : issueGate n cmd k s (fun s => targetGate m k s body) = .next u)
    (hbody : k ≠ 0 → (n = true → s.block.xstate = .invalid ∧ s.block.bhFor = 0) → body s = .next u → Commands k s u) :
    Commands k s u := by
  obtain ⟨-, rfl | rfl | ⟨h0, hidle, hx⟩⟩ := issueGate_next hx
  · exact .zeroHandle _
  · exact .busy _
  · obtain rfl | ⟨-, hx⟩ := targetGate_next hx
    · exact .refused _
    · exact hbody h0 hidle hx

theorem transfer_commands {n : Nat} {x : Transfer} (hx : exec (x.command n k) s = .next u) : Commands k s u := by
  obtain ⟨cmd, he⟩ := exec_transfer n k x s
  refine .of_gates (he.symm.trans hx) fun h0 hidle hx => ?_
  unfold checkIssue at hx
  split at hx
  · cases hx
    exact .refused _
  next htc =>
    split at hx
    · cases hx
      exact .refused _
    next hchecks =>
      split at hx
      next hm =>
        obtain ⟨v, hv, hu⟩ := andThen_eq_next.mp hx
        cases hu
        exact .started ⟨h0, (hidle rfl).1, (hidle rfl).2, htc, firstFailing_none.mp hchecks, hm, hv⟩
      · cases hx
        exact .unmapped _ _

theorem exec_commands {i : Instr} (hn : namesHandle k i = true) (hx : exec i s = .next u) : Commands k s u := by
  cases i with
  | connect n k' d =>
    obtain rfl := of_decide_eq_true hn
    refine .of_gates hx fun _ _ hx => ?_
    split at hx
    · cases hx
      exact .refused _
    · split at hx <;> cases hx
      · exact .refused _
      · exact .connected n _
  | write n k' w =>
    obtain rfl := of_decide_eq_true hn
    exact transfer_commands (x := .write w) hx
  | read n k' r =>
    obtain rfl := of_decide_eq_true hn
    exact transfer_commands (x := .read r) hx
  | sequence n k' ps =>
    obtain rfl := of_decide_eq_true hn
    exact transfer_commands (x := .sequence ps) hx
  | fullDuplex n k' w r =>
    obtain rfl := of_decide_eq_true hn
    exact transfer_commands (x := .fullDuplex w r) hx
  | lock n k' =>
    obtain rfl := of_decide_eq_true hn
    refine .of_gates hx fun _ _ hx => ?_
    split at hx
    · cases hx
      exact .refused _
    · split at hx <;> cases hx
      · exact .refused _
      · exact .locked n _
  | unlock n k' =>
    obtain rfl := of_decide_eq_true hn
    refine .of_gates hx fun _ _ hx => ?_
    split at hx
    · cases hx
      exact .refused _
    · split at hx <;> cases hx
      · exact .refused _
      · exact .unlocked
  | cancel | reset | irq | bh | cancelFinish => cases hn

/-! ### The owner and the fault -/

/-- From block b to block c nobody took or gave a request, and no fault was raised. -/
abbrev KeepsOwner (b c : Block) : Prop := c.slot = b.slot ∧ c.cancelFor = b.cancelFor ∧ c.fault = b.fault

theorem done_keepsOwner (s : State) : KeepsOwner s.block (done s).block := by
  rw [done_block]
  split <;> exact ⟨rfl, rfl, rfl⟩

theorem Advances.keepsOwner (ha : Advances s t) : KeepsOwner s.block t.block := by
  cases ha with
  | idle => exact ⟨rfl, rfl, rfl⟩
  | pumpedWrite hx hu =>
    obtain ⟨-, -, -, -, cur, -, hb⟩ := pumpWrite_spec hu
    rw [hb]
    exact ⟨rfl, rfl, rfl⟩
  | pumpedRead =>
    rw [pumpRead_block]
    exact ⟨rfl, rfl, rfl⟩
  | wroteAll | readAll => exact done_keepsOwner s
  | turned =>
    rw [readInitFor_block]
    exact ⟨rfl, rfl, rfl⟩

theorem drain_keepsOwner {r : DrainResult × State} (hd : drain s = .next r) : KeepsOwner s.block r.2.block := by
  obtain ⟨-, -, -, _, _, _, _, -, -, -, hb, -⟩ := drainLoop_spec hd rfl
  rw [hb]
  exact ⟨rfl, rfl, rfl⟩

theorem Interrupts.keepsOwner (hi : Interrupts s u) : KeepsOwner s.block u.block := by
  have hdrain : ∀ {r}, drain (regRead .irqstat s) = .next r → KeepsOwner s.block r.2.block := fun hd => by
    simpa only [regRead_block] using drain_keepsOwner hd
  cases hi with
  | aside =>
    unfold irqAside
    split <;> simp [KeepsOwner]
  | notMine => simp [KeepsOwner]
  | drainedPart ha hd => exact hdrain hd
  | drainedFull ha hd hw =>
    obtain ⟨hslot, hcancel, hfault⟩ := hdrain hd
    obtain ⟨hslot', hcancel', hfault'⟩ := hw.keepsOwner
    exact ⟨hslot'.trans hslot, hcancel'.trans hcancel, hfault'.trans hfault⟩

/-- A transfer that started owns the slot; it clears no cancel and raises no fault. -/
theorem Issues.owner {n : Nat} {x : Transfer} {tc : TargetConfig} (hx : Issues n k x tc s v) :
    (issueEnd v).block.slot = k ∧ (issueEnd v).block.cancelFor = s.block.cancelFor ∧
      (issueEnd v).block.fault = s.block.fault := by
  obtain ⟨-, -, cur, m, ks, hv⟩ := firstChunk_spec hx.chunk
  obtain ⟨v0, v1, hb⟩ := issued_block n k x tc s
  simp [issueEnd, hv, hb, requestRecord]

/-- A handle in the slot was not cancelled. -/
theorem BlockInv.cancelFor_of_slot (h : BlockInv p b) (hs : b.slot ≠ 0) : b.cancelFor = 0 := by
  obtain ⟨-, hc, -⟩ | ⟨h0, -⟩ := (h.owner (h.live_of_slot hs)).1
  · exact hc
  · exact absurd h0 hs

/-- A cancelled request has left the slot. -/
theorem BlockInv.slot_of_cancelFor (h : BlockInv p b) (hc : b.cancelFor ≠ 0) : b.slot = 0 := by
  by_contra hs
  exact hc (h.cancelFor_of_slot hs)

/-- A bottom half whose take succeeds finds counts, and they match (44_completion_cancel.md R273). -/
theorem BlockInv.counts_of_taken (h : BlockInv p b) (hbh : b.bhFor ≠ 0) (hs : b.slot = b.bhFor) :
    (∃ c, counts b = some c) ∧ countsMatch b = true := by
  have h0 : b.slot ≠ 0 := hs ▸ hbh
  obtain ⟨-, hc, hm⟩ := h.doneComplete (h.live_of_slot h0) h0 hbh
  exact ⟨Option.isSome_iff_exists.mp hc, hm⟩

/-- Under the invariant a bottom half drops a stale handle or ends the request; its counts never differ (44_completion_cancel.md
R273). -/
theorem BottomHalf.stale_or_finished (hb : BottomHalf s u) (hi : BlockInv s.params s.block) :
    u = clearBh s ∨ (s.block.bhFor ≠ 0 ∧ s.block.slot = s.block.bhFor ∧ ∃ c, u = bhFinish s.block.bhFor c (taken (clearBh s))) := by
  cases hb with
  | stale => exact .inl rfl
  | finished ht =>
    obtain ⟨hbh, hs⟩ := takes_eq_true.mp ht
    exact .inr ⟨hbh, hs, _, rfl⟩
  | mismatched ht hm =>
    obtain ⟨hbh, hs⟩ := takes_eq_true.mp ht
    exact absurd (hi.counts_of_taken hbh hs).2 (by simp [hm])

/-! ### Which faults a step raises -/

/-- The host-protocol faults (60_exceptions.md R305). -/
def isHostProtocol : FaultReason → Bool
  | .zeroHandle _ => true
  | .busy _ _ => true
  | .countMismatch _ _ _ _ _ => false

theorem Commands.fault (hc : Commands k s u) : ∀ f ∈ u.block.fault, f ∈ s.block.fault ∨ isHostProtocol f = true := by
  have hsame : u.block.fault = s.block.fault → ∀ f ∈ u.block.fault, f ∈ s.block.fault ∨ isHostProtocol f = true :=
    fun hu f hf => .inl (hu ▸ hf)
  cases hc with
  | zeroHandle | busy =>
    rintro f ⟨⟩
    exact .inr rfl
  | refused | connected => exact hsame rfl
  | unmapped cs => exact hsame (congrArg Block.fault (mapChains_spec cs s).2.1)
  | locked => exact hsame (by rw [lockTarget_block])
  | unlocked => exact hsame (by rw [unlockTarget_block])
  | started hs => exact hsame hs.owner.2.2

theorem BottomHalf.fault (hb : BottomHalf s u) (hi : BlockInv s.params s.block) : u.block.fault = s.block.fault := by
  obtain rfl | ⟨-, -, c, rfl⟩ := hb.stale_or_finished hi
  · rfl
  · rw [bhFinish_block]
    rfl

/-- Under the invariant a step of a block without a fault raises a host-protocol fault or none. -/
theorem exec_fault {i : Instr} (hi : BlockInv s.params s.block) (hf : s.block.fault = none) (hx : exec i s = .next u) :
    ∀ f ∈ u.block.fault, isHostProtocol f = true := by
  have hsame : u.block.fault = s.block.fault → ∀ f ∈ u.block.fault, isHostProtocol f = true := fun hu f hfu => by
    rw [hu, hf] at hfu
    cases hfu
  by_cases hn : ∃ k, namesHandle k i = true
  · obtain ⟨k, hn⟩ := hn
    refine fun f hfu => ((exec_commands hn hx).fault f hfu).resolve_left ?_
    rw [hf]
    nofun
  · cases i with
    | cancel n hc =>
      obtain rfl | ⟨-, rfl⟩ := execCancel_next (t := n) hx <;> exact hsame rfl
    | reset =>
      cases hx
      rintro f ⟨⟩
    | irq => exact hsame (execIrq_interrupts hx).keepsOwner.2.2
    | bh => exact hsame ((execBh_next hx).fault hi)
    | cancelFinish =>
      obtain ⟨-, rfl⟩ := execCancelFinish_next hx
      obtain ⟨w, c, hb⟩ := cancelCleanup_block s
      exact hsame (by rw [hb])
    | connect | write | read | sequence | fullDuplex | lock | unlock => exact absurd ⟨_, decide_eq_true rfl⟩ hn

/-! ### The ends of a request -/

theorem requestEnds_append (h : Handle) (es es' : List Event) : requestEnds h (es ++ es') = requestEnds h es + requestEnds h es' :=
  List.countP_append

theorem endsRequest_of_isQuiet (h : Handle) {e : Event} (he : isQuiet e = true) : endsRequest h e = false := by
  cases e with
  | complete => cases he
  | _ => rfl

theorem requestEnds_of_all_isQuiet (h : Handle) {es : List Event} (hes : es.all isQuiet = true) : requestEnds h es = 0 :=
  List.countP_eq_zero.mpr fun e he => by simp [endsRequest_of_isQuiet h (List.all_eq_true.mp hes e he)]

/-- The two statuses that end a request that started (44_completion_cancel.md R282). -/
abbrev IsEnd (st : Status) : Prop := st = .success ∨ st = .cancelled

theorem requestEnds_complete {st : Status} (hst : IsEnd st) (h k : Handle) (i w r : Nat) :
    requestEnds h [.complete ⟨k, st, i, w, r⟩] = if k = h then 1 else 0 := by
  by_cases hk : k = h <;> simp [requestEnds, endsRequest, hst, hk]

theorem requestEnds_complete_of_ne (hk : k ≠ h) (st : Status) (i w r : Nat) :
    requestEnds h [.complete ⟨k, st, i, w, r⟩] = 0 := by
  simp [requestEnds, endsRequest, hk]

/-- Quiet events and then the completion of h end its request once, and last. -/
theorem Emits.endsOnce (he : Emits isQuiet s v) {st : Status} (hst : IsEnd st) {i w r : Nat}
    (ht : u.trace = v.trace ++ [.complete ⟨h, st, i, w, r⟩]) :
    ∃ es, u.trace = s.trace ++ es ∧ requestEnds h es = 1 ∧ u.trace.getLast? = some (.complete ⟨h, st, i, w, r⟩) := by
  obtain ⟨es, htr, hes⟩ := he
  refine ⟨es ++ [.complete ⟨h, st, i, w, r⟩], by rw [ht, htr, List.append_assoc], ?_, by rw [ht, List.getLast?_concat]⟩
  rw [requestEnds_append, requestEnds_of_all_isQuiet h hes, requestEnds_complete hst, if_pos rfl]

/-! ### The account of a handle -/

/-- The ends reported for h and those still owed. -/
def account (h : Handle) (s : State) : Nat := requestEnds h s.trace + owed h s.block

theorem owed_of_empty (h0 : h ≠ 0) (hs : b.slot = 0) (hc : b.cancelFor = 0) : owed h b = 0 := by
  simp [owed, hs, hc, h0.symm]

theorem owed_of_slot (h0 : h ≠ 0) (hc : b.cancelFor = 0) : owed h b = if b.slot = h then 1 else 0 := by
  simp [owed, hc, h0.symm]

theorem owed_of_cancelFor (h0 : h ≠ 0) (hs : b.slot = 0) : owed h b = if b.cancelFor = h then 1 else 0 := by
  simp [owed, hs, h0.symm]

/-- Under the invariant a handle is owed by the slot or by a cancel, not by both. -/
theorem BlockInv.owed_le_one (hi : BlockInv p b) (h0 : h ≠ 0) : owed h b ≤ 1 := by
  by_cases hs : b.slot = 0
  · rw [owed_of_cancelFor h0 hs]
    split <;> omega
  · rw [owed_of_slot h0 (hi.cancelFor_of_slot hs)]
    split <;> omega

theorem Emits.requestEnds_eq (he : Emits isQuiet s t) (h : Handle) : requestEnds h t.trace = requestEnds h s.trace := by
  obtain ⟨es, htr, hes⟩ := he
  rw [htr, requestEnds_append, requestEnds_of_all_isQuiet h hes, Nat.add_zero]

/-- Operations that complete nothing and keep the owner keep the account. -/
theorem Emits.account_eq (he : Emits isQuiet s t) (hs : t.block.slot = s.block.slot) (hc : t.block.cancelFor = s.block.cancelFor)
    (h : Handle) : account h t = account h s := by
  rw [account, account, he.requestEnds_eq, owed, owed, hs, hc]

/-- Completing another handle keeps the account. -/
theorem account_completeInline (hk : k ≠ h) (st : Status) (s : State) : account h (completeInline k st s) = account h s := by
  rw [account, completeInline_trace, requestEnds_append, requestEnds_complete_of_ne hk]
  rfl

theorem mapChains_emits (cs : List Chain) (s : State) : Emits isQuiet s (mapChains cs s).2 := by
  obtain ⟨-, -, -, -, -, he⟩ := mapChains_spec cs s
  refine he.mono fun e h => ?_
  cases e with
  | complete => cases h
  | _ => rfl

theorem ShapeTrace.all_isQuiet {cs : CsState} {img : Word} {es : List Event} (h : ShapeTrace p cs img es) :
    es.all isQuiet = true := by
  obtain ⟨-, rfl⟩ | ⟨-, hassert⟩ := h
  · rfl
  · exact hassert.all_isQuiet

/-- The first chunk completes nothing. -/
theorem firstChunk_emits {x : Transfer} (hx : firstChunk x s = .next v) : Emits isQuiet s v := by
  have hpump : Emits isPump s v := by
    cases x with
    | read r =>
      cases hx
      obtain ⟨-, es, htr, hes, -⟩ := pumpRead_accounts s
      exact ⟨es, htr, hes⟩
    | write | sequence | fullDuplex => exact (pumpWrite_spec hx).2.2.2.1
  refine hpump.mono fun e h => ?_
  cases e with
  | complete => cases h
  | _ => rfl

/-- A transfer that starts completes nothing. -/
theorem Issues.emits {n : Nat} {x : Transfer} {tc : TargetConfig} (hx : Issues n k x tc s v) : Emits isQuiet s (issueEnd v) := by
  obtain ⟨es, hes, htr⟩ := issued_trace (t := n) (h := k) (tc := tc) hx.mapped
  have hissue : Emits isQuiet s (issued n k x tc s) := by
    refine ⟨_, htr.trans (List.append_assoc ..), ?_⟩
    rw [List.all_append, hes.all_isQuiet, List.all_map, Bool.and_true]
    exact List.all_eq_true.mpr fun _ _ => rfl
  exact (hissue.trans (firstChunk_emits hx.chunk)).trans (.one (issueEnd_trace v) rfl)

/-- A command that names another handle keeps the account of h. -/
theorem Commands.account_eq (hc : Commands k s u) (hi : BlockInv s.params s.block) (h0 : h ≠ 0) (hk : k ≠ h) :
    account h u = account h s := by
  cases hc with
  | zeroHandle | busy => rfl
  | refused st => exact account_completeInline hk st s
  | unmapped cs st =>
    have hb := (mapChains_spec cs s).2.1
    rw [account_completeInline hk]
    exact (mapChains_emits cs s).account_eq (by rw [hb]) (by rw [hb]) h
  | connected n tc => exact account_completeInline hk .success (setTarget n tc s)
  | locked n tc =>
    obtain ⟨v, hv, hu⟩ := lockTarget_emits n k tc s
    have hb : v.block = (lockTarget n k tc s).block := by rw [hu, completeInline_block]
    rw [lockTarget_block] at hb
    rw [hu, account_completeInline hk]
    exact hv.account_eq (by rw [hb]) (by rw [hb]) h
  | unlocked =>
    obtain ⟨v, hv, hu⟩ := unlockTarget_emits k s
    have hb : v.block = (unlockTarget k s).block := by rw [hu, completeInline_block]
    rw [unlockTarget_block] at hb
    rw [hu, account_completeInline hk]
    exact hv.account_eq (by rw [hb]) (by rw [hb]) h
  | started hs =>
    obtain ⟨hslot, -, -, hcancel⟩ := hi.idleOwns hs.idle
    obtain ⟨hslot', hcancel', -⟩ := hs.owner
    rw [account, account, hs.emits.requestEnds_eq, owed_of_empty h0 hslot hcancel, owed_of_slot h0 (hcancel'.trans hcancel), hslot',
      if_neg hk]

/-- A bottom half drops a stale handle, or it reports the end its request is owed. -/
theorem BottomHalf.account_eq (hb : BottomHalf s u) (hi : BlockInv s.params s.block) (h0 : h ≠ 0) :
    account h u = account h s := by
  obtain rfl | ⟨hbh, hs, c, rfl⟩ := hb.stale_or_finished hi
  · rfl
  · have hcancel : s.block.cancelFor = 0 := hi.cancelFor_of_slot (hs ▸ hbh)
    obtain ⟨v, hv, htr⟩ := bhFinish_emits s.block.bhFor c (taken (clearBh s))
    have howed : owed h (bhFinish s.block.bhFor c (taken (clearBh s))).block = 0 := by
      rw [bhFinish_block]
      exact owed_of_empty h0 rfl hcancel
    rw [account, account, htr, requestEnds_append, requestEnds_complete (.inl rfl), hv.requestEnds_eq, howed,
      owed_of_slot h0 hcancel, hs]
    rfl

/-- The cleanup of a cancel reports the end its request is owed. -/
theorem account_cancelCleanup (hi : BlockInv s.params s.block) (h0 : h ≠ 0) (hc : s.block.cancelFor ≠ 0) :
    account h (cancelCleanup s) = account h s := by
  have hslot := hi.slot_of_cancelFor hc
  obtain ⟨v, hv, htr⟩ := cancelCleanup_emits s
  obtain ⟨w, c, hb⟩ := cancelCleanup_block s
  have howed : owed h (cancelCleanup s).block = 0 := by
    rw [hb]
    exact owed_of_empty h0 hslot rfl
  rw [account, account, htr, requestEnds_append, requestEnds_complete (.inr rfl), hv.requestEnds_eq, howed,
    owed_of_cancelFor h0 hslot]
  rfl

/-- A cancel hands what the slot owes to the cleanup. -/
theorem account_cancelled (hi : BlockInv s.params s.block) (h0 : h ≠ 0) (hs : s.block.slot ≠ 0) :
    account h (setCancelFor s.block.slot (taken s)) = account h s := by
  have hcancel := hi.cancelFor_of_slot hs
  rw [account, account, owed_of_slot h0 hcancel, owed_of_cancelFor h0 rfl]
  rfl

/-- The interrupt top half reports no end and owes what it owed before. -/
theorem exec_irq_account (hx : exec .irq s = .next u) (h : Handle) : account h u = account h s := by
  obtain ⟨hslot, hcancel, -⟩ := (execIrq_interrupts hx).keepsOwner
  obtain ⟨-, es, htr, hes, -⟩ := exec_accounts hx
  refine Emits.account_eq ⟨es, htr, all_of_imp hes fun e he => ?_⟩ hslot hcancel h
  exact (Bool.and_eq_true_iff.mp (completesNothing_of_isTopHalf e he)).1

/-- Every step that neither names h nor is RESET keeps the account of h (44_completion_cancel.md R282). -/
theorem exec_account {i : Instr} (hi : BlockInv s.params s.block) (h0 : h ≠ 0) (hn : namesHandle h i = false) (hr : i ≠ .reset)
    (hx : exec i s = .next u) : account h u = account h s := by
  by_cases hk : ∃ k, namesHandle k i = true
  · obtain ⟨k, hk⟩ := hk
    refine (exec_commands hk hx).account_eq hi h0 ?_
    rintro rfl
    exact Bool.false_ne_true (hn.symm.trans hk)
  · cases i with
    | cancel n hc =>
      obtain rfl | ⟨ht, rfl⟩ := execCancel_next (t := n) hx
      · rfl
      · obtain ⟨hs, rfl⟩ := takes_eq_true.mp ht
        exact account_cancelled hi h0 hs
    | reset => exact absurd rfl hr
    | irq => exact exec_irq_account hx h
    | bh => exact (execBh_next hx).account_eq hi h0
    | cancelFinish =>
      obtain ⟨hc, rfl⟩ := execCancelFinish_next hx
      exact account_cancelCleanup hi h0 hc
    | connect | write | read | sequence | fullDuplex | lock | unlock => exact absurd ⟨_, decide_eq_true rfl⟩ hk

/-- RESET reports no end, and forgets the one that was owed (70_reset_and_hazards.md R340). -/
theorem account_resetStep_le (h0 : h ≠ 0) (s : State) : account h (resetStep s) ≤ account h s := by
  have hquiet : Emits isQuiet s (resetStep s) :=
    ⟨[.regWrite .cntl1 0, .regWrite .cntl0 (resetShape s.params.layout)], by simp [resetStep], rfl⟩
  rw [account, account, hquiet.requestEnds_eq, owed_of_empty h0 rfl rfl]
  omega

end Sys2Proof.Machine
end

section
/-! PROOFS. The statements of the family 44_completion_cancel.md. -/

namespace Sys2Proof.Machine

/-- Settles O47: an end is owed by the slot or by a cancel, and every operation hands on or reports what is owed (`exec_account`);
RESET forgets it. -/
theorem atMostOneEndPerRequest : Obligations.AtMostOneEndPerRequest := by
  intro i h s u hi h0 hx
  refine ⟨hi.block.owed_le_one h0, fun hn => ⟨?_, fun hr _ => exec_account hi.block h0 hn hr hx⟩⟩
  by_cases hr : i = .reset
  · subst hr
    cases hx
    exact account_resetStep_le h0 s
  · exact (exec_account hi.block h0 hn hr hx).le

/-- Settles O41: by the tag, the counts are those of R272 and match, so the bottom half ends the request (`exec_bh_of_taken`). -/
theorem bhCompletesRequest : Obligations.BhCompletesRequest := by
  intro s info w r hf hbh hs htag
  obtain ⟨hc, hm⟩ : counts s.block = some (info, w, r) ∧ countsMatch s.block = true := by
    obtain ⟨hx, hw, rfl, rfl, rfl⟩ | ⟨hx, hr, rfl, rfl, rfl⟩ | ⟨hx | hx, hw, hr, rfl, rfl, rfl⟩ := htag
    · simp [counts, countsMatch, countsRead, hx, hw]
    · simp [counts, countsMatch, countsWrite, hx, hr]
    · simp [counts, countsMatch, hx, hw, hr]
    · simp [counts, countsMatch, hx, hw, hr]
  have hexec := exec_bh_of_taken hf hbh hs hc
  rw [if_pos hm] at hexec
  obtain ⟨es, hes, htr⟩ := releaseOrRearm_trace (taken (clearBh s))
  obtain ⟨hp, hmem⟩ := releaseOrRearm_frame (taken (clearBh s))
  have hport := releaseOrRearm_port (taken (clearBh s))
  refine ⟨_, es, hexec, ?block, hmem, hp, hport, hes, ?trace⟩
  case block =>
    rw [bhFinish_block]
    rfl
  case trace => simp [bhFinish, htr]

/-- Settles O42: a stale bottom half is `execBh_of_stale`; one whose counts differ takes the fault's branch of `exec_bh_of_taken`. -/
theorem bhStaleOrMismatch : Obligations.BhStaleOrMismatch := by
  intro s hf hbh
  refine ⟨execBh_of_stale hf hbh, fun hs htag => ?_⟩
  obtain ⟨⟨c, hc⟩, hm⟩ : (∃ c, counts s.block = some c) ∧ countsMatch s.block = false := by
    obtain ⟨hx, hw⟩ | ⟨hx, hr⟩ | ⟨hx | hx, hwr⟩ := htag
    · simp [counts, countsMatch, countsWrite, hx, hw]
    · simp [counts, countsMatch, countsRead, hx, hr]
    · simpa [counts, countsMatch, countsWrite, countsRead, hx, imp_iff_not_or] using hwr
    · simpa [counts, countsMatch, countsWrite, countsRead, hx, imp_iff_not_or] using hwr
  have hexec := exec_bh_of_taken hf hbh hs hc
  rw [if_neg (by simp [hm])] at hexec
  exact hexec

/-- Settles O43: a stuck block takes RESET alone, which clears the fault, and any other raises a host-protocol fault at most
(`exec_fault`). -/
theorem countMismatchIsUnreachable : Obligations.CountMismatchIsUnreachable := by
  intro i s u hi hx x a b c d hfault
  cases hf : s.block.fault with
  | none => exact Bool.false_ne_true (exec_fault hi.block hf hx _ hfault)
  | some f =>
    by_cases hr : i = .reset
    · subst hr
      cases hx
      cases hfault
    · cases (exec_stuck hf hr).symm.trans hx

/-- Settles O45: the cleanup writes IE_OFF, takes one of the three branches (`cancelRelease_cleansUp`), and completes. -/
theorem cancelFinishCleansUp : Obligations.CancelFinishCleansUp := by
  intro s hf hc
  obtain ⟨es, poll, w, c, hpoll, hclean, hb, hport, htr⟩ := cancelRelease_cleansUp (ien (ieOff s.params) s)
  obtain ⟨hp, hm⟩ := cancelRelease_frame (ien (ieOff s.params) s)
  refine ⟨cancelCleanup s, es, poll, w, c, exec_cancelFinish hf hc, hpoll, hclean, ?block, hm, hp, hport, ?trace⟩
  case block => simp [cancelCleanup, hb]
  case trace => simp [cancelCleanup, htr]

/-- Settles O44: the take succeeds exactly when the handle is nonzero and in the slot. -/
theorem cancelTakesRequest : Obligations.CancelTakesRequest := by
  intro t hc s hf
  rw [exec_cancel hf]
  refine ⟨fun h0 hs => ?_, fun hno => ?_⟩
  · rw [if_pos (takes_eq_true.mpr ⟨h0, hs⟩)]
    rfl
  · rw [if_neg]
    intro ht
    obtain ⟨h0, hs⟩ := takes_eq_true.mp ht
    exact hno.elim h0 (absurd hs)

/-- Settles O46: the bottom half, if first, empties the slot the CANCEL looks for; the CANCEL, if first, leaves a stale bottom half,
whose drop commutes with the cleanup (`cancelCleanup_clearBh`). -/
theorem cancelRaceEndsOnce : Obligations.CancelRaceEndsOnce := by
  intro t h s hi hf h0 hs hbh
  have hbh0 : s.block.bhFor ≠ 0 := hbh ▸ h0
  refine ⟨?bhFirst, ?cancelFirst⟩
  case bhFirst =>
    have hown : s.block.slot = s.block.bhFor := hs.trans hbh.symm
    have hcancel := hi.block.cancelFor_of_slot (hs ▸ h0)
    obtain ⟨⟨c, hc⟩, hm⟩ := hi.block.counts_of_taken hbh0 hown
    have hexec := exec_bh_of_taken hf hbh0 hown hc
    rw [if_pos hm, hbh] at hexec
    obtain ⟨v, hv, hvtr⟩ := bhFinish_emits h c (taken (clearBh s))
    obtain ⟨es, htr, hends, hlast⟩ := Emits.endsOnce hv (.inl rfl) hvtr
    have hblock := bhFinish_block h c (taken (clearBh s))
    generalize bhFinish h c (taken (clearBh s)) = u at *
    have hnoop := (cancelTakesRequest t h u (by rw [hblock]; exact hf)).2 (.inr (by rw [hblock]; exact h0.symm))
    exact ⟨u, es, hexec, htr, hends, ⟨_, _, _, hlast⟩, hnoop, by rw [hblock]; exact hcancel⟩
  case cancelFirst =>
    have hcancel : exec (.cancel t h) s = .next (setCancelFor h (taken s)) := (cancelTakesRequest t h s hf).1 h0 hs
    have hstale : (0 : Handle) ≠ s.block.bhFor := hbh0.symm
    obtain ⟨hv, hw, hv', hw'⟩ := exec_bh_cancelFinish_comm (s := setCancelFor h (taken s)) hf hbh0 hstale h0
    obtain ⟨v, hvq, hvtr⟩ := cancelCleanup_emits (clearBh (setCancelFor h (taken s)))
    obtain ⟨es, htr, hends, hlast⟩ := Emits.endsOnce hvq (.inr rfl) hvtr
    obtain ⟨w, c, hblock⟩ := cancelCleanup_block (clearBh (setCancelFor h (taken s)))
    exact ⟨_, _, _, _, _, es, hcancel, hv, hw, hv', hw', rfl, by rw [hblock]; rfl, by rw [hblock], htr, hends, hlast⟩

end Sys2Proof.Machine
end

section
/-! PROOFS. The tests a command word other than CANCEL meets (60_exceptions.md R302 items 1 to 4): with an instruction or without
one, it runs behind the same issue gate. -/

namespace Sys2Proof.Machine

variable {cmd : Word} {o : Operands} {s : State} {h : Handle} {n : Bool} {body : State → Res State}

theorem issueGate_zeroHandle (hf : s.block.fault = none) (h0 : h = 0) :
    issueGate n cmd h s body = .next (raise (.zeroHandle cmd) s) := by
  rw [issueGate, unlessStuck_pass hf, if_pos h0]

theorem issueGate_busy (hf : s.block.fault = none) (h0 : h ≠ 0) (hn : n = true) (hx : s.block.xstate ≠ .invalid) :
    issueGate n cmd h s body = .next (raise (.busy cmd h) s) := by
  rw [issueGate, unlessStuck_pass hf, if_neg h0, if_pos (by simp [hn, hx])]

theorem targetGate_refuses {t : Nat} (ht : s.params.numTargetSlots ≤ t) :
    targetGate t h s body = .next (completeInline h .invalidParameter s) := if_pos ht

theorem opNeedsIdle_eq_true {op : Nat} : opNeedsIdle op = true ↔ 2 ≤ op ∧ op ≤ 7 := by simp [opNeedsIdle]

/-- A command word has an instruction when RSV is 0 and OP is from 1 to 8 (30_encoding.md R94). -/
theorem decodeCommand_isOk :
    (∃ i, decodeCommand cmd o = .ok i) ↔ rsvField cmd = 0 ∧ 1 ≤ opField cmd ∧ opField cmd ≤ 8 := by
  simp only [decodeCommand_eq_ok, exists_and_left, decodeOp_isOk]

/-- Every instruction of a command but CANCEL is its own part behind the issue gate and the target gate. -/
theorem exec_of_decodeOp {op t : Nat} {i : Instr} (hop : op ≠ opCancel) (hd : decodeOp op t o = .ok i) :
    ∃ own, ∀ s, exec i s =
      issueGate (opNeedsIdle op) (commandWord op t) o.h s fun s => targetGate t o.h s own := by
  unfold decodeOp at hd
  split at hd <;> cases hd
  case h_8 => exact absurd rfl hop
  all_goals exact ⟨_, fun _ => rfl⟩

/-- A command word with an instruction other than CANCEL meets the issue gate and then the test of its target. -/
theorem runInput_of_meaningful (hop : opField cmd ≠ opCancel) {i : Instr} (hd : decodeCommand cmd o = .ok i) (s : State) :
    ∃ own, runInput (.command cmd o) s =
      issueGate (opNeedsIdle (opField cmd)) cmd o.h s fun s => targetGate (tgtField cmd) o.h s own := by
  obtain ⟨hrsv, hdop⟩ := decodeCommand_eq_ok.mp hd
  obtain ⟨own, hexec⟩ := exec_of_decodeOp hop hdop
  rw [commandWord_fields hrsv] at hexec
  exact ⟨own, (runInput_of_decode (decodeInput_of_ok hd) s).trans (hexec s)⟩

/-- A command word without an instruction, CANCEL's apart, meets the issue gate and then INVALID_COMMAND. -/
theorem runInput_of_meaningless (hop : opField cmd ≠ opCancel) (hd : ¬ ∃ i, decodeCommand cmd o = .ok i) (s : State) :
    runInput (.command cmd o) s =
      issueGate (opNeedsIdle (opField cmd)) cmd o.h s fun s => .next (completeInline o.h .invalidCommand s) := by
  cases hc : decodeCommand cmd o with
  | ok i => exact absurd ⟨i, hc⟩ hd
  | error e => simp only [runInput, hc, rejectCommand, if_neg hop]

/-- With an instruction or without one, a command word other than CANCEL runs behind the issue gate of its operation code. -/
theorem runInput_gated (hop : opField cmd ≠ opCancel) (s : State) :
    ∃ body, runInput (.command cmd o) s = issueGate (opNeedsIdle (opField cmd)) cmd o.h s body := by
  by_cases hd : ∃ i, decodeCommand cmd o = .ok i
  · obtain ⟨i, hd⟩ := hd
    obtain ⟨own, hrun⟩ := runInput_of_meaningful hop hd s
    exact ⟨_, hrun⟩
  · exact ⟨_, runInput_of_meaningless hop hd s⟩

end Sys2Proof.Machine
end

section
/-! PROOFS. Where DONE_IE may rise (60_exceptions.md R310): every write of the interrupt-enable word but that of IssueEnd writes a
word with DONE_IE = 0. -/

namespace Sys2Proof.Machine

variable {p : Params} {b c : Block} {s t u : State}

/-- From block b to block c DONE_IE does not rise. -/
def KeepsQuiet (p : Params) (b c : Block) : Prop := doneIeOf p.layout b.shadow1 = false → doneIeOf p.layout c.shadow1 = false

theorem KeepsQuiet.of_eq (h : c.shadow1 = b.shadow1) : KeepsQuiet p b c := fun hq => h ▸ hq

theorem KeepsQuiet.of_ieOff (hv : p.valid = true) (h : c.shadow1 = ieOff p) : KeepsQuiet p b c := fun _ => h ▸ doneIeOf_ieOff hv

theorem Declined.shadow1 (hd : Declined s u) : u.block.shadow1 = s.block.shadow1 := by
  cases hd with
  | raised | completed => rfl
  | unmapped cs => exact congrArg Block.shadow1 (mapChains_spec cs s).2.1

theorem done_shadow1 (s : State) : (done s).block.shadow1 = ieOff s.params := by
  rw [done_block]
  split <;> rfl

/-- Advance leaves the interrupt-enable word alone, or Done quiets the interrupt (43_transfer_state_machine.md R236). -/
theorem Advances.shadow1 (h : Advances s t) : t.block.shadow1 = s.block.shadow1 ∨ t.block.shadow1 = ieOff s.params := by
  cases h with
  | idle => exact .inl rfl
  | pumpedWrite hx hu =>
    obtain ⟨-, -, -, -, cur, -, hb⟩ := pumpWrite_spec hu
    exact .inl (by rw [hb])
  | pumpedRead => exact .inl (by rw [pumpRead_block])
  | wroteAll | readAll => exact .inr (done_shadow1 s)
  | turned => exact .inl (by rw [readInitFor_block]; rfl)

theorem Interrupts.shadow1 (h : Interrupts s u) : u.block.shadow1 = s.block.shadow1 ∨ u.block.shadow1 = ieOff s.params := by
  have hdrain : ∀ {r}, drain (regRead .irqstat s) = .next r →
      r.2.block.shadow1 = s.block.shadow1 ∧ r.2.params = s.params := fun hd => by
    obtain ⟨hp, -, -, _, _, _, _, -, -, -, hb, -⟩ := drainLoop_spec hd rfl
    exact ⟨by simp [hb], by simpa using hp⟩
  cases h with
  | aside =>
    unfold irqAside
    split
    · exact .inr (by simp)
    · exact .inl (by simp)
  | notMine => exact .inl (by simp)
  | drainedPart ha hd => exact .inl (hdrain hd).1
  | drainedFull ha hd hw =>
    obtain ⟨hsame, hp⟩ := hdrain hd
    rw [← hsame, ← hp]
    exact hw.shadow1

theorem BottomHalf.shadow1 (h : BottomHalf s u) : u.block.shadow1 = s.block.shadow1 := by
  cases h with
  | stale | mismatched => rfl
  | finished =>
    rw [bhFinish_block]
    rfl

/-- A transfer that does not start leaves DONE_IE, and one that starts finds the block idle and leaves a live request. -/
theorem transfer_keepsQuiet_or_issues {n : Nat} {h : Handle} {x : Transfer} (hx : exec (x.command n h) s = .next u) :
    KeepsQuiet s.params s.block u.block ∨ (isTransfer (x.command n h) = true ∧ s.block.xstate = .invalid ∧
      u.block.xstate ≠ .invalid ∧ u.block.slot ≠ 0) := by
  obtain hd | ⟨tc, v, hs, rfl⟩ := transfer_next hx
  · exact .inl (.of_eq hd.shadow1)
  · rw [hs.xstate, hs.slot]
    exact .inr ⟨isTransfer_command n h x, hs.idle, firstState_ne_invalid x, hs.handle⟩

end Sys2Proof.Machine
end

section
/-! PROOFS. The statements of the family 60_exceptions.md. -/

namespace Sys2Proof.Machine

/-- Settles O6: the word runs behind the issue gate (`runInput_gated`); past it a word without an instruction completes with
INVALID_COMMAND, any other meets the test of its target. -/
theorem commandPriority : Obligations.CommandPriority := by
  intro cmd o s hf hop needsIdle completed
  obtain ⟨body, hrun⟩ := runInput_gated hop s
  refine ⟨fun h0 => ?zero, fun h0 hn hx => ?busy, fun h0 hn hx hbh => ?held, fun h0 hidle => ?past⟩
  case zero => exact hrun.trans (issueGate_zeroHandle hf h0)
  case busy => exact hrun.trans (issueGate_busy hf h0 (opNeedsIdle_eq_true.mpr hn) hx)
  case held =>
    have hheld : commandHeld cmd o s.block = true := by simp [commandHeld, opNeedsIdle_eq_true.mpr hn, h0, hx, hbh]
    simp [inputEnabled_command hf, hheld]
  case past =>
    have hpass : opNeedsIdle (opField cmd) = true → s.block.xstate = .invalid ∧ s.block.bhFor = 0 :=
      fun hn => hidle (opNeedsIdle_eq_true.mp hn)
    refine ⟨fun hbad => ?_, fun hrsv hlow hhigh ht => ?_⟩
    · have hd : ¬ ∃ i, decodeCommand cmd o = .ok i := by
        rw [decodeCommand_isOk]
        omega
      exact (runInput_of_meaningless hop hd s).trans (issueGate_pass _ hf h0 hpass)
    · obtain ⟨i, hd⟩ : ∃ i, decodeCommand cmd o = .ok i := decodeCommand_isOk.mpr ⟨hrsv, by omega, by omega⟩
      obtain ⟨own, hown⟩ := runInput_of_meaningful hop hd s
      exact (hown.trans (issueGate_pass _ hf h0 hpass)).trans (targetGate_refuses ht)

/-- Settles O55: a transfer that starts is `transfer_keepsQuiet_or_issues`; any other write of the interrupt-enable word is
IE_OFF or the 0 of RESET. -/
theorem doneIeSetOnlyAtIssue : Obligations.DoneIeSetOnlyAtIssue := by
  intro i s u hv h hoff hon
  suffices hq : KeepsQuiet s.params s.block u.block ∨ (isTransfer i = true ∧ s.block.xstate = .invalid ∧
      u.block.xstate ≠ .invalid ∧ u.block.slot ≠ 0) from
    hq.resolve_left fun hq => Bool.false_ne_true ((hq hoff).symm.trans hon)
  cases i with
  | connect n h' d =>
    obtain hd | ⟨-, rfl⟩ := execConnect_next h
    · exact .inl (.of_eq hd.shadow1)
    · exact .inl (.of_eq rfl)
  | write n h' w => exact transfer_keepsQuiet_or_issues (x := .write w) h
  | read n h' r => exact transfer_keepsQuiet_or_issues (x := .read r) h
  | sequence n h' ps => exact transfer_keepsQuiet_or_issues (x := .sequence ps) h
  | fullDuplex n h' w r => exact transfer_keepsQuiet_or_issues (x := .fullDuplex w r) h
  | lock n h' =>
    obtain hd | ⟨tc, -, -, rfl⟩ := execLock_next h
    · exact .inl (.of_eq hd.shadow1)
    · exact .inl (.of_ieOff hv (by rw [lockTarget_block]))
  | unlock n h' =>
    obtain hd | ⟨-, rfl⟩ := execUnlock_next h
    · exact .inl (.of_eq hd.shadow1)
    · exact .inl (.of_eq (by rw [unlockTarget_block]))
  | cancel n h' =>
    obtain rfl | ⟨-, rfl⟩ := execCancel_next (t := n) h <;> exact .inl (.of_eq rfl)
  | reset =>
    cases h
    exact .inl fun _ => doneIeOf_zero _
  | irq => exact .inl ((execIrq_interrupts h).shadow1.elim .of_eq (.of_ieOff hv))
  | bh => exact .inl (.of_eq (execBh_next h).shadow1)
  | cancelFinish =>
    obtain ⟨-, rfl⟩ := execCancelFinish_next h
    obtain ⟨w, c, hb⟩ := cancelCleanup_block s
    exact .inl (.of_ieOff hv (by rw [hb]))

end Sys2Proof.Machine
end

section
/-! PROOFS. The statements of the family 70_reset_and_hazards.md. -/

namespace Sys2Proof.Machine

theorem resetStep_block (s : State) :
    (resetStep s).block = Block.reset s.params.numTargetSlots (resetShape s.params.layout) := rfl

theorem resetStep_trace (s : State) :
    (resetStep s).trace = s.trace ++ [.regWrite .cntl1 0x00000000, .regWrite .cntl0 (resetShape s.params.layout)] := by
  simp [resetStep]

/-- RI puts CLEAR_FIFO at bit 9 of the transfer-shape word. -/
theorem resetShape_ri : resetShape RegLayout.ri = 0x00000200 := by decide

/-- Settles O11: RI has four target slots, and its shape word of RESET is 0x00000200 (`resetShape_ri`). -/
theorem resetUnderReferenceInstance : Obligations.ResetUnderReferenceInstance := by
  intro s hs
  have hslots : s.params.numTargetSlots = 4 := by rw [hs]; rfl
  have hshape : resetShape s.params.layout = 0x00000200 := by rw [hs]; exact resetShape_ri
  refine ⟨resetStep s, rfl, ?_, ?_⟩
  · rw [resetStep_block, hslots, hshape]
    rfl
  · rw [resetStep_trace, hshape]

end Sys2Proof.Machine
end
